-- ==== Sys2Proof/Word.lean ====
section
/-! DEFINITION. The word types of the HCE (spec/00_scope.md R4, R6: bits numbered from 0, all numbers unsigned), and the
table of fixed size that FREQ, NODE, INQ, CLEN and CBITS are held in. -/

namespace Sys2Proof

/-- A symbol: SYM_W = 8 bits (R4, R12). -/
abbrev Sym := BitVec 8

/-- One frequency counter: FREQ_W = 32 bits (R4, R21). -/
abbrev Freq := BitVec 32

/-- A tree node's count: CNT_W = 40 bits (R4, R22). -/
abbrev Cnt := BitVec 40

/-- A node index: IDX_W = 9 bits; 0 to 510 name records, 511 is NIL (R4, R22). -/
abbrev Idx := BitVec 9

/-- A code length: LEN_W = 8 bits (R4, R29). -/
abbrev CodeLen := BitVec 8

/-- The bits of one code: bit `k` is the `k`-th bit counted from the root (R30). -/
abbrev CodeBits := BitVec 255

/-- A command word: CMD_W = 64 bits (R4, R90). -/
abbrev CmdWord := BitVec 64

/-- A table-space address: ADDR_W = 16 bits; it names a word, not a byte (R4, R60). -/
abbrev TblAddr := BitVec 16

/-- A table-space word, also the data of a response and an info word: WORD_W = 32 bits (R4). -/
abbrev TblWord := BitVec 32

/-- A response word: RSP_W = 40 bits (R4, R100). -/
abbrev RspWord := BitVec 40

/-- A bit-string, first bit (the edge nearest the root) first (R6, R12). -/
abbrev Code := List Bool

/-- A table of exactly `n` entries, numbered from 0: one of the HCE's storage arrays (R37). Two tables are equal
exactly when their entries are. -/
structure Table (α : Type) (n : Nat) where
  entries : List α
  size_eq : entries.length = n
deriving DecidableEq, Repr

/-- The table whose every entry is `a`. -/
def Table.fill {α : Type} (n : Nat) (a : α) : Table α n :=
  { entries := List.replicate n a, size_eq := List.length_replicate }

/-- Entry `i`; `none` where the table has no such entry. -/
def Table.get? {α : Type} {n : Nat} (t : Table α n) (i : Nat) : Option α := t.entries[i]?

/-- Entry `i` of a table that has one. -/
def Table.get {α : Type} {n : Nat} (t : Table α n) (i : Nat) (h : i < n) : α :=
  t.entries[i]'(by rw [t.size_eq]; exact h)

/-- The table with entry `i` replaced; a table without entry `i` is unchanged. -/
def Table.set {α : Type} {n : Nat} (t : Table α n) (i : Nat) (a : α) : Table α n :=
  { entries := t.entries.set i a, size_eq := by rw [List.length_set]; exact t.size_eq }

end Sys2Proof
end

