-- ==== Sys2Proof/Config.lean ====
section
/-! DEFINITION. The fixed parameters of the HCE (spec/00_scope.md R4: "The model takes none of them as an argument; they
are constants of this hardware"). The open parameters PACK_ORDER, PAD_VALUE and LATENCY (R5) belong to the environment
and no rule reads them, so the model has none.

The last part holds the model's free values: constants without a value, for what a rule would compute in a state that no
run reaches and for which the rules state no result. The step is total on all states (R9) and determined by state and
command word (93_implementation_defined.md), so each is a function of the operands the rule has; nothing is known of
what it gives (log 6, log 7, log 8). In the states of a run none of them is consulted. -/

namespace Sys2Proof.Config

/-- NSYM: the number of symbol values (R4). -/
def nsym : Nat := 256

/-- NNODE_MAX: the number of records of the node arena (R4). -/
def nodeMax : Nat := 511

/-- NIL: the node index that means "no node" (R4, R22). -/
def nil : Idx := 0x1FF

/-- MAXLEN: the longest possible code (R4, R184). -/
def maxLen : Nat := 255

/-- The first sum that does not fit in CNT_W = 40 bits (R4, R157). -/
def cntLimit : Nat := 2 ^ 40

/-- The counter value at which SYM faults, 2^32 - 1 (R4, R133). -/
def freqMax : Freq := 0xFFFFFFFF

/-- The status of a response without a fault (60_exceptions.md R260). -/
def okCode : BitVec 8 := 0x00

/-- E_HALTED, the status of a refused command, never stored in FAULT (R260, R268). -/
def haltedCode : BitVec 8 := 0x07

/-! ## Free values -/

/-- The CNT of a merge of trees with these counts, where one of the two is NIL and has no count (R22, R151), or the sum
does not fit in 40 bits (R157; R6: "No addition wraps silently"). DESIGN CHOICE (log 6, log 7). -/
opaque freeSum : Option Cnt → Option Cnt → Cnt

/-- NNODES after a merge with no record left to allocate, NNODES = 511 (10_state.md R23, R156). DESIGN CHOICE
(log 7). -/
opaque freeNext : BitVec 9 → BitVec 9

/-- The child that a bit selects where CUR is NIL, which names no record (R22, R28). DESIGN CHOICE (log 6). -/
opaque freeChild : BitVec 1 → Idx

/-- The code of leaf `i` in a tree with the given root that does not reach `i` exactly once (R180, R182). DESIGN CHOICE
(log 8). -/
opaque freeCode : Idx → Idx → Code

/-- The CLEN of a code of so many bits, more than MAXLEN (R184). DESIGN CHOICE (log 8). -/
opaque freeLength : Nat → CodeLen

end Sys2Proof.Config
end

