-- ==== Sys2Proof/Machine/State.lean ====
section
/-! DEFINITION. The state of the HCE (spec/10_state.md R20 to R40), what the host may do to it (00_scope.md R9,
70_reset_and_hazards.md R300), what it emits (30_encoding.md R98 to R100), the causes of its faults
(60_exceptions.md R260), and the reasons for which the MODEL would stop. -/

namespace Sys2Proof.Machine

/-- One record of the node arena (R22). -/
structure Node where
  /-- LEAF: a leaf, not an internal node or an unallocated record. -/
  leaf : Bool
  /-- SYM: the symbol of a leaf; 0 in an internal node. -/
  sym : Sym
  /-- CNT: a leaf's frequency, or the sum of the two children's counts. -/
  cnt : Cnt
  /-- LEFT: index of the left child; NIL in a leaf. -/
  left : Idx
  /-- RIGHT: index of the right child; NIL in a leaf. -/
  right : Idx
  /-- PARENT: index of the parent; NIL in a tree root. -/
  parent : Idx
deriving DecidableEq, Repr

/-- The reset value of a record, and the value of every unallocated one (R22, R40). -/
def Node.reset : Node :=
  { leaf := false, sym := 0, cnt := 0, left := Config.nil, right := Config.nil, parent := Config.nil }

/-- PHASE: how far the run has progressed (R32). All four values of the 2-bit element have a name. -/
inductive Phase where
  /-- P_COUNT = 0: the frequency table is being filled. -/
  | count
  /-- P_FOREST = 1: the forest is loaded; merging in progress. -/
  | forest
  /-- P_TREE = 2: the tree is final; ROOT and CUR are set. -/
  | tree
  /-- P_READY = 3: the code table is derived. -/
  | ready
deriving DecidableEq, Repr

/-- The 2-bit value of PHASE (R32). -/
def Phase.code : Phase → BitVec 2
  | .count => 0
  | .forest => 1
  | .tree => 2
  | .ready => 3

/-- An output event (00_scope.md R7, R9; 30_encoding.md R98 to R100). -/
inductive Event where
  /-- BIT(b): a data beat of the bit sink. -/
  | bit (b : Bool)
  /-- BITEOS: the end-of-stream beat of the bit sink. -/
  | biteos
  /-- SYMB(s): a data beat of the symbol sink. -/
  | symb (s : Sym)
  /-- SYMEOS: the end-of-stream beat of the symbol sink. -/
  | symeos
  /-- RSP(st, data): a response word. -/
  | rsp (st : BitVec 8) (data : TblWord)
deriving DecidableEq, Repr

/-- What the host does next: the inputs of the step relation (00_scope.md R9, 10_state.md R39,
70_reset_and_hazards.md R300, R314). -/
inductive HostInput where
  /-- The host presents a command word. -/
  | command (w : CmdWord)
  /-- The host asserts `rst` between two commands. -/
  | reset
  /-- The host presents a command word and asserts `rst` in the middle of it, when `beats` of its beats have been
  transferred (R300; 93_implementation_defined.md U14: any number). -/
  | resetDuring (w : CmdWord) (beats : Nat)
deriving DecidableEq, Repr

/-- The causes that `raise` may name (60_exceptions.md R260). E_HALTED is none of them: it is never stored in FAULT. -/
inductive Cause where
  /-- E_ILLEGAL (R261). -/
  | illegal
  /-- E_SEQ (R262). -/
  | seq
  /-- E_FREQOVF (R263). -/
  | freqOvf
  /-- E_NOSYM (R264). -/
  | noSym
  /-- E_MALFORMED (R266). -/
  | malformed
  /-- E_BADADDR (R267). -/
  | badAddr
deriving DecidableEq, Repr

/-- Why the MODEL stops: for no reason. The step is total on all states (00_scope.md R9), and a fault of the hardware is
a next state (60_exceptions.md R265), so no command raises any of these and there is none. -/
inductive Fault where
deriving DecidableEq, Repr

/-- Why the model gives an instruction no meaning. -/
inductive Refusal where
  /-- The instruction has no meaning yet; raised by its arm of `exec` alone (none at present). Safe. -/
  | notModelled (mnemonic : String)
deriving DecidableEq, Repr

/-- The state of the HCE: the elements of R20, "exactly the following elements", and two fields of the model's own,
`inputs` and `trace`, for the host's side of the ports (R39; log 1, log 2). -/
structure State where
  /-- FREQ (R21). -/
  freq : Table Freq 256
  /-- NODE (R22). -/
  node : Table Node 511
  /-- NNODES (R23). -/
  nnodes : BitVec 9
  /-- NDIST (R24). -/
  ndist : BitVec 9
  /-- INQ (R25). -/
  inq : Table Bool 511
  /-- PQLEN (R25). -/
  pqlen : BitVec 9
  /-- ROOT (R27). -/
  root : Idx
  /-- CUR (R28). -/
  cur : Idx
  /-- CLEN (R29). -/
  clen : Table CodeLen 256
  /-- CBITS (R30). -/
  cbits : Table CodeBits 256
  /-- FAULT (R31). -/
  fault : BitVec 8
  /-- FINFO (R31). -/
  finfo : TblWord
  /-- PHASE (R32). -/
  phase : Phase
  /-- The model's own: what the host does next, oldest first. DESIGN CHOICE (log 1). -/
  inputs : List HostInput
  /-- The model's own: the events emitted so far, oldest first (00_scope.md R9). DESIGN CHOICE (log 2). -/
  trace : List Event
deriving DecidableEq, Repr

/-- The reset state (R40); the model's own fields are empty (log 1, log 2). -/
def State.reset : State where
  freq := Table.fill 256 0
  node := Table.fill 511 Node.reset
  nnodes := 0
  ndist := 0
  inq := Table.fill 511 false
  pqlen := 0
  root := Config.nil
  cur := Config.nil
  clen := Table.fill 256 0
  cbits := Table.fill 256 0
  fault := 0
  finfo := 0
  phase := .count
  inputs := []
  trace := []

end Sys2Proof.Machine
end

