-- ==== Sys2Proof/Machine/Flags.lean ====
section
/-! DEFINITION. The derived status bits (spec/10_state.md R33: "functions of the state above, not state of their own")
and the fault line (60_exceptions.md R270). The HCE has no condition codes and no flag that a result sets. -/

namespace Sys2Proof.Machine

/-- Halted: FAULT is not 0 (10_state.md R31, 60_exceptions.md R268). -/
def State.halted (s : State) : Bool := s.fault != 0

/-- FAULTED (R33). -/
def State.faulted (s : State) : Bool := s.fault != 0

/-- PHASE is P_TREE or P_READY: the tree is final (R32). -/
def Phase.treeFinal : Phase → Bool
  | .count => false
  | .forest => false
  | .tree => true
  | .ready => true

/-- NOTREE: the tree is final and absent (R33). -/
def State.noTree (s : State) : Bool := s.phase.treeFinal && s.root == Config.nil

/-- NODE[ROOT].LEAF = 1, where ROOT names a record. -/
def State.rootIsLeaf (s : State) : Bool :=
  match s.node.get? s.root.toNat with
  | some n => n.leaf
  | none => false

/-- SINGLE: the tree is a bare leaf (R33). -/
def State.single (s : State) : Bool := s.root != Config.nil && s.rootIsLeaf

/-- The level of the `fault` output (60_exceptions.md R270). -/
def State.faultLine (s : State) : Bool := s.faulted

end Sys2Proof.Machine
end

