-- ==== Sys2Proof/Syntax.lean ====
section
/-! DEFINITION. The commands of the HCE: one constructor per row of spec/opcode_table.json (30_encoding.md R93). -/

namespace Sys2Proof

/-- A command with its operands (R91, R92). Every operand is an immediate field of its full width. -/
inductive Instr where
  /-- NOP (40_control_frequency.md R131). -/
  | nop
  /-- CLR (R132). -/
  | clr
  /-- SYM s (R133). -/
  | sym (s : Sym)
  /-- LDF s, d (R134). -/
  | ldf (s : Sym) (d : Freq)
  /-- FOREST (41_tree_build.md R150). -/
  | forest
  /-- MERGE (R153). -/
  | merge
  /-- TREE (R154). -/
  | tree
  /-- DERIVE (42_code_table.md R181). -/
  | derive
  /-- ENC s (43_encoder.md R195). -/
  | enc (s : Sym)
  /-- ENCEND (R196). -/
  | encend
  /-- DEC b (44_decoder.md R210). -/
  | dec (b : BitVec 1)
  /-- DECEND (R211). -/
  | decend
  /-- RD a (45_readout.md R230). -/
  | rd (a : TblAddr)
deriving DecidableEq, Repr

end Sys2Proof
end

