-- ==== Sys2Proof/Decode.lean ====
section
/-! DEFINITION. The command word: its fields, the decoder, the encoder and the opcode map (spec/30_encoding.md R90 to
R94, R108, R109). -/

namespace Sys2Proof

/-- OP = w[63:56] (R90). -/
def CmdWord.op (w : CmdWord) : BitVec 8 := w.extractLsb' 56 8

/-- RSV = w[55:48] (R90). -/
def CmdWord.rsv (w : CmdWord) : BitVec 8 := w.extractLsb' 48 8

/-- A = w[47:32] (R90). -/
def CmdWord.a (w : CmdWord) : BitVec 16 := w.extractLsb' 32 16

/-- D = w[31:0] (R90). -/
def CmdWord.d (w : CmdWord) : BitVec 32 := w.extractLsb' 0 32

/-- w[63:32]: OP, RSV and A, the info word of E_ILLEGAL (60_exceptions.md R261). -/
def CmdWord.upper (w : CmdWord) : TblWord := w.extractLsb' 32 32

/-- Why a word matches no row of the opcode map: the three kinds of R94. -/
inductive IllegalWord where
  /-- RSV is not 0. -/
  | reservedSet
  /-- OP is not one of the thirteen values. -/
  | unassignedOpcode
  /-- An operand bit that the format does not use is 1. -/
  | unusedOperandBit
deriving DecidableEq, Repr

/-- Format N: A = 0 and D = 0 (R91, R109 `fmtN`). -/
def fmtN (c : Instr) (a : BitVec 16) (d : BitVec 32) : Except IllegalWord Instr :=
  if a = 0 ∧ d = 0 then .ok c else .error .unusedOperandBit

/-- Format S: s = A[7:0], A[15:8] = 0 and D = 0 (R91, R109 `fmtS`). -/
def fmtS (c : Sym → Instr) (a : BitVec 16) (d : BitVec 32) : Except IllegalWord Instr :=
  if a.extractLsb' 8 8 = 0 ∧ d = 0 then .ok (c (a.extractLsb' 0 8)) else .error .unusedOperandBit

/-- Format SD: s = A[7:0], d = D, A[15:8] = 0 (R91, R109 `fmtSD`). -/
def fmtSD (c : Sym → Freq → Instr) (a : BitVec 16) (d : BitVec 32) : Except IllegalWord Instr :=
  if a.extractLsb' 8 8 = 0 then .ok (c (a.extractLsb' 0 8) d) else .error .unusedOperandBit

/-- Format B: b = A[0], A[15:1] = 0 and D = 0 (R91, R109 `fmtB`). -/
def fmtB (c : BitVec 1 → Instr) (a : BitVec 16) (d : BitVec 32) : Except IllegalWord Instr :=
  if a.extractLsb' 1 15 = 0 ∧ d = 0 then .ok (c (a.extractLsb' 0 1)) else .error .unusedOperandBit

/-- Format A: a = A, D = 0 (R91, R109 `fmtA`). -/
def fmtA (c : TblAddr → Instr) (a : BitVec 16) (d : BitVec 32) : Except IllegalWord Instr :=
  if d = 0 then .ok (c a) else .error .unusedOperandBit

/-- The decoder, total on all 2^64 words and independent of any state (R96, R109). -/
def decode (w : CmdWord) : Except IllegalWord Instr :=
  if w.rsv ≠ 0 then .error .reservedSet
  else
    match w.op.toNat with
    | 0x00 => fmtN .nop w.a w.d
    | 0x01 => fmtN .clr w.a w.d
    | 0x02 => fmtS .sym w.a w.d
    | 0x03 => fmtSD .ldf w.a w.d
    | 0x10 => fmtN .forest w.a w.d
    | 0x11 => fmtN .merge w.a w.d
    | 0x12 => fmtN .tree w.a w.d
    | 0x20 => fmtN .derive w.a w.d
    | 0x30 => fmtS .enc w.a w.d
    | 0x31 => fmtN .encend w.a w.d
    | 0x40 => fmtB .dec w.a w.d
    | 0x41 => fmtN .decend w.a w.d
    | 0x50 => fmtA .rd w.a w.d
    | _ => .error .unassignedOpcode

/-- The OP of a command (R93). -/
def Instr.opcode : Instr → BitVec 8
  | .nop => 0x00
  | .clr => 0x01
  | .sym _ => 0x02
  | .ldf _ _ => 0x03
  | .forest => 0x10
  | .merge => 0x11
  | .tree => 0x12
  | .derive => 0x20
  | .enc _ => 0x30
  | .encend => 0x31
  | .dec _ => 0x40
  | .decend => 0x41
  | .rd _ => 0x50

/-- Operand field A of a command: zext_16(s), zext_16(b), a or 0 (R91, R108). -/
def Instr.fieldA : Instr → BitVec 16
  | .nop => 0
  | .clr => 0
  | .sym s => s.setWidth 16
  | .ldf s _ => s.setWidth 16
  | .forest => 0
  | .merge => 0
  | .tree => 0
  | .derive => 0
  | .enc s => s.setWidth 16
  | .encend => 0
  | .dec b => b.setWidth 16
  | .decend => 0
  | .rd a => a

/-- Operand field D of a command: d or 0 (R91, R108). -/
def Instr.fieldD : Instr → BitVec 32
  | .nop => 0
  | .clr => 0
  | .sym _ => 0
  | .ldf _ d => d
  | .forest => 0
  | .merge => 0
  | .tree => 0
  | .derive => 0
  | .enc _ => 0
  | .encend => 0
  | .dec _ => 0
  | .decend => 0
  | .rd _ => 0

/-- The word with the given fields and RSV = 0: (OP << 56) | (A << 32) | D (R108). -/
def packWord (op : BitVec 8) (a : BitVec 16) (d : BitVec 32) : CmdWord :=
  (op.setWidth 64 <<< 56) ||| (a.setWidth 64 <<< 32) ||| d.setWidth 64

/-- The encoding function `enc` (R108). -/
def encode (i : Instr) : CmdWord := packWord i.opcode i.fieldA i.fieldD

/-- One row of the opcode map: `w` is the command of the row exactly when `w & mask = pattern` (R93; the spec calls
the second value `match`). -/
structure OpcodeRow where
  mnemonic : String
  pattern : BitVec 64
  mask : BitVec 64
deriving DecidableEq, Repr

/-- The word satisfies the row (R93). -/
def OpcodeRow.matches (r : OpcodeRow) (w : CmdWord) : Bool := w &&& r.mask == r.pattern

/-- The thirteen rows of spec/opcode_table.json, in its order (R93). -/
def opcodeRows : List OpcodeRow := [
  { mnemonic := "NOP", pattern := 0x0000000000000000, mask := 0xFFFFFFFFFFFFFFFF },
  { mnemonic := "CLR", pattern := 0x0100000000000000, mask := 0xFFFFFFFFFFFFFFFF },
  { mnemonic := "SYM", pattern := 0x0200000000000000, mask := 0xFFFFFF00FFFFFFFF },
  { mnemonic := "LDF", pattern := 0x0300000000000000, mask := 0xFFFFFF0000000000 },
  { mnemonic := "FOREST", pattern := 0x1000000000000000, mask := 0xFFFFFFFFFFFFFFFF },
  { mnemonic := "MERGE", pattern := 0x1100000000000000, mask := 0xFFFFFFFFFFFFFFFF },
  { mnemonic := "TREE", pattern := 0x1200000000000000, mask := 0xFFFFFFFFFFFFFFFF },
  { mnemonic := "DERIVE", pattern := 0x2000000000000000, mask := 0xFFFFFFFFFFFFFFFF },
  { mnemonic := "ENC", pattern := 0x3000000000000000, mask := 0xFFFFFF00FFFFFFFF },
  { mnemonic := "ENCEND", pattern := 0x3100000000000000, mask := 0xFFFFFFFFFFFFFFFF },
  { mnemonic := "DEC", pattern := 0x4000000000000000, mask := 0xFFFFFFFEFFFFFFFF },
  { mnemonic := "DECEND", pattern := 0x4100000000000000, mask := 0xFFFFFFFFFFFFFFFF },
  { mnemonic := "RD", pattern := 0x5000000000000000, mask := 0xFFFF0000FFFFFFFF } ]

/-- The mnemonic of a command (R93). -/
def Instr.mnemonic : Instr → String
  | .nop => "NOP"
  | .clr => "CLR"
  | .sym _ => "SYM"
  | .ldf _ _ => "LDF"
  | .forest => "FOREST"
  | .merge => "MERGE"
  | .tree => "TREE"
  | .derive => "DERIVE"
  | .enc _ => "ENC"
  | .encend => "ENCEND"
  | .dec _ => "DEC"
  | .decend => "DECEND"
  | .rd _ => "RD"

/-- The decoder on a word given as a number, for the host's probe of the opcode table. Every command is ONE word of
64 bits (R90, R96) and the HCE has no bytes (20_memory.md R60, R80), so the number is the word; a number of more than
64 bits is no command word. -/
def decodeTableWord (_nbits w : Nat) : Option Instr :=
  if w < 2 ^ 64 then
    match decode (BitVec.ofNat 64 w) with
    | .ok i => some i
    | .error _ => none
  else none

end Sys2Proof
end

