-- ==== Sys2Proof/Machine/Operands.lean ====
section
/-! DEFINITION. The operand forms as the commands use them: every operand is an immediate, zero-extended where a wider
value is needed (spec/30_encoding.md R92, 60_exceptions.md R260 to R267). There is no register operand, base, index,
displacement or side effect (45_readout.md R230). -/

namespace Sys2Proof.Machine

/-- zext_32(s): the info word of E_FREQOVF and E_NOSYM (R263, R264). -/
def symInfo (x : Sym) : TblWord := x.setWidth 32

/-- zext_32(b): the info word of E_MALFORMED (R266). -/
def bitInfo (b : BitVec 1) : TblWord := b.setWidth 32

/-- zext_32(a): the info word of E_BADADDR (R267). -/
def addrInfo (a : TblAddr) : TblWord := a.setWidth 32

/-- zext_32(OP): the info word of E_SEQ (R262). -/
def opInfo (i : Instr) : TblWord := i.opcode.setWidth 32

/-- zext_40(FREQ[s]): the count of a new leaf (41_tree_build.md R150). -/
def freqCount (f : Freq) : Cnt := f.setWidth 40

end Sys2Proof.Machine
end

