-- ==== Sys2Proof/Machine/Ops.lean ====
section
/-! DEFINITION. The shared operations: access to the tables, the priority structure, the answer of a command, the
fault entry and the return from the halted condition, the halted and phase checks. -/

namespace Sys2Proof.Machine

/-! ## The tables -/

/-- FREQ[x] (spec/10_state.md R21). -/
def State.freqAt (s : State) (x : Sym) : Freq := s.freq.get x.toNat x.isLt

/-- FREQ[x] <- f. -/
def State.setFreq (s : State) (x : Sym) (f : Freq) : State := { s with freq := s.freq.set x.toNat f }

/-- CLEN[x] (R29). -/
def State.clenAt (s : State) (x : Sym) : CodeLen := s.clen.get x.toNat x.isLt

/-- CBITS[x] (R30). -/
def State.cbitsAt (s : State) (x : Sym) : CodeBits := s.cbits.get x.toNat x.isLt

/-- CLEN[x] <- n and CBITS[x] <- v. -/
def State.setCode (s : State) (x : Sym) (n : CodeLen) (v : CodeBits) : State :=
  { s with clen := s.clen.set x.toNat n, cbits := s.cbits.set x.toNat v }

/-- NODE[i]; `none` for NIL, which names no record (R22). -/
def State.nodeAt (s : State) (i : Idx) : Option Node := s.node.get? i.toNat

/-- NODE[i] <- n. -/
def State.setNode (s : State) (i : Idx) (n : Node) : State := { s with node := s.node.set i.toNat n }

/-- NODE[i].PARENT <- k. -/
def State.setParent (s : State) (i k : Idx) : State :=
  match s.nodeAt i with
  | some n => s.setNode i { n with parent := k }
  | none => s

/-- INQ[i] <- q (R25). -/
def State.setInq (s : State) (i : Idx) (q : Bool) : State := { s with inq := s.inq.set i.toNat q }

/-! ## The priority structure -/

/-- key(i) = (NODE[i].CNT, i) (R26). -/
abbrev Key := Cnt × Idx

/-- The order of keys: lexicographic, count first, both unsigned (R26). -/
abbrev Key.Lt (a b : Key) : Prop := a.1 < b.1 ∨ a.1 = b.1 ∧ a.2 < b.2

/-- The keys of the members of the priority structure, { i | INQ[i] = 1 }, by ascending index (R25, R26). -/
def State.keys (s : State) : List Key :=
  ((s.inq.entries.zip s.node.entries).zipIdx.filter fun p => p.1.1).map
    fun p => (p.1.2.cnt, BitVec.ofNat 9 p.2)

/-- The least key of a list, if it has any. -/
def leastKey : List Key → Option Key
  | [] => none
  | k :: ks =>
    match leastKey ks with
    | none => some k
    | some m => if Key.Lt m k then some m else some k

/-- pqmin({ i | INQ[i] = 1 }): the member whose key is least, NIL if there is none (R26, R75). -/
def State.pqmin (s : State) : Idx :=
  match leastKey s.keys with
  | some k => k.2
  | none => Config.nil

/-! ## Answering a command -/

/-- What a command's own rule comes to (40_control_frequency.md R130). -/
inductive Reply where
  /-- It completes: the new tables, its data beats in order, the DATA of its response. -/
  | done (s : State) (beats : List Event) (data : TblWord)
  /-- It raises a fault with an info word. -/
  | raise (c : Cause) (info : TblWord)

/-- The outcome of a step. -/
abbrev Outcome := Host.Outcome State Fault Refusal

/-- code(E), the ST field of the response and the value of FAULT (60_exceptions.md R260). -/
def Cause.code : Cause → BitVec 8
  | .illegal => 0x01
  | .seq => 0x02
  | .freqOvf => 0x03
  | .noSym => 0x04
  | .malformed => 0x05
  | .badAddr => 0x06

/-- The events appended to the output trace (00_scope.md R9: the concatenation of the event lists of the steps). -/
def State.emit (s : State) (es : List Event) : State := { s with trace := s.trace ++ es }

/-- Fault entry, `raise E(info)` (R265): the first fault of the run is latched, the response carries the code and info
of THIS fault, and nothing else changes. It is the HCE's taking of an exception: there is no handler and no saved
address. -/
def State.raise (s : State) (c : Cause) (info : TblWord) : State :=
  let latched := if s.fault = 0 then { s with fault := c.code, finfo := info } else s
  latched.emit [.rsp c.code info]

/-- The return from the halted condition, and the start of a run (R274, 40_control_frequency.md R132): every state
element at its reset value (10_state.md R40). The host's inputs and the beats already emitted are no state elements and
stay ("CLR does not retract beats already emitted"). -/
def State.cleared (s : State) : State := { State.reset with inputs := s.inputs, trace := s.trace }

/-- A refused command (R268): no state changes, no beat, RSP(0x07, 0). -/
def State.refuseHalted (s : State) : State := s.emit [.rsp Config.haltedCode 0]

/-- The end of a command's step: its beats, then its one response (30_encoding.md R100), or the fault entry from the
state the command started in (R265: faults are precise). -/
def State.answer (s : State) : Reply → Outcome
  | .done s' beats data => .next (s'.emit (beats ++ [.rsp Config.okCode data]))
  | .raise c info => .next (s.raise c info)

/-- The legality table R280: is the command legal in the phase? -/
def legalIn : Instr → Phase → Bool
  | .nop, _ => true
  | .clr, _ => true
  | .rd _, _ => true
  | .sym _, p => p == .count
  | .ldf _ _, p => p == .count
  | .forest, p => p == .count
  | .merge, p => p == .forest
  | .tree, p => p == .forest
  | .derive, p => p == .tree
  | .enc _, p => p == .ready
  | .encend, p => p == .ready
  | .dec _, p => p == .tree || p == .ready
  | .decend, p => p == .tree || p == .ready

/-- Table R280, last column: NOP, CLR and RD are performed while halted (R268). -/
def performedWhileHalted : Instr → Bool
  | .nop => true
  | .clr => true
  | .rd _ => true
  | .sym _ => false
  | .ldf _ _ => false
  | .forest => false
  | .merge => false
  | .tree => false
  | .derive => false
  | .enc _ => false
  | .encend => false
  | .dec _ => false
  | .decend => false

/-- Steps 2 to 5 of 00_scope.md R9 for a decoded command, in the order of R272: the halted check, the phase check,
the command's own rule, the response. -/
def State.perform (s : State) (i : Instr) (own : Reply) : Outcome :=
  if s.halted && !performedWhileHalted i then .next s.refuseHalted
  else if !legalIn i s.phase then .next (s.raise .seq (opInfo i))
  else s.answer own

end Sys2Proof.Machine
end

