-- ==== Sys2Proof/Machine/Tree.lean ====
section
/-! DEFINITION. Forest and tree construction: FOREST, MERGE, TREE (spec/41_tree_build.md R150 to R154). -/

namespace Sys2Proof.Machine

/-- The present symbols with their counts, in ascending order of symbol value (10_state.md R21, R150). -/
def State.present (s : State) : List (Sym × Freq) :=
  (s.freq.entries.zipIdx.filter fun p => decide (p.1 ≠ 0)).map fun p => (BitVec.ofNat 8 p.2, p.1)

/-- The leaf of a present symbol (R150). -/
def leafNode (x : Sym) (f : Freq) : Node :=
  { leaf := true, sym := x, cnt := freqCount f, left := Config.nil, right := Config.nil, parent := Config.nil }

/-- The loop of FOREST: one leaf for each present symbol, at indices `n`, `n + 1`, ..., each a member of the priority
structure (R150). -/
def placeLeaves : List (Sym × Freq) → Nat → State → State
  | [], _, s => s
  | (x, f) :: rest, n, s =>
    placeLeaves rest (n + 1) ((s.setNode (BitVec.ofNat 9 n) (leafNode x f)).setInq (BitVec.ofNat 9 n) true)

/-- The forest of singleton trees (R150). -/
def State.loadForest (s : State) : State :=
  let n := BitVec.ofNat 9 s.present.length
  { placeLeaves s.present 0 s with nnodes := n, ndist := n, pqlen := n, phase := .forest }

/-- FOREST (R150). -/
def execForest (s : State) : Outcome := s.perform .forest (.done s.loadForest [] 0)

/-- The new internal node of a merge: its count is the sum, its left child the tree removed first (R152). -/
def joinNode (c : Cnt) (t1 t2 : Idx) : Node :=
  { leaf := false, sym := 0, cnt := c, left := t1, right := t2, parent := Config.nil }

/-- "NODE[t1].CNT + NODE[t2].CNT", exact in 40 bits (R152, R157); free where there is no such sum (log 6, log 7). -/
def addCounts : Option Cnt → Option Cnt → Cnt
  | some a, some b => if a.toNat + b.toNat < Config.cntLimit then a + b else Config.freeSum (some a) (some b)
  | a, b => Config.freeSum a b

/-- "NNODES <- k + 1" (R152); free where every record is allocated (log 7). -/
def nextNode (k : BitVec 9) : BitVec 9 := if k = Config.nil then Config.freeNext k else k + 1

/-- The writes of a merge of the trees `t1` and `t2`, both already removed, into record `k` = NNODES (R152). A write to
an index that names no record writes nothing. -/
def State.join (s : State) (t1 t2 : Idx) (c : Cnt) : State :=
  let k := s.nnodes
  let s1 := (((s.setNode k (joinNode c t1 t2)).setParent t1 k).setParent t2 k).setInq k true
  { s1 with nnodes := nextNode k, pqlen := s.pqlen - 1 }

/-- The first part of `mstep`, for PQLEN ≥ 2: remove the two least trees one after the other and reinsert their
parent (R151, R152). -/
def State.mergeTwo (s : State) : State :=
  let t1 := s.pqmin
  let s1 := s.setInq t1 false
  let t2 := s1.pqmin
  (s1.setInq t2 false).join t1 t2 (addCounts ((s.nodeAt t1).map Node.cnt) ((s.nodeAt t2).map Node.cnt))

/-- The finalisation: the last tree, or NIL, leaves the priority structure and becomes ROOT and CUR (R152). -/
def State.finalise (s : State) : State :=
  let r := s.pqmin
  { s.setInq r false with pqlen := 0, root := r, cur := r, phase := .tree }

/-- The finalisation where PQLEN ≤ 1, "tested on the PQLEN that results from the part above" (R152). -/
def State.finaliseIfDone (s : State) : State := if s.pqlen.toNat ≤ 1 then s.finalise else s

/-- One merge step (R152). -/
def State.mstep (s : State) : State :=
  if 2 ≤ s.pqlen.toNat then s.mergeTwo.finaliseIfDone else s.finaliseIfDone

/-- "repeat mstep until PHASE = P_TREE", for at most the given number of steps (R154). 511 are enough from every
state: a step that does not finalise lowers the 9-bit PQLEN (R158). -/
def mergeLoop : Nat → State → State
  | 0, s => s
  | fuel + 1, s => if s.mstep.phase = .tree then s.mstep else mergeLoop fuel s.mstep

/-- MERGE: one merge step (R153). -/
def execMerge (s : State) : Outcome := s.perform .merge (.done s.mstep [] 0)

/-- TREE: the merge loop to completion (R154). -/
def execTree (s : State) : Outcome := s.perform .tree (.done (mergeLoop Config.nodeMax s) [] 0)

end Sys2Proof.Machine
end

