-- ==== Sys2Proof/Machine/CodeTable.lean ====
section
/-! DEFINITION. Code-table derivation: DERIVE (spec/42_code_table.md R180 to R184). -/

namespace Sys2Proof.Machine

/-- The bit-strings of fewer than so many bits that lead from node `k` down to node `i`: "descending to a left child
appends "0", to a right child appends "1"" (R180). -/
def State.pathsFrom (s : State) : Nat → Idx → Idx → List Code
  | 0, _, _ => []
  | fuel + 1, k, i =>
    (if k = i then [[]] else []) ++
      match s.nodeAt k with
      | none => []
      | some n =>
        if n.leaf then []
        else (s.pathsFrom fuel n.left i).map (false :: ·) ++ (s.pathsFrom fuel n.right i).map (true :: ·)

/-- path(i): the bit-string of a node that "is reached exactly once from ROOT" (R180). A node that is reached through a
loop of edges is reached twice by fewer than 2 · 511 bits (log 9). -/
def State.path (s : State) (i : Idx) : Option Code :=
  match s.pathsFrom (2 * Config.nodeMax) s.root i with
  | [c] => some c
  | _ => none

/-- code(i): the one-bit code "0" for a root that is a leaf, else path(i) (R181, R182). -/
def State.codeOf (s : State) (i : Idx) : Option Code :=
  if s.rootIsLeaf then (if i = s.root then some [false] else none) else s.path i

/-- CLEN of a code: |code|, which R184 bounds by MAXLEN; free above it (log 8). -/
def codeLength (c : Code) : CodeLen :=
  if c.length ≤ Config.maxLen then BitVec.ofNat 8 c.length else Config.freeLength c.length

/-- CBITS of a code: V[k] = code[k] for k < |code|, 0 otherwise (R181). -/
def codeVector (c : Code) : CodeBits := (BitVec.ofBoolListLE c).setWidth 255

/-- The entry of leaf `i` in the code table (R181). Its code is free where the tree gives it none (log 8). -/
def State.recordCode (s : State) (i : Idx) : State :=
  match s.nodeAt i with
  | some n =>
    let c := (s.codeOf i).getD (Config.freeCode s.root i)
    s.setCode n.sym (codeLength c) (codeVector c)
  | none => s

/-- The loop of DERIVE over `m` leaves from index `i` on (R181). -/
def recordCodes : Nat → Nat → State → State
  | 0, _, s => s
  | m + 1, i, s => recordCodes m (i + 1) (s.recordCode (BitVec.ofNat 9 i))

/-- DERIVE's own rule: the code table of a present tree, none for an absent one; PHASE <- P_READY (R181, R183). -/
def State.deriveCodes (s : State) : State :=
  { (if s.root = Config.nil then s else recordCodes s.ndist.toNat 0 s) with phase := .ready }

/-- DERIVE (R181). -/
def execDerive (s : State) : Outcome := s.perform .derive (.done s.deriveCodes [] 0)

end Sys2Proof.Machine
end

