-- ==== Sys2Proof/Machine/Control.lean ====
section
/-! DEFINITION. Run control and the frequency table: NOP, CLR, SYM, LDF (spec/40_control_frequency.md R131 to R134). -/

namespace Sys2Proof.Machine

/-- NOP: nothing (R131). -/
def execNop (s : State) : Outcome := s.perform .nop (.done s [] 0)

/-- CLR: every state element to its reset value (R132). -/
def execClr (s : State) : Outcome := s.perform .clr (.done s.cleared [] 0)

/-- SYM's own rule: E_FREQOVF on a full counter, else one more occurrence (R133). -/
def symReply (x : Sym) (s : State) : Reply :=
  if s.freqAt x = Config.freqMax then .raise .freqOvf (symInfo x)
  else .done (s.setFreq x (s.freqAt x + 1)) [] 0

/-- SYM s (R133). -/
def execSym (x : Sym) (s : State) : Outcome := s.perform (.sym x) (symReply x s)

/-- LDF s, d: FREQ[s] <- d (R134). -/
def execLdf (x : Sym) (d : Freq) (s : State) : Outcome := s.perform (.ldf x d) (.done (s.setFreq x d) [] 0)

end Sys2Proof.Machine
end

