-- ==== Sys2Proof/Machine/Decoder.lean ====
section
/-! DEFINITION. The bitstream decoder: DEC, DECEND (spec/44_decoder.md R210 to R216). -/

namespace Sys2Proof.Machine

/-- The child that a bit selects: 1 right, 0 left (R210). -/
def Node.child (n : Node) (b : BitVec 1) : Idx := if b = 1 then n.right else n.left

/-- "NODE[CUR].RIGHT" or "NODE[CUR].LEFT" (R210); free where CUR is NIL (log 6). -/
def State.curChild (s : State) (b : BitVec 1) : Idx :=
  match s.nodeAt s.cur with
  | some n => n.child b
  | none => Config.freeChild b

/-- The walk of one bit from CUR, in a tree whose root is internal (R210). An absent child is E_MALFORMED (R216). -/
def walkReply (b : BitVec 1) (s : State) : Reply :=
  match s.nodeAt (s.curChild b) with
  | none => .raise .malformed (bitInfo b)
  | some c =>
    if c.leaf then .done { s with cur := s.root } [.symb c.sym] 0
    else .done { s with cur := s.curChild b } [] 0

/-- DEC's own rule (R210): the absent tree (R213), the leaf root, which does not examine the bit (R212), the walk. -/
def decReply (b : BitVec 1) (s : State) : Reply :=
  match s.nodeAt s.root with
  | none => .raise .malformed (bitInfo b)
  | some r => if r.leaf then .done s [.symb r.sym] 0 else walkReply b s

/-- DEC b (R210). -/
def execDec (b : BitVec 1) (s : State) : Outcome := s.perform (.dec b) (decReply b s)

/-- DECEND: the partial walk is dropped, the end-of-stream beat of the symbol sink (R211). -/
def execDecend (s : State) : Outcome := s.perform .decend (.done { s with cur := s.root } [.symeos] 0)

end Sys2Proof.Machine
end

