-- ==== Sys2Proof/Machine/Encoder.lean ====
section
/-! DEFINITION. The bitstream encoder: ENC, ENCEND (spec/43_encoder.md R195, R196). -/

namespace Sys2Proof.Machine

/-- code(x) as the code table holds it: CBITS[x][0], ..., CBITS[x][CLEN[x] - 1] (10_state.md R30, R197). -/
def State.codeBits (s : State) (x : Sym) : Code :=
  (List.range (s.clenAt x).toNat).map fun k => (s.cbitsAt x).getLsbD k

/-- ENC's own rule: E_NOSYM without an entry, else the bits of the code, first bit first (R195). -/
def encReply (x : Sym) (s : State) : Reply :=
  if s.clenAt x = 0 then .raise .noSym (symInfo x) else .done s ((s.codeBits x).map .bit) 0

/-- ENC s (R195). -/
def execEnc (x : Sym) (s : State) : Outcome := s.perform (.enc x) (encReply x s)

/-- ENCEND: the end-of-stream beat of the bit sink (R196). -/
def execEncend (s : State) : Outcome := s.perform .encend (.done s [.biteos] 0)

end Sys2Proof.Machine
end

