-- ==== Sys2Proof/Machine/TableSpace.lean ====
section
/-! DEFINITION. Table space: the read-only, word-addressed address space of spec/20_memory.md R60 to R76. Every word is
computed from the state at the moment of the read (R61); no read has a side effect (R77). -/

namespace Sys2Proof.Machine

/-- CLEN region: zext_32(CLEN[x]) (R63). -/
def clenWord (n : CodeLen) : TblWord := n.setWidth 32

/-- CBITS region: V[32*k + 31 : 32*k] with V = zext_256(CBITS[x]) (R64). -/
def cbitsWord (v : CodeBits) (k : Nat) : TblWord := (v.setWidth 256).extractLsb' (32 * k) 32

/-- NODE region, word 0: CNT[31:0] (R65). -/
def nodeWord0 (n : Node) : TblWord := n.cnt.extractLsb' 0 32

/-- NODE region, word 1: [31:19] 0, [18] ALLOC, [17] INQ, [16] LEAF, [15:8] SYM, [7:0] CNT[39:32] (R65). -/
def nodeWord1 (n : Node) (inq alloc : Bool) : TblWord :=
  (0#13 ++ BitVec.ofBool alloc ++ BitVec.ofBool inq ++ BitVec.ofBool n.leaf ++ n.sym ++ n.cnt.extractLsb' 32 8).setWidth 32

/-- NODE region, word 2: [31:25] 0, [24:16] RIGHT, [15:9] 0, [8:0] LEFT (R65). -/
def nodeWord2 (n : Node) : TblWord := (0#7 ++ n.right ++ 0#7 ++ n.left).setWidth 32

/-- NODE region, word 3: [31:9] 0, [8:0] PARENT (R65). -/
def nodeWord3 (n : Node) : TblWord := n.parent.setWidth 32

/-- ALLOC of record `i`: i < NNODES (R65, 10_state.md R23). -/
def State.allocated (s : State) (i : Nat) : Bool := decide (i < s.nnodes.toNat)

/-- Word `f` of record `i` (R65); `none` where there is no such record. -/
def State.nodeWord (s : State) (i f : Nat) : Option TblWord :=
  match s.node.get? i, s.inq.get? i with
  | some n, some q =>
    if f = 0 then some (nodeWord0 n)
    else if f = 1 then some (nodeWord1 n q (s.allocated i))
    else if f = 2 then some (nodeWord2 n)
    else if f = 3 then some (nodeWord3 n)
    else none
  | _, _ => none

/-- STATUS: [4] SINGLE, [3] NOTREE, [2] FAULTED, [1:0] PHASE (R67). -/
def State.statusWord (s : State) : TblWord :=
  (BitVec.ofBool s.single ++ BitVec.ofBool s.noTree ++ BitVec.ofBool s.faulted ++ s.phase.code).setWidth 32

/-- The nine status registers, at 0x2000 to 0x2008 (R66 to R75). -/
def State.statusReg (s : State) (n : Nat) : Option TblWord :=
  if n = 0x2000 then some s.statusWord
  else if n = 0x2001 then some (s.fault.setWidth 32)
  else if n = 0x2002 then some s.finfo
  else if n = 0x2003 then some (s.ndist.setWidth 32)
  else if n = 0x2004 then some (s.nnodes.setWidth 32)
  else if n = 0x2005 then some (s.root.setWidth 32)
  else if n = 0x2006 then some (s.pqlen.setWidth 32)
  else if n = 0x2007 then some (s.cur.setWidth 32)
  else if n = 0x2008 then some (s.pqmin.setWidth 32)
  else none

/-- TblRead(a) (R61); `none` for an unmapped address (R76). -/
def State.tblRead (s : State) (a : TblAddr) : Option TblWord :=
  let n := a.toNat
  if n < 0x0100 then s.freq.get? n
  else if n < 0x0200 then (s.clen.get? (n - 0x0100)).map clenWord
  else if n < 0x0800 then none
  else if n < 0x1000 then (s.cbits.get? ((n - 0x0800) / 8)).map fun v => cbitsWord v ((n - 0x0800) % 8)
  else if n < 0x17FC then s.nodeWord ((n - 0x1000) / 4) ((n - 0x1000) % 4)
  else if n < 0x2000 then none
  else s.statusReg n

end Sys2Proof.Machine
end

