-- ==== Sys2Proof/Machine/Readout.lean ====
section
/-! DEFINITION. Table readout: RD (spec/45_readout.md R230). -/

namespace Sys2Proof.Machine

/-- RD's own rule: E_BADADDR for an unmapped address, else the word (R230, 20_memory.md R76). -/
def rdReply (a : TblAddr) (s : State) : Reply :=
  match s.tblRead a with
  | some v => .done s [] v
  | none => .raise .badAddr (addrInfo a)

/-- RD a (R230). -/
def execRd (a : TblAddr) (s : State) : Outcome := s.perform (.rd a) (rdReply a s)

end Sys2Proof.Machine
end

