-- ==== Sys2Proof/Machine/Dispatch.lean ====
section
/-! DEFINITION. One arm per command: steps 2 to 5 of spec/00_scope.md R9 for a decoded command. -/

namespace Sys2Proof.Machine

def exec (i : Instr) (s : State) : Host.Outcome State Fault Refusal :=
  match i with
  | .nop => Sys2Proof.Machine.execNop s
  | .clr => Sys2Proof.Machine.execClr s
  | .sym x => Sys2Proof.Machine.execSym x s
  | .ldf x d => Sys2Proof.Machine.execLdf x d s
  | .forest => Sys2Proof.Machine.execForest s
  | .merge => Sys2Proof.Machine.execMerge s
  | .tree => Sys2Proof.Machine.execTree s
  | .derive => Sys2Proof.Machine.execDerive s
  | .enc x => Sys2Proof.Machine.execEnc x s
  | .encend => Sys2Proof.Machine.execEncend s
  | .dec b => Sys2Proof.Machine.execDec b s
  | .decend => Sys2Proof.Machine.execDecend s
  | .rd a => Sys2Proof.Machine.execRd a s

end Sys2Proof.Machine
end

