-- ==== Sys2Proof/Machine/Inputs.lean ====
section
/-! DEFINITION. What the host does to the HCE: presents a command word (spec/00_scope.md R9), asserts reset between two
commands or in the middle of one (70_reset_and_hazards.md R300 to R302). -/

namespace Sys2Proof.Machine

/-- One command word, with nothing else waiting: decode it; an illegal word raises E_ILLEGAL with info word[63:32]
before any other check, and a command is executed (00_scope.md R9, 60_exceptions.md R261, R272). -/
def takeWord (w : CmdWord) (s : State) : Outcome :=
  match decode w with
  | .ok i => exec i s
  | .error _ => .next (s.raise .illegal w.upper)

/-- Reset (70_reset_and_hazards.md R301, R302): the same state as after CLR, and no beat of any kind. -/
def takeReset (s : State) : State := s.cleared

/-- The event is a data beat, not a response. -/
def Event.isBeat : Event → Bool
  | .bit _ => true
  | .biteos => true
  | .symb _ => true
  | .symeos => true
  | .rsp _ _ => false

/-- The data beats of the step from `s` to `t`, in order. -/
def beatsSince (s t : State) : List Event := (t.trace.drop s.trace.length).filter Event.isBeat

/-- Reset in the middle of a command: "no defined partial effect other than the beats already transferred", the first
`n` of the command's beats, "and produces no response" (R300, 93_implementation_defined.md U14). -/
def takeCut (w : CmdWord) (n : Nat) (s : State) : Outcome :=
  match takeWord w s with
  | .next t => .next (takeReset (s.emit ((beatsSince s t).take n)))
  | .fault f => .fault f
  | .refused r => .refused r

/-- One input of the host, with nothing else waiting. -/
def takeInput (h : HostInput) (s : State) : Outcome :=
  match h with
  | .command w => takeWord w s
  | .reset => .next (takeReset s)
  | .resetDuring w n => takeCut w n s

/-- The input that the next step takes: the oldest, with the state that has the rest waiting. -/
def fetchInput (s : State) : Option (HostInput × State) :=
  match s.inputs with
  | [] => none
  | h :: rest => some (h, { s with inputs := rest })

/-- The state in which the host presents the given word next, before whatever else waits. -/
def presentWord (w : CmdWord) (s : State) : State := { s with inputs := .command w :: s.inputs }

end Sys2Proof.Machine
end

