-- ==== Sys2Proof/Machine/Step.lean ====
section
/-! DEFINITION. The step: one input of the host (spec/00_scope.md R9). With none waiting the HCE idles "with its state
unchanged" (60_exceptions.md R284). -/

namespace Sys2Proof.Machine

/-- One step. -/
def step (s : State) : Host.Outcome State Fault Refusal :=
  match fetchInput s with
  | none => .next s
  | some (h, s') => takeInput h s'

/-- The state whose next step runs the given table word: the HCE fetches nothing (10_state.md R35); its next command
is the one the host presents next. A command is one word of 64 bits (30_encoding.md R90). -/
def State.withFetchWord (s : State) (_nbits w : Nat) : State := presentWord (BitVec.ofNat 64 w) s

end Sys2Proof.Machine
end

