-- ==== Sys2Proof/WellFormed.lean ====
section
/-! DEFINITION. Well-formedness. An `Instr` is well formed by its type: each operand is a bit vector of exactly the
width 30_encoding.md R92 gives it, so there is no ill-formed `Instr`. What CAN be ill formed is a command as a person
writes it, with numbers for operands: R103, "An operand outside its range cannot be assembled." `AsmLine` is one line
of assembler source with its operands as plain numbers, and `AsmLine.wellFormed` is that check, one per operand. -/

namespace Sys2Proof

/-- One line of assembler source (30_encoding.md R103), the pseudo-instructions of R104 to R107 among them. Operands
are unbounded numbers, a quoted text is the list of its character codes, a text of bits the list of its digits. -/
inductive AsmLine where
  | nop
  | clr
  | sym (s : Nat)
  | ldf (s d : Nat)
  | forest
  | merge
  | tree
  | derive
  | enc (s : Nat)
  | encend
  | dec (b : Nat)
  | decend
  | rd (a : Nat)
  | build
  | count (text : List Nat)
  | encs (text : List Nat)
  | decb (bits : List Nat)
deriving DecidableEq, Repr

/-- A symbol operand is a number 0 to 255 (R103). -/
def symInRange (s : Nat) : Bool := decide (s ≤ 255)

/-- A bit operand is 0 or 1 (R103). -/
def bitInRange (b : Nat) : Bool := decide (b ≤ 1)

/-- An address operand is a number 0 to 0xFFFF (R103). -/
def addrInRange (a : Nat) : Bool := decide (a ≤ 0xFFFF)

/-- A count operand is a number 0 to 0xFFFFFFFF (R103). -/
def countInRange (d : Nat) : Bool := decide (d ≤ 0xFFFFFFFF)

/-- A quoted text is of ASCII characters (R105, R106). -/
def asciiInRange (c : Nat) : Bool := decide (c ≤ 127)

/-- Every operand of the line is inside its range (R103 to R107). -/
def AsmLine.wellFormed : AsmLine → Bool
  | .nop => true
  | .clr => true
  | .sym s => symInRange s
  | .ldf s d => symInRange s && countInRange d
  | .forest => true
  | .merge => true
  | .tree => true
  | .derive => true
  | .enc s => symInRange s
  | .encend => true
  | .dec b => bitInRange b
  | .decend => true
  | .rd a => addrInRange a
  | .build => true
  | .count text => text.all asciiInRange
  | .encs text => text.all asciiInRange
  | .decb bits => bits.all bitInRange

end Sys2Proof
end

