-- ==== Sys2Proof/Machine/Assembler.lean ====
section
/-! DEFINITION. The assembler (spec/30_encoding.md R103 to R108): one line of source text, as a list of characters, to
command words. Spacing and the reading of a quote before a `;` are log 15. -/

namespace Sys2Proof.Machine

/-- What a line of source is made of (R103). -/
inductive Token where
  /-- A mnemonic. -/
  | word (cs : List Char)
  /-- A number, decimal or hexadecimal with 0x. -/
  | number (n : Nat)
  /-- A character in single quotes, which stands for its ASCII code. -/
  | char (n : Nat)
  /-- A quoted text: its character codes. -/
  | text (ns : List Nat)
  /-- The comma between two operands. -/
  | comma
deriving DecidableEq, Repr

/-- A decimal digit. -/
def decDigit (c : Char) : Option Nat :=
  if 48 ≤ c.toNat ∧ c.toNat ≤ 57 then some (c.toNat - 48) else none

/-- A hexadecimal digit, of either case. -/
def hexDigit (c : Char) : Option Nat :=
  if 48 ≤ c.toNat ∧ c.toNat ≤ 57 then some (c.toNat - 48)
  else if 65 ≤ c.toNat ∧ c.toNat ≤ 70 then some (c.toNat - 55)
  else if 97 ≤ c.toNat ∧ c.toNat ≤ 102 then some (c.toNat - 87)
  else none

/-- The value of a string of digits in a base. -/
def digitsValue (digit : Char → Option Nat) (base : Nat) : List Char → Nat → Option Nat
  | [], acc => some acc
  | c :: cs, acc =>
    match digit c with
    | some v => digitsValue digit base cs (acc * base + v)
    | none => none

/-- A number, decimal or hexadecimal with 0x (R103). -/
def parseNumber : List Char → Option Nat
  | [] => none
  | '0' :: 'x' :: c :: cs => digitsValue hexDigit 16 (c :: cs) 0
  | c :: cs => digitsValue decDigit 10 (c :: cs) 0

/-- A run of characters is a number where it begins with a digit, else a mnemonic. -/
def runToken (cs : List Char) : Option Token :=
  match cs with
  | [] => none
  | c :: _ => if (decDigit c).isSome then (parseNumber cs).map .number else some (.word cs)

/-- Where the lexer stands in the line. -/
inductive LexMode where
  | between
  /-- Inside a run of characters. -/
  | run (acc : List Char)
  /-- After an opening single quote. -/
  | quote
  /-- After a single quote and a character. -/
  | quoted (c : Char)
  /-- Inside a text in double quotes. -/
  | text (acc : List Nat)

/-- A printable ASCII character (R103). -/
def printable (c : Char) : Bool := decide (32 ≤ c.toNat ∧ c.toNat ≤ 126)

/-- The tokens of a line; a `;` outside quotes starts a comment that runs to the end of the line (R103). -/
def lexLine : LexMode → List Char → Option (List Token)
  | .between, [] => some []
  | .run acc, [] => (runToken acc).map fun t => [t]
  | .quote, [] => none
  | .quoted _, [] => none
  | .text _, [] => none
  | .between, c :: cs =>
    if c.toNat = 32 ∨ c.toNat = 9 then lexLine .between cs
    else if c.toNat = 59 then some []
    else if c.toNat = 44 then (lexLine .between cs).map (Token.comma :: ·)
    else if c.toNat = 39 then lexLine .quote cs
    else if c.toNat = 34 then lexLine (.text []) cs
    else lexLine (.run [c]) cs
  | .run acc, c :: cs =>
    match runToken acc with
    | none => if c.toNat = 32 ∨ c.toNat = 9 ∨ c.toNat = 59 ∨ c.toNat = 44 then none else lexLine (.run (acc ++ [c])) cs
    | some t =>
      if c.toNat = 32 ∨ c.toNat = 9 then (lexLine .between cs).map (t :: ·)
      else if c.toNat = 59 then some [t]
      else if c.toNat = 44 then (lexLine .between cs).map fun ts => t :: Token.comma :: ts
      else lexLine (.run (acc ++ [c])) cs
  | .quote, c :: cs => if printable c then lexLine (.quoted c) cs else none
  | .quoted q, c :: cs => if c.toNat = 39 then (lexLine .between cs).map (Token.char q.toNat :: ·) else none
  | .text acc, c :: cs =>
    if c.toNat = 34 then (lexLine .between cs).map (Token.text acc :: ·) else lexLine (.text (acc ++ [c.toNat])) cs

/-- A symbol operand: a number or a quoted character (R103). -/
def symOperand : Token → Option Nat
  | .number n => some n
  | .char n => some n
  | .word _ => none
  | .text _ => none
  | .comma => none

/-- A character of a text of bits: `0` or `1` only (R107). -/
def bitDigit (c : Nat) : Option Nat := if c = 48 then some 0 else if c = 49 then some 1 else none

/-- The line that a list of tokens says: `MNEMONIC`, `MNEMONIC operand` or `MNEMONIC operand, operand` (R103 to R107).
`none` in the inner option is a line without a command. -/
def parseTokens : List Token → Option (Option AsmLine)
  | [] => some none
  | [.word ['N', 'O', 'P']] => some (some .nop)
  | [.word ['C', 'L', 'R']] => some (some .clr)
  | [.word ['S', 'Y', 'M'], x] => (symOperand x).map fun s => some (.sym s)
  | [.word ['L', 'D', 'F'], x, .comma, .number d] => (symOperand x).map fun s => some (.ldf s d)
  | [.word ['F', 'O', 'R', 'E', 'S', 'T']] => some (some .forest)
  | [.word ['M', 'E', 'R', 'G', 'E']] => some (some .merge)
  | [.word ['T', 'R', 'E', 'E']] => some (some .tree)
  | [.word ['D', 'E', 'R', 'I', 'V', 'E']] => some (some .derive)
  | [.word ['E', 'N', 'C'], x] => (symOperand x).map fun s => some (.enc s)
  | [.word ['E', 'N', 'C', 'E', 'N', 'D']] => some (some .encend)
  | [.word ['D', 'E', 'C'], .number b] => some (some (.dec b))
  | [.word ['D', 'E', 'C', 'E', 'N', 'D']] => some (some .decend)
  | [.word ['R', 'D'], .number a] => some (some (.rd a))
  | [.word ['B', 'U', 'I', 'L', 'D']] => some (some .build)
  | [.word ['C', 'O', 'U', 'N', 'T'], .text t] => some (some (.count t))
  | [.word ['E', 'N', 'C', 'S'], .text t] => some (some (.encs t))
  | [.word ['D', 'E', 'C', 'B'], .text t] => (t.mapM bitDigit).map fun bs => some (.decb bs)
  | _ => none

/-- BUILD: FOREST, TREE, DERIVE, in that order (R104). -/
def buildCommands : List Instr := [.forest, .tree, .derive]

/-- COUNT: one SYM per character, in text order (R105). -/
def countCommands (text : List Sym) : List Instr := text.map .sym

/-- ENCS: one ENC per character, in text order; no ENCEND (R106). -/
def encsCommands (text : List Sym) : List Instr := text.map .enc

/-- DECB: one DEC per bit, in text order; no DECEND (R107). -/
def decbCommands (bits : List (BitVec 1)) : List Instr := bits.map .dec

/-- The commands of a line whose operands are in range (R103 to R107). -/
def lineCommands : AsmLine → List Instr
  | .nop => [.nop]
  | .clr => [.clr]
  | .sym s => [.sym (BitVec.ofNat 8 s)]
  | .ldf s d => [.ldf (BitVec.ofNat 8 s) (BitVec.ofNat 32 d)]
  | .forest => [.forest]
  | .merge => [.merge]
  | .tree => [.tree]
  | .derive => [.derive]
  | .enc s => [.enc (BitVec.ofNat 8 s)]
  | .encend => [.encend]
  | .dec b => [.dec (BitVec.ofNat 1 b)]
  | .decend => [.decend]
  | .rd a => [.rd (BitVec.ofNat 16 a)]
  | .build => buildCommands
  | .count text => countCommands (text.map (BitVec.ofNat 8))
  | .encs text => encsCommands (text.map (BitVec.ofNat 8))
  | .decb bits => decbCommands (bits.map (BitVec.ofNat 1))

/-- "An operand outside its range cannot be assembled" (R103). -/
def assembleLine (line : AsmLine) : Option (List CmdWord) :=
  if line.wellFormed then some ((lineCommands line).map encode) else none

/-- One line of source text to command words; a blank or comment line gives none (R103). -/
def assembleText (cs : List Char) : Option (List CmdWord) :=
  match lexLine .between cs with
  | none => none
  | some ts =>
    match parseTokens ts with
    | none => none
    | some none => some []
    | some (some line) => assembleLine line

end Sys2Proof.Machine
end

