-- ==== Sys2Proof/Machine/Ports.lean ====
section
/-! DEFINITION. The output ports as projections of the one event trace (spec/30_encoding.md R98 to R102: "the per-port
sequences are its projections"). The handshake signals are not modelled (log 4). -/

namespace Sys2Proof.Machine

/-- One beat of the bit sink (R98). -/
structure BitBeat where
  /-- `bit_data`. -/
  data : Bool
  /-- `bit_last`. -/
  last : Bool
deriving DecidableEq, Repr

/-- One beat of the symbol sink (R99). -/
structure SymBeat where
  /-- `sym_data[7:0]`. -/
  data : Sym
  /-- `sym_last`. -/
  last : Bool
deriving DecidableEq, Repr

/-- The bit-sink beat of an event; BITEOS has `bit_data` = 0 (R98). -/
def Event.bitBeat : Event → Option BitBeat
  | .bit b => some { data := b, last := false }
  | .biteos => some { data := false, last := true }
  | .symb _ => none
  | .symeos => none
  | .rsp _ _ => none

/-- The symbol-sink beat of an event; SYMEOS has `sym_data` = 0 (R99). -/
def Event.symBeat : Event → Option SymBeat
  | .bit _ => none
  | .biteos => none
  | .symb x => some { data := x, last := false }
  | .symeos => some { data := 0, last := true }
  | .rsp _ _ => none

/-- The response word of an event: ST in [39:32], DATA in [31:0] (R100). -/
def Event.rspWord : Event → Option RspWord
  | .bit _ => none
  | .biteos => none
  | .symb _ => none
  | .symeos => none
  | .rsp st d => some (st ++ d)

/-- Everything the bit sink has received, oldest first (R102). -/
def State.bitSink (s : State) : List BitBeat := s.trace.filterMap Event.bitBeat

/-- Everything the symbol sink has received, oldest first (R102). -/
def State.symSink (s : State) : List SymBeat := s.trace.filterMap Event.symBeat

/-- Every response word, oldest first (R102). -/
def State.responses (s : State) : List RspWord := s.trace.filterMap Event.rspWord

/-- The bit that a BIT beat carries. -/
def Event.bitData : Event → Option Bool
  | .bit b => some b
  | .biteos => none
  | .symb _ => none
  | .symeos => none
  | .rsp _ _ => none

/-- The symbol that a SYMB beat carries. -/
def Event.symData : Event → Option Sym
  | .bit _ => none
  | .biteos => none
  | .symb x => some x
  | .symeos => none
  | .rsp _ _ => none

end Sys2Proof.Machine
end

