-- ==== Sys2Proof/Safety.lean ====
section
/-! DEFINITION. The terms the statements use: what a safe run is, the invariants of the data model
(spec/46_properties.md R240 to R242, spec/10_state.md R20 to R33), sequences of commands, and the encoded and decoded
streams (43_encoder.md R197, 44_decoder.md R215). Nothing here adds behaviour to the machine. -/

namespace Sys2Proof.Machine

/-! ## Runs -/

/-- Issue commands one after another, all accepted by the decoder (00_scope.md R9). -/
def runAll : List Instr → State → Outcome
  | [], s => .next s
  | i :: is, s =>
    match exec i s with
    | .next t => runAll is t
    | .fault f => .fault f
    | .refused r => .refused r

/-- A run has not failed: it is not halted (00_scope.md R10, 10_state.md R31). -/
def State.safe (s : State) : Prop := s.fault = 0

/-- The events of the step or run from `s` to `t`, in order. -/
def eventsSince (s t : State) : List Event := t.trace.drop s.trace.length

/-- The bits of the BIT beats among events, in order: what the bit sink receives (R98). -/
def bitsOf (es : List Event) : List Bool := es.filterMap Event.bitData

/-- The symbols of the SYMB beats among events, in order: what the symbol sink receives (R99). -/
def symbolsOf (es : List Event) : List Sym := es.filterMap Event.symData

/-- The state after a command that changes no table: its beats, then RSP(0x00, d) (R100). -/
def State.answered (s : State) (beats : List Event) (d : TblWord) : State :=
  { s with trace := s.trace ++ (beats ++ [.rsp 0x00 d]) }

/-- The state after the first fault of a run: code and info latched, the response, nothing else (60_exceptions.md
R265). -/
def State.firstFault (s : State) (code : BitVec 8) (info : TblWord) : State :=
  { s with fault := code, finfo := info, trace := s.trace ++ [.rsp code info] }

/-! ## Reading a state in a statement -/

/-- NODE[i]. For statements; the machine reads records through `State.nodeAt`. A number that names no record reads as the
reset record: DESIGN CHOICE (log 18). -/
def State.nd (s : State) (i : Nat) : Node := (s.node.get? i).getD Node.reset

/-- INQ[i] = 1. For statements. False for a number that names no record: DESIGN CHOICE (log 18). -/
def State.inQ (s : State) (i : Nat) : Bool := (s.inq.get? i).getD false

/-- Σ_s FREQ[s] (46_properties.md R242). -/
def State.freqSum (s : State) : Nat := (s.freq.entries.map BitVec.toNat).sum

/-- The sum of the members' CNT (R241). -/
def State.memberSum (s : State) : Nat := (s.keys.map fun k => k.1.toNat).sum

/-- Every element of R20 has its reset value (10_state.md R40). -/
structure State.AtReset (s : State) : Prop where
  freq : ∀ x, s.freqAt x = 0
  node : ∀ i, i < 511 → s.nd i =
    { leaf := false, sym := 0, cnt := 0, left := 0x1FF, right := 0x1FF, parent := 0x1FF }
  nnodes : s.nnodes = 0
  ndist : s.ndist = 0
  inq : ∀ i, i < 511 → s.inQ i = false
  pqlen : s.pqlen = 0
  root : s.root = 0x1FF
  cur : s.cur = 0x1FF
  clen : ∀ x, s.clenAt x = 0
  cbits : ∀ x, s.cbitsAt x = 0
  fault : s.fault = 0
  finfo : s.finfo = 0
  phase : s.phase = .count ∧ s.phase.code = 0

/-- The order of keys, (CNT, index) lexicographic (10_state.md R26). -/
def State.keyLe (s : State) (i j : Nat) : Prop :=
  (s.nd i).cnt.toNat < (s.nd j).cnt.toNat ∨ (s.nd i).cnt.toNat = (s.nd j).cnt.toNat ∧ i ≤ j

/-- `i` is the node with the least key among those that satisfy `m` (R26, 41_tree_build.md R151). -/
def State.isLeast (s : State) (m : Nat → Prop) (i : Nat) : Prop := m i ∧ ∀ j, m j → s.keyLe i j

/-- Symbol `x` is present: FREQ[x] is not 0 (10_state.md R21). -/
abbrev State.isPresent (s : State) (x : Sym) : Prop := s.freqAt x ≠ 0

/-- The present symbols in ascending order (R21, 41_tree_build.md R150). -/
def State.presentSyms (s : State) : List Sym :=
  ((List.range 256).map (BitVec.ofNat 8)).filter fun x => decide (s.freqAt x ≠ 0)

/-- The parent of node `i`, as a number; NIL gives 511, and so does a number that names no record: DESIGN CHOICE
(log 18). -/
def State.parentOf (s : State) (i : Nat) : Nat := (s.nd i).parent.toNat

/-! ## The invariants -/

/-- The records of the arena: unallocated ones at reset, leaves first, then internal nodes, each with two children that
come before it and name it as their parent, and each parent's child (10_state.md R22 to R25, 41_tree_build.md R150,
R152, R156). -/
structure ArenaOk (s : State) : Prop where
  dist_le_nodes : s.ndist.toNat ≤ s.nnodes.toNat
  dist_le_256 : s.ndist.toNat ≤ 256
  unallocated : ∀ i, s.nnodes.toNat ≤ i → s.nd i = Node.reset ∧ s.inQ i = false
  leaves : ∀ i, i < s.ndist.toNat →
    (s.nd i).leaf = true ∧ (s.nd i).left = Config.nil ∧ (s.nd i).right = Config.nil ∧
    (s.nd i).cnt = freqCount (s.freqAt (s.nd i).sym) ∧ s.isPresent (s.nd i).sym
  ascending : ∀ i j, i < j → j < s.ndist.toNat → (s.nd i).sym.toNat < (s.nd j).sym.toNat
  complete : ∀ x, s.isPresent x → ∃ i, i < s.ndist.toNat ∧ (s.nd i).sym = x
  internals : ∀ k, s.ndist.toNat ≤ k → k < s.nnodes.toNat →
    (s.nd k).leaf = false ∧ (s.nd k).sym = 0 ∧ (s.nd k).left.toNat < k ∧ (s.nd k).right.toNat < k ∧
    (s.nd k).left ≠ (s.nd k).right ∧
    (s.nd (s.nd k).left.toNat).parent.toNat = k ∧ (s.nd (s.nd k).right.toNat).parent.toNat = k ∧
    (s.nd k).cnt.toNat = (s.nd (s.nd k).left.toNat).cnt.toNat + (s.nd (s.nd k).right.toNat).cnt.toNat
  parents : ∀ i, i < s.nnodes.toNat → (s.nd i).parent = Config.nil ∨
    (s.ndist.toNat ≤ (s.nd i).parent.toNat ∧ (s.nd i).parent.toNat < s.nnodes.toNat ∧
      ((s.nd (s.nd i).parent.toNat).left.toNat = i ∨ (s.nd (s.nd i).parent.toNat).right.toNat = i))

/-- P_COUNT: nothing is built yet (10_state.md R32, R40). -/
structure CountOk (s : State) : Prop where
  node : s.node = State.reset.node
  inq : s.inq = State.reset.inq
  nnodes : s.nnodes = 0
  ndist : s.ndist = 0
  pqlen : s.pqlen = 0
  root : s.root = Config.nil
  cur : s.cur = Config.nil

/-- P_FOREST: the members of the priority structure are exactly the roots of the trees formed so far, PQLEN counts
them, and their counts add up to the number of symbols counted (46_properties.md R241). -/
structure ForestOk (s : State) : Prop where
  arena : ArenaOk s
  members : ∀ i, i < s.nnodes.toNat → (s.inQ i = true ↔ (s.nd i).parent = Config.nil)
  pqlen : s.pqlen.toNat = s.keys.length
  nodes : s.nnodes.toNat + s.pqlen.toNat = 2 * s.ndist.toNat
  sum : s.memberSum = s.freqSum
  root : s.root = Config.nil
  cur : s.cur = Config.nil

/-- P_TREE and P_READY: one finished tree, or none (46_properties.md R240, R242; 10_state.md R27, R28). -/
structure TreeOk (s : State) : Prop where
  arena : ArenaOk s
  pqlen : s.pqlen = 0
  inq : s.inq = State.reset.inq
  absent : s.ndist = 0 → s.nnodes = 0 ∧ s.root = Config.nil
  present : s.ndist ≠ 0 → s.nnodes.toNat + 1 = 2 * s.ndist.toNat ∧ s.root.toNat + 1 = s.nnodes.toNat ∧
    (∀ i, i < s.nnodes.toNat → ((s.nd i).parent = Config.nil ↔ i = s.root.toNat)) ∧
    (s.nd s.root.toNat).cnt.toNat = s.freqSum
  cur : s.cur = s.root ∨ (s.ndist.toNat ≤ s.cur.toNat ∧ s.cur.toNat < s.nnodes.toNat)

/-- Before DERIVE no symbol has a code (10_state.md R29, R30, R40). -/
structure NoCodes (s : State) : Prop where
  clen : s.clen = State.reset.clen
  cbits : s.cbits = State.reset.cbits

/-- After DERIVE the table holds the code of every leaf, of 1 to 255 bits, and nothing for an absent symbol
(42_code_table.md R181, R184). -/
structure CodesOk (s : State) : Prop where
  absent : ∀ x, ¬ s.isPresent x → s.clenAt x = 0 ∧ s.cbitsAt x = 0
  leaves : ∀ i, i < s.ndist.toNat → ∃ c, s.codeOf (BitVec.ofNat 9 i) = some c ∧ 1 ≤ c.length ∧
    c.length ≤ Config.maxLen ∧ s.clenAt (s.nd i).sym = BitVec.ofNat 8 c.length ∧
    s.cbitsAt (s.nd i).sym = codeVector c

/-- FAULT is 0 or a code that `raise` stores, and FINFO is 0 while it is 0 (10_state.md R31, 60_exceptions.md R260). -/
structure FaultOk (s : State) : Prop where
  code : s.fault.toNat ≤ 6
  info : s.fault = 0 → s.finfo = 0

/-- What holds of the tables in each phase. In P_FOREST with at most one tree no merge has been done yet: the merge
that leaves one tree finalises (46_properties.md R241). -/
def PhaseOk (s : State) : Prop :=
  match s.phase with
  | .count => CountOk s ∧ NoCodes s
  | .forest => (ForestOk s ∧ NoCodes s) ∧ (s.pqlen.toNat ≤ 1 → s.nnodes = s.ndist)
  | .tree => TreeOk s ∧ NoCodes s
  | .ready => TreeOk s ∧ CodesOk s

/-- The invariant of the machine: it holds at reset and every step keeps it. -/
structure Inv (s : State) : Prop where
  fault : FaultOk s
  phase : PhaseOk s

/-! ## The streams -/

/-- encode(S): the codes of the symbols, one after the other (43_encoder.md R197, which defines it for sequences whose
symbols all have CLEN ≠ 0). A symbol without an entry adds no bit: DESIGN CHOICE (log 18). -/
def State.encodeBits (s : State) (xs : List Sym) : List Bool := xs.flatMap s.codeBits

/-- The child of node `c` that a bit selects, as the pure walk of R215 reads it; NIL where `c` is NIL: DESIGN CHOICE
(log 18). -/
def State.childOf (s : State) (c : Idx) (b : Bool) : Idx :=
  if b then (s.nd c.toNat).right else (s.nd c.toNat).left

/-- decode_bits from position `c`: the symbols, and the position reached (44_decoder.md R215). R215 defines it for a
finished tree with ROOT ≠ NIL, and with ROOT = NIL "only for the empty sequence". For a non-empty sequence there, and for
a walk that meets an absent child, this total function has a value all the same, which is no rule of the spec: with ROOT
and `c` NIL no symbol and position NIL. DESIGN CHOICE (log 18); no statement uses such a value. -/
def State.decodeBits (s : State) : Idx → List Bool → List Sym × Idx
  | c, [] => ([], c)
  | c, b :: bs =>
    if (s.nd s.root.toNat).leaf then
      let r := s.decodeBits c bs
      ((s.nd s.root.toNat).sym :: r.1, r.2)
    else
      let n := s.childOf c b
      if (s.nd n.toNat).leaf then
        let r := s.decodeBits s.root bs
        ((s.nd n.toNat).sym :: r.1, r.2)
      else s.decodeBits n bs

/-- The commands that feed a bit sequence to the decoder, one DEC a bit (R210, R215). -/
def decCommands (bs : List Bool) : List Instr := bs.map fun b => .dec (BitVec.ofBool b)

end Sys2Proof.Machine
end

