-- ==== Sys2Proof/Certificates/Slice0/Obligations.lean ====
section
/-! DEFINITION. The statements about the HCE, each the formal reading of the rule of spec/ that its docstring names.
`s.answered beats d` is "the beats, then RSP(0x00, d), and nothing else changes"; `s.firstFault c v` is "FAULT and
FINFO latch c and v, RSP(c, v), and nothing else changes" (Safety.lean). In every statement the words the host presents
and its reset stand in `inputs`, and the emitted events in `trace`: both are the model's own fields, a design choice of
log 1, log 2 and log 3, and no rule of the spec. -/

open Sys2Proof Sys2Proof.Machine

/-! ## Reset and the step -/

/-- R40: after reset (the state given, and the reset input) and after every CLR, every element has its reset value. -/
def Obligations.ResetStateIsAsListed : Prop :=
  State.reset.AtReset ∧
  (∀ s : State, ∃ t, exec .clr s = .next t ∧ t.AtReset) ∧
  (∀ (s : State) (rest : List HostInput), s.inputs = .reset :: rest → ∃ t, step s = .next t ∧ t.AtReset)

/-- The reset state satisfies the machine's invariant (R40 beside R240, R241). -/
def Obligations.ResetSatisfiesInvariant : Prop := Inv State.reset

/-- R9: a step takes the oldest word the host presents; if it decodes, the step is the command's `exec` with that word
consumed (the input list is the model's own field, log 1). -/
def Obligations.StepRunsDecodedCommand : Prop :=
  ∀ (s : State) (w : CmdWord) (i : Instr) (rest : List HostInput),
    s.inputs = .command w :: rest → decode w = .ok i → step s = exec i { s with inputs := rest }

/-- R261, R268: a word that decodes to no command raises E_ILLEGAL with word[63:32], in every phase and also while
halted, where FAULT and FINFO keep the first fault. -/
def Obligations.StepRaisesIllegal : Prop :=
  ∀ (s : State) (w : CmdWord) (rest : List HostInput),
    s.inputs = .command w :: rest → (∀ i, decode w ≠ .ok i) →
    (s.fault = 0 →
      step s = .next (State.firstFault { s with inputs := rest } 0x01 ((w >>> 32).setWidth 32))) ∧
    (s.fault ≠ 0 →
      step s = .next { s with inputs := rest, trace := s.trace ++ [.rsp 0x01 ((w >>> 32).setWidth 32)] })

/-- R284, R301, R302: with nothing presented the HCE idles with its state unchanged; reset leaves the reset state and
emits nothing. The input list and the trace are the model's own fields (log 1, log 2). -/
def Obligations.StepIdlesOrResets : Prop :=
  (∀ s : State, s.inputs = [] → step s = .next s) ∧
  (∀ (s : State) (rest : List HostInput), s.inputs = .reset :: rest →
    step s = .next { State.reset with inputs := rest, trace := s.trace })

/-- R300: a command cut short by reset leaves the reset state and the beats already transferred, the first `n` of the
command's own beats, and no response. How many is open (U14): the statement is for every `n` (log 3). -/
def Obligations.ResetCutsCommand : Prop :=
  ∀ (s : State) (w : CmdWord) (n : Nat) (rest : List HostInput) (t : State),
    s.inputs = .resetDuring w n :: rest →
    step { s with inputs := .command w :: rest } = .next t →
    step s = .next
      { State.reset with inputs := rest, trace := s.trace ++ (eventsSince s t).dropLast.take n }

/-! ## The command word -/

/-- R97: the worked encodings, legal and illegal. -/
def Obligations.WorkedEncodingsDecode : Prop :=
  decode 0x0200004800000000 = .ok (.sym 0x48) ∧
  decode 0x0300006100000005 = .ok (.ldf 0x61 5) ∧
  decode 0x3000006100000000 = .ok (.enc 0x61) ∧
  decode 0x4000000000000000 = .ok (.dec 0) ∧
  decode 0x4000000100000000 = .ok (.dec 1) ∧
  decode 0x5000200500000000 = .ok (.rd 0x2005) ∧
  decode 0x1200000000000000 = .ok .tree ∧
  (∀ i, decode 0x0200014800000000 ≠ .ok i) ∧
  (∀ i, decode 0x4000000200000000 ≠ .ok i) ∧
  (∀ i, decode 0x0001000000000000 ≠ .ok i) ∧
  (∀ i, decode 0x0000000000000001 ≠ .ok i) ∧
  (∀ i, decode 0x0400000000000000 ≠ .ok i)

/-- R108: encoding and decoding are inverse in both directions, for every command with every operand and for every
legal word, and the encoding is (OP << 56) | (A << 32) | D with the A and D of the command's format. -/
def Obligations.EncodeAndDecodeAreInverse : Prop :=
  (∀ i : Instr, decode (encode i) = .ok i) ∧
  (∀ (w : CmdWord) (i : Instr), decode w = .ok i → encode i = w) ∧
  encode .nop = 0 ∧
  encode .clr = 0x01 <<< 56 ∧
  (∀ x : Sym, encode (.sym x) = (0x02 <<< 56) ||| (x.setWidth 64 <<< 32)) ∧
  (∀ (x : Sym) (d : Freq), encode (.ldf x d) = (0x03 <<< 56) ||| (x.setWidth 64 <<< 32) ||| d.setWidth 64) ∧
  encode .forest = 0x10 <<< 56 ∧
  encode .merge = 0x11 <<< 56 ∧
  encode .tree = 0x12 <<< 56 ∧
  encode .derive = 0x20 <<< 56 ∧
  (∀ x : Sym, encode (.enc x) = (0x30 <<< 56) ||| (x.setWidth 64 <<< 32)) ∧
  encode .encend = 0x31 <<< 56 ∧
  (∀ b : BitVec 1, encode (.dec b) = (0x40 <<< 56) ||| (b.setWidth 64 <<< 32)) ∧
  encode .decend = 0x41 <<< 56 ∧
  (∀ a : TblAddr, encode (.rd a) = (0x50 <<< 56) ||| (a.setWidth 64 <<< 32))

/-- R93: a word is the command of a row exactly when `w & mask = match`, and no word satisfies two rows. -/
def Obligations.DecodeAgreesWithOpcodeMap : Prop :=
  (∀ (w : CmdWord), ∀ r ∈ opcodeRows,
    (w &&& r.mask = r.pattern ↔ ∃ i, decode w = .ok i ∧ i.mnemonic = r.mnemonic)) ∧
  (∀ w : CmdWord, ∀ r ∈ opcodeRows, ∀ q ∈ opcodeRows,
    w &&& r.mask = r.pattern → w &&& q.mask = q.pattern → r = q)

/-- R94, R91: the words without a command are exactly those that match no row, which are those with RSV ≠ 0, those
with an unassigned OP and those that set an operand bit the format does not use. -/
def Obligations.IllegalWords : Prop :=
  ∀ w : CmdWord,
    ((∀ i, decode w ≠ .ok i) ↔ ∀ r ∈ opcodeRows, w &&& r.mask ≠ r.pattern) ∧
    ((∀ i, decode w ≠ .ok i) ↔
      w.extractLsb' 48 8 ≠ 0 ∨
      w.extractLsb' 56 8 ∉
        ([0x00, 0x01, 0x02, 0x03, 0x10, 0x11, 0x12, 0x20, 0x30, 0x31, 0x40, 0x41, 0x50] : List (BitVec 8)) ∨
      (w.extractLsb' 56 8 ∈ ([0x00, 0x01, 0x10, 0x11, 0x12, 0x20, 0x31, 0x41] : List (BitVec 8)) ∧
        (w.extractLsb' 32 16 ≠ 0 ∨ w.extractLsb' 0 32 ≠ 0)) ∨
      (w.extractLsb' 56 8 ∈ ([0x02, 0x30] : List (BitVec 8)) ∧
        (w.extractLsb' 40 8 ≠ 0 ∨ w.extractLsb' 0 32 ≠ 0)) ∨
      (w.extractLsb' 56 8 = 0x03 ∧ w.extractLsb' 40 8 ≠ 0) ∨
      (w.extractLsb' 56 8 = 0x40 ∧ (w.extractLsb' 33 15 ≠ 0 ∨ w.extractLsb' 0 32 ≠ 0)) ∨
      (w.extractLsb' 56 8 = 0x50 ∧ w.extractLsb' 0 32 ≠ 0))

/-- R92: operands are taken from the word as they stand. -/
def Obligations.OperandsAsTheyStand : Prop :=
  ∀ w : CmdWord,
    (∀ x, decode w = .ok (.sym x) → x = w.extractLsb' 32 8) ∧
    (∀ x d, decode w = .ok (.ldf x d) → x = w.extractLsb' 32 8 ∧ d = w.extractLsb' 0 32) ∧
    (∀ x, decode w = .ok (.enc x) → x = w.extractLsb' 32 8) ∧
    (∀ b, decode w = .ok (.dec b) → b = w.extractLsb' 32 1) ∧
    (∀ a, decode w = .ok (.rd a) → a = w.extractLsb' 32 16)

/-! ## The checks, the fault entry, the phases -/

/-- R268: halted exactly when FAULT ≠ 0. While halted every legal command other than NOP, CLR and RD answers
RSP(0x07, 0) and changes nothing; NOP, CLR and RD are performed; an illegal word answers RSP(0x01, word[63:32]). -/
def Obligations.HaltedRefuses : Prop :=
  (∀ s : State, s.halted = true ↔ s.fault ≠ 0) ∧
  ∀ s : State, s.fault ≠ 0 →
    (∀ i : Instr, i ≠ .nop → i ≠ .clr → (∀ a, i ≠ .rd a) →
      exec i s = .next { s with trace := s.trace ++ [.rsp 0x07 0] }) ∧
    exec .nop s = .next (s.answered [] 0) ∧
    exec .clr s = .next { State.reset with inputs := s.inputs, trace := s.trace ++ [.rsp 0x00 0] } ∧
    (∀ a v, s.tblRead a = some v → exec (.rd a) s = .next (s.answered [] v)) ∧
    (∀ (w : CmdWord) (rest : List HostInput), s.inputs = .command w :: rest → (∀ i, decode w ≠ .ok i) →
      step s = .next { s with inputs := rest, trace := s.trace ++ [.rsp 0x01 ((w >>> 32).setWidth 32)] })

/-- R262: a command not legal in PHASE raises E_SEQ with zext_32(OP), and nothing else happens (not halted). -/
def Obligations.PhaseViolation : Prop :=
  ∀ s : State, s.fault = 0 →
    (s.phase ≠ .count →
      (∀ x, exec (.sym x) s = .next (s.firstFault 0x02 0x02)) ∧
      (∀ x d, exec (.ldf x d) s = .next (s.firstFault 0x02 0x03)) ∧
      exec .forest s = .next (s.firstFault 0x02 0x10)) ∧
    (s.phase ≠ .forest →
      exec .merge s = .next (s.firstFault 0x02 0x11) ∧ exec .tree s = .next (s.firstFault 0x02 0x12)) ∧
    (s.phase ≠ .tree → exec .derive s = .next (s.firstFault 0x02 0x20)) ∧
    (s.phase ≠ .ready →
      (∀ x, exec (.enc x) s = .next (s.firstFault 0x02 0x30)) ∧
      exec .encend s = .next (s.firstFault 0x02 0x31)) ∧
    (s.phase ≠ .tree → s.phase ≠ .ready →
      (∀ b, exec (.dec b) s = .next (s.firstFault 0x02 0x40)) ∧
      exec .decend s = .next (s.firstFault 0x02 0x41))

/-- R280: a command is answered E_SEQ exactly in the phases where the table says so, E_HALTED exactly where its last
column says so, and PHASE moves only as listed. -/
def Obligations.LegalityByPhase : Prop :=
  (∀ (i : Instr) (s t : State) (st : BitVec 8) (d : TblWord), s.fault = 0 → exec i s = .next t →
    t.trace.getLast? = some (.rsp st d) →
    (st = 0x02 ↔
      match i with
      | .nop => False
      | .clr => False
      | .rd _ => False
      | .sym _ => s.phase ≠ .count
      | .ldf _ _ => s.phase ≠ .count
      | .forest => s.phase ≠ .count
      | .merge => s.phase ≠ .forest
      | .tree => s.phase ≠ .forest
      | .derive => s.phase ≠ .tree
      | .enc _ => s.phase ≠ .ready
      | .encend => s.phase ≠ .ready
      | .dec _ => s.phase ≠ .tree ∧ s.phase ≠ .ready
      | .decend => s.phase ≠ .tree ∧ s.phase ≠ .ready)) ∧
  (∀ (i : Instr) (s t : State) (st : BitVec 8) (d : TblWord), exec i s = .next t →
    t.trace.getLast? = some (.rsp st d) →
    (st = 0x07 ↔ s.fault ≠ 0 ∧ i ≠ .nop ∧ i ≠ .clr ∧ ∀ a, i ≠ .rd a)) ∧
  (∀ (i : Instr) (s t : State), exec i s = .next t → t.phase ≠ s.phase →
    (i = .forest ∧ s.phase = .count ∧ t.phase = .forest) ∨
    ((i = .merge ∨ i = .tree) ∧ s.phase = .forest ∧ t.phase = .tree) ∨
    (i = .derive ∧ s.phase = .tree ∧ t.phase = .ready) ∨
    (i = .clr ∧ t.phase = .count))

/-- R265, R273: a step whose response is a fault, whichever command and fault, is the fault entry and nothing else:
the first fault of the run is latched, a later one is not, no beat is emitted, and the HCE is halted afterwards. -/
def Obligations.FaultEntryIsPrecise : Prop :=
  ∀ (s t : State) (w : CmdWord) (rest : List HostInput) (st : BitVec 8) (d : TblWord),
    s.inputs = .command w :: rest → step s = .next t → t.trace.getLast? = some (.rsp st d) → st ≠ 0x00 →
    (st = 0x07 → t = { s with inputs := rest, trace := s.trace ++ [.rsp 0x07 0] }) ∧
    (st ≠ 0x07 →
      (s.fault = 0 → t = State.firstFault { s with inputs := rest } st d) ∧
      (s.fault ≠ 0 → t = { s with inputs := rest, trace := s.trace ++ [.rsp st d] }) ∧
      t.halted = true)

/-- R100, R260: every step emits its data beats and then exactly one response, whose status is one of the eight codes
and whose data is the word read, the info word of the cause, or 0. -/
def Obligations.OneResponseLast : Prop :=
  ∀ (s t : State) (w : CmdWord) (rest : List HostInput), s.inputs = .command w :: rest → step s = .next t →
    ∃ (beats : List Event) (st : BitVec 8) (d : TblWord),
      t.trace = s.trace ++ (beats ++ [.rsp st d]) ∧
      (∀ e ∈ beats, ∀ c v, e ≠ .rsp c v) ∧
      (st ≠ 0x00 → beats = []) ∧
      ((st = 0x00 ∧ ((∃ a, decode w = .ok (.rd a) ∧ s.tblRead a = some d) ∨
          (∃ i, decode w = .ok i ∧ (∀ a, i ≠ .rd a) ∧ d = 0))) ∨
        (st = 0x01 ∧ (∀ i, decode w ≠ .ok i) ∧ d = w.extractLsb' 32 32) ∨
        (st = 0x02 ∧ (∃ i, decode w = .ok i) ∧ d = (w.extractLsb' 56 8).setWidth 32) ∨
        (st = 0x03 ∧ ∃ x, decode w = .ok (.sym x) ∧ s.freqAt x = 0xFFFFFFFF ∧ d = x.setWidth 32) ∨
        (st = 0x04 ∧ ∃ x, decode w = .ok (.enc x) ∧ s.clenAt x = 0 ∧ d = x.setWidth 32) ∨
        (st = 0x05 ∧ ∃ b, decode w = .ok (.dec b) ∧ d = b.setWidth 32) ∨
        (st = 0x06 ∧ ∃ a, decode w = .ok (.rd a) ∧ s.tblRead a = none ∧ d = a.setWidth 32) ∨
        (st = 0x07 ∧ s.fault ≠ 0 ∧ d = 0))

/-- R41: who writes what. The frame of all thirteen commands at once. -/
def Obligations.WritersOfState : Prop :=
  ∀ (i : Instr) (s t : State), exec i s = .next t →
    (t.freq = s.freq ∨ i = .clr ∨ (∃ x, i = .sym x) ∨ ∃ x d, i = .ldf x d) ∧
    ((t.node = s.node ∧ t.nnodes = s.nnodes ∧ t.inq = s.inq ∧ t.pqlen = s.pqlen) ∨
      i = .forest ∨ i = .merge ∨ i = .tree ∨ i = .clr) ∧
    (t.ndist = s.ndist ∨ i = .forest ∨ i = .clr) ∧
    (t.root = s.root ∨ ((i = .merge ∨ i = .tree) ∧ s.phase = .forest ∧ t.phase = .tree) ∨ i = .clr) ∧
    (t.cur = s.cur ∨ ((i = .merge ∨ i = .tree) ∧ s.phase = .forest ∧ t.phase = .tree) ∨
      (∃ b, i = .dec b) ∨ i = .decend ∨ i = .clr) ∧
    ((t.clen = s.clen ∧ t.cbits = s.cbits) ∨ i = .derive ∨ i = .clr) ∧
    (t.phase = s.phase ∨ i = .forest ∨ ((i = .merge ∨ i = .tree) ∧ t.phase = .tree) ∨ i = .derive ∨ i = .clr) ∧
    ((t.fault = s.fault ∧ t.finfo = s.finfo) ∨
      (s.fault = 0 ∧ t.fault ≠ 0 ∧ t.trace.getLast? = some (.rsp t.fault t.finfo)) ∨ i = .clr) ∧
    (i = .nop ∨ (∃ x, i = .enc x) ∨ i = .encend ∨ (∃ a, i = .rd a) →
      t = { s with fault := t.fault, finfo := t.finfo, trace := t.trace }) ∧
    t.inputs = s.inputs

/-- R85: from P_TREE on no command but CLR writes FREQ, NODE, INQ or ROOT, and from P_READY on none writes CLEN or
CBITS: the tree and the code table are frozen, over any sequence of commands without CLR. -/
def Obligations.TablesAreFrozen : Prop :=
  ∀ (is : List Instr) (s t : State), .clr ∉ is → s.phase = .tree ∨ s.phase = .ready → runAll is s = .next t →
    t.freq = s.freq ∧ t.node = s.node ∧ t.nnodes = s.nnodes ∧ t.ndist = s.ndist ∧ t.inq = s.inq ∧
    t.pqlen = s.pqlen ∧ t.root = s.root ∧
    (s.phase = .ready → t.clen = s.clen ∧ t.cbits = s.cbits ∧ t.phase = .ready)

/-- R132, R283: no state is shared across runs. What a run that begins with CLR does, event by event, and the state it
ends in, do not depend on the state it began in. -/
def Obligations.RunsShareNoState : Prop :=
  ∀ (is : List Instr) (s u t : State), runAll (.clr :: is) s = .next t →
    ∃ v, runAll (.clr :: is) u = .next v ∧ eventsSince u v = eventsSince s t ∧
      v = { t with inputs := u.inputs, trace := u.trace ++ eventsSince s t }

/-! ## Run control and the frequency table -/

/-- R131: NOP answers RSP(0x00, 0) in every state, halted or not, and changes nothing. -/
def Obligations.NopDoesNothing : Prop := ∀ s : State, exec .nop s = .next (s.answered [] 0)

/-- R132: CLR gives the reset state in every state, halted or not, and answers RSP(0x00, 0); it retracts no beat and
emits none. -/
def Obligations.ClrStartsANewRun : Prop :=
  ∀ s : State, exec .clr s = .next { State.reset with inputs := s.inputs, trace := s.trace ++ [.rsp 0x00 0] }

/-- R133, R263: SYM counts one occurrence; on a full counter it raises E_FREQOVF and the counter stays. -/
def Obligations.SymCountsOne : Prop :=
  ∀ (s : State) (x : Sym), s.fault = 0 →
    (s.phase = .count → s.freqAt x ≠ 0xFFFFFFFF →
      ∃ t, exec (.sym x) s = .next t ∧ (t.freqAt x).toNat = (s.freqAt x).toNat + 1 ∧
        (∀ y, y ≠ x → t.freqAt y = s.freqAt y) ∧
        t = { s with freq := t.freq, trace := s.trace ++ [.rsp 0x00 0] }) ∧
    (s.phase = .count → s.freqAt x = 0xFFFFFFFF →
      exec (.sym x) s = .next (s.firstFault 0x03 (x.setWidth 32))) ∧
    (s.phase ≠ .count → exec (.sym x) s = .next (s.firstFault 0x02 0x02))

/-- R134: LDF overwrites one counter with any value. -/
def Obligations.LdfLoadsACount : Prop :=
  ∀ (s : State) (x : Sym) (d : Freq), s.fault = 0 →
    (s.phase = .count →
      ∃ t, exec (.ldf x d) s = .next t ∧ t.freqAt x = d ∧ (∀ y, y ≠ x → t.freqAt y = s.freqAt y) ∧
        t = { s with freq := t.freq, trace := s.trace ++ [.rsp 0x00 0] }) ∧
    (s.phase ≠ .count → exec (.ldf x d) s = .next (s.firstFault 0x02 0x03))

/-- R61, R62, R81: seen through table space, a SYM or LDF that completes changes the word of its own counter, at
address x, and no other word. -/
def Obligations.CountingChangesOneWord : Prop :=
  ∀ (s t : State) (x : Sym) (d : Freq), s.fault = 0 → s.phase = .count →
    (exec (.ldf x d) s = .next t →
      t.tblRead (x.setWidth 16) = some d ∧ ∀ a, a ≠ x.setWidth 16 → t.tblRead a = s.tblRead a) ∧
    (s.freqAt x ≠ 0xFFFFFFFF → exec (.sym x) s = .next t →
      t.tblRead (x.setWidth 16) = some (s.freqAt x + 1) ∧ ∀ a, a ≠ x.setWidth 16 → t.tblRead a = s.tblRead a)

/-- R133: one SYM for every symbol of the input adds to every counter the number of its occurrences, and any
permutation of the input leaves the same state. -/
def Obligations.CountingScan : Prop :=
  ∀ (s : State) (xs : List Sym), s.fault = 0 → s.phase = .count →
    (∀ x, (s.freqAt x).toNat + xs.count x ≤ 2 ^ 32 - 1) →
    ∃ t, runAll (xs.map .sym) s = .next t ∧
      (∀ x, (t.freqAt x).toNat = (s.freqAt x).toNat + xs.count x) ∧
      t = { s with freq := t.freq, trace := s.trace ++ List.replicate xs.length (.rsp 0x00 0) } ∧
      ∀ ys : List Sym, ys.Perm xs → runAll (ys.map .sym) s = .next t

/-! ## Forest and tree -/

/-- R150: FOREST places one leaf for each present symbol, in ascending order of symbol value, at the indices from 0 on,
makes each a member of the priority structure, and changes no other record. -/
def Obligations.ForestLoadsOneLeafPerSymbol : Prop :=
  ∀ s : State, s.fault = 0 →
    (s.phase = .count → ∃ t, exec .forest s = .next t ∧
      t.nnodes.toNat = s.presentSyms.length ∧ t.ndist.toNat = s.presentSyms.length ∧
      t.pqlen.toNat = s.presentSyms.length ∧
      (∀ (j : Nat) (x : Sym), s.presentSyms[j]? = some x →
        t.nd j = { leaf := true, sym := x, cnt := (s.freqAt x).setWidth 40, left := 0x1FF, right := 0x1FF,
                   parent := 0x1FF } ∧
        t.inQ j = true) ∧
      (∀ j, s.presentSyms.length ≤ j → t.nd j = s.nd j ∧ t.inQ j = s.inQ j) ∧
      t = { s with node := t.node, nnodes := t.nnodes, ndist := t.ndist, inq := t.inq, pqlen := t.pqlen,
                   phase := .forest, trace := s.trace ++ [.rsp 0x00 0] }) ∧
    (s.phase ≠ .count → exec .forest s = .next (s.firstFault 0x02 0x10))

/-- R26, R75: pqmin is the unique member with the least key (count first, then index), NIL where there is no member;
RD 0x2008 reads it. -/
def Obligations.PqminIsTheLeastMember : Prop :=
  ∀ s : State,
    (s.pqmin = 0x1FF ↔ ∀ i, s.inQ i = false) ∧
    (s.pqmin ≠ 0x1FF → s.isLeast (fun i => s.inQ i = true) s.pqmin.toNat) ∧
    (∀ i, s.isLeast (fun i => s.inQ i = true) i → i = s.pqmin.toNat) ∧
    s.tblRead 0x2008 = some (s.pqmin.setWidth 32)

/-- R151, R152, R153: MERGE. With two or more trees the two least are removed and joined under record NNODES, the
first removed to the left, and the parent is inserted; a MERGE entered with two trees finalises as well. With one tree
or none it only finalises. -/
def Obligations.MergeJoinsTheTwoLeast : Prop :=
  ∀ s : State, Inv s → s.fault = 0 →
    (s.phase = .forest → 2 ≤ s.pqlen.toNat →
      ∃ (t : State) (a b : Nat), exec .merge s = .next t ∧
        s.isLeast (fun i => s.inQ i = true) a ∧ s.isLeast (fun i => s.inQ i = true ∧ i ≠ a) b ∧
        (t.nd s.nnodes.toNat).leaf = false ∧ (t.nd s.nnodes.toNat).sym = 0 ∧
        (t.nd s.nnodes.toNat).cnt.toNat = (s.nd a).cnt.toNat + (s.nd b).cnt.toNat ∧
        (t.nd s.nnodes.toNat).left.toNat = a ∧ (t.nd s.nnodes.toNat).right.toNat = b ∧
        (t.nd s.nnodes.toNat).parent = 0x1FF ∧
        t.nd a = { s.nd a with parent := s.nnodes } ∧ t.nd b = { s.nd b with parent := s.nnodes } ∧
        (∀ i, i ≠ a → i ≠ b → i ≠ s.nnodes.toNat → t.nd i = s.nd i) ∧
        t.nnodes.toNat = s.nnodes.toNat + 1 ∧
        (3 ≤ s.pqlen.toNat →
          (∀ i, t.inQ i = true ↔ i = s.nnodes.toNat ∨ (s.inQ i = true ∧ i ≠ a ∧ i ≠ b)) ∧
          t.pqlen.toNat + 1 = s.pqlen.toNat ∧
          t = { s with node := t.node, nnodes := t.nnodes, inq := t.inq, pqlen := t.pqlen,
                       trace := s.trace ++ [.rsp 0x00 0] }) ∧
        (s.pqlen.toNat = 2 →
          (∀ i, t.inQ i = false) ∧
          t = { s with node := t.node, nnodes := t.nnodes, inq := t.inq, pqlen := 0, root := s.nnodes,
                       cur := s.nnodes, phase := .tree, trace := s.trace ++ [.rsp 0x00 0] })) ∧
    (s.phase = .forest → s.pqlen.toNat ≤ 1 →
      ∃ t, exec .merge s = .next t ∧ (∀ i, t.inQ i = false) ∧
        ((∀ i, s.inQ i = false) → t.root = 0x1FF) ∧ (∀ i, s.inQ i = true → t.root.toNat = i) ∧
        t = { s with inq := t.inq, pqlen := 0, root := t.root, cur := t.root, phase := .tree,
                     trace := s.trace ++ [.rsp 0x00 0] }) ∧
    (s.phase ≠ .forest → exec .merge s = .next (s.firstFault 0x02 0x11))

/-- R154, R158: TREE completes and is MERGE issued until PHASE = P_TREE, with one response: from PQLEN = p that is
exactly max(p - 1, 1) steps, at most 255. -/
def Obligations.TreeIsMergeToTheEnd : Prop :=
  ∀ s : State, Inv s → s.fault = 0 →
    (s.phase = .forest →
      max (s.pqlen.toNat - 1) 1 ≤ 255 ∧
      (∀ m, m < max (s.pqlen.toNat - 1) 1 →
        ∃ u, runAll (List.replicate m .merge) s = .next u ∧ u.phase = .forest ∧ u.pqlen.toNat + m = s.pqlen.toNat) ∧
      ∃ t u, exec .tree s = .next t ∧ runAll (List.replicate (max (s.pqlen.toNat - 1) 1) .merge) s = .next u ∧
        u.phase = .tree ∧ t = { u with trace := s.trace ++ [.rsp 0x00 0] }) ∧
    (s.phase ≠ .forest → exec .tree s = .next (s.firstFault 0x02 0x12))

/-- R155, R156: FOREST then TREE. With no symbol the tree is absent; with one it is the bare leaf NODE[0]; with n ≥ 2
ROOT = 2n - 2 is an internal node. -/
def Obligations.TreeEdgeCases : Prop :=
  ∀ s : State, Inv s → s.fault = 0 → s.phase = .count →
    ∃ t, runAll [.forest, .tree] s = .next t ∧ t.phase = .tree ∧ t.fault = 0 ∧
      t.ndist.toNat = s.presentSyms.length ∧
      (s.presentSyms = [] → t.root = 0x1FF ∧ t.cur = 0x1FF ∧ t.nnodes = 0 ∧ t.noTree = true ∧ t.single = false) ∧
      (∀ x, s.presentSyms = [x] → t.root = 0 ∧ t.cur = 0 ∧ t.nnodes = 1 ∧ t.single = true ∧ t.noTree = false ∧
        t.nd 0 = { leaf := true, sym := x, cnt := (s.freqAt x).setWidth 40, left := 0x1FF, right := 0x1FF,
                   parent := 0x1FF }) ∧
      (2 ≤ s.presentSyms.length → t.root.toNat = 2 * s.presentSyms.length - 2 ∧ t.cur = t.root ∧
        t.nnodes.toNat = 2 * s.presentSyms.length - 1 ∧ (t.nd t.root.toNat).leaf = false ∧
        t.single = false ∧ t.noTree = false)

/-! ## The code table -/

/-- R180: path(ROOT) is empty, each left edge appends "0" and each right edge "1"; every allocated node has a path,
and the PARENT fields give the same one. -/
def Obligations.PathFollowsTheEdges : Prop :=
  ∀ s : State, Inv s → s.phase = .tree ∨ s.phase = .ready → s.root ≠ 0x1FF →
    s.path s.root = some [] ∧
    (∀ k : Idx, k.toNat < s.nnodes.toNat → (s.nd k.toNat).leaf = false → ∀ c, s.path k = some c →
      s.path (s.nd k.toNat).left = some (c ++ [false]) ∧ s.path (s.nd k.toNat).right = some (c ++ [true])) ∧
    (∀ i : Idx, i.toNat < s.nnodes.toNat → ∃ c, s.path i = some c) ∧
    (∀ i : Idx, i.toNat < s.nnodes.toNat → i ≠ s.root → ∃ c, s.path (s.nd i.toNat).parent = some c ∧
      s.path i = some (c ++ [if (s.nd (s.nd i.toNat).parent.toNat).left = i then false else true]))

/-- R181, R182, R183: DERIVE records, for every leaf, the length and the bits of its path ("0" for a root that is a
leaf), leaves every other entry and every other element as it was, and sets PHASE to P_READY. -/
def Obligations.DeriveRecordsThePaths : Prop :=
  ∀ s : State, Inv s → s.fault = 0 →
    (s.phase = .tree → ∃ t, exec .derive s = .next t ∧
      (s.root ≠ 0x1FF → (s.nd s.root.toNat).leaf = true →
        t.clenAt (s.nd s.root.toNat).sym = 1 ∧ t.cbitsAt (s.nd s.root.toNat).sym = 0) ∧
      (s.root ≠ 0x1FF → (s.nd s.root.toNat).leaf = false → ∀ i : Idx, i.toNat < s.ndist.toNat →
        ∃ c, s.path i = some c ∧ (t.clenAt (s.nd i.toNat).sym).toNat = c.length ∧
          ∀ k, k < 255 → (t.cbitsAt (s.nd i.toNat).sym).getLsbD k = c.getD k false) ∧
      (∀ x, (∀ i, i < s.ndist.toNat → (s.nd i).sym ≠ x) → t.clenAt x = s.clenAt x ∧ t.cbitsAt x = s.cbitsAt x) ∧
      t = { s with clen := t.clen, cbits := t.cbits, phase := .ready, trace := s.trace ++ [.rsp 0x00 0] }) ∧
    (s.phase ≠ .tree → exec .derive s = .next (s.firstFault 0x02 0x20))

/-- R184: after DERIVE a present symbol has a code of 1 to 255 bits, of at most n - 1 bits where n ≥ 2, of 1 bit where
n = 1; an absent symbol has none, and no bit beyond the length is set (R30). -/
def Obligations.CodeLengthBounds : Prop :=
  ∀ s : State, Inv s → s.phase = .ready → ∀ x : Sym,
    (s.freqAt x ≠ 0 → 1 ≤ (s.clenAt x).toNat ∧ (s.clenAt x).toNat ≤ 255 ∧
      (2 ≤ s.ndist.toNat → (s.clenAt x).toNat ≤ s.ndist.toNat - 1) ∧
      (s.ndist.toNat = 1 → (s.clenAt x).toNat = 1)) ∧
    (s.freqAt x = 0 → s.clenAt x = 0) ∧
    (∀ k, (s.clenAt x).toNat ≤ k → (s.cbitsAt x).getLsbD k = false)

/-! ## The encoder -/

/-- R195, R264: ENC emits the CLEN bits of the code, bit 0 first; E_NOSYM without an entry. It writes nothing. -/
def Obligations.EncEmitsTheCode : Prop :=
  ∀ (s : State) (x : Sym), s.fault = 0 →
    (s.phase = .ready → s.clenAt x ≠ 0 →
      exec (.enc x) s = .next
        (s.answered ((List.range (s.clenAt x).toNat).map fun k => .bit ((s.cbitsAt x).getLsbD k)) 0)) ∧
    (s.phase = .ready → s.clenAt x = 0 → exec (.enc x) s = .next (s.firstFault 0x04 (x.setWidth 32))) ∧
    (s.phase ≠ .ready → exec (.enc x) s = .next (s.firstFault 0x02 0x30))

/-- R197: the encoded stream of a sequence is the concatenation of the codes, with one response each and nothing else;
the first symbol without a code halts the run and the bits before it stay emitted. -/
def Obligations.EncodeSequence : Prop :=
  ∀ (s : State) (xs : List Sym), s.fault = 0 → s.phase = .ready → (∀ x ∈ xs, s.clenAt x ≠ 0) →
    (∃ t, runAll (xs.map .enc) s = .next t ∧ t = { s with trace := t.trace } ∧
      t.trace = s.trace ++ xs.flatMap (fun x => (s.codeBits x).map .bit ++ [.rsp 0x00 0]) ∧
      bitsOf (eventsSince s t) = s.encodeBits xs ∧
      (s.encodeBits xs).length = (xs.map fun x => (s.clenAt x).toNat).sum) ∧
    (∀ (x : Sym) (ys : List Sym), s.clenAt x = 0 →
      ∃ t, runAll ((xs ++ x :: ys).map .enc) s = .next t ∧ bitsOf (eventsSince s t) = s.encodeBits xs ∧
        t = { s with fault := 0x04, finfo := x.setWidth 32, trace := t.trace })

/-- R196: ENCEND emits BITEOS and changes nothing. -/
def Obligations.EncendEndsTheStream : Prop :=
  ∀ s : State, s.fault = 0 →
    (s.phase = .ready → exec .encend s = .next (s.answered [.biteos] 0)) ∧
    (s.phase ≠ .ready → exec .encend s = .next (s.firstFault 0x02 0x31))

/-! ## The decoder -/

/-- R210, R212, R213, R266: DEC. An absent tree or an absent child is E_MALFORMED; a leaf root emits its symbol
whatever the bit; otherwise the bit selects the child, a leaf emits its symbol and CUR returns to ROOT. Where CUR is NIL
below an internal root, which no run reaches, the child is a free value, the model's choice (log 6). -/
def Obligations.DecWalksOneBit : Prop :=
  ∀ (s : State) (b : BitVec 1), s.fault = 0 →
    (s.phase = .tree ∨ s.phase = .ready →
      (s.root = 0x1FF → exec (.dec b) s = .next (s.firstFault 0x05 (b.setWidth 32))) ∧
      (s.root ≠ 0x1FF → (s.nd s.root.toNat).leaf = true →
        exec (.dec b) s = .next (s.answered [.symb (s.nd s.root.toNat).sym] 0)) ∧
      (s.root ≠ 0x1FF → (s.nd s.root.toNat).leaf = false →
        ∃ n : Idx, (s.cur ≠ 0x1FF → n = if b = 1 then (s.nd s.cur.toNat).right else (s.nd s.cur.toNat).left) ∧
          (n = 0x1FF → exec (.dec b) s = .next (s.firstFault 0x05 (b.setWidth 32))) ∧
          (n ≠ 0x1FF → (s.nd n.toNat).leaf = true →
            exec (.dec b) s = .next (State.answered { s with cur := s.root } [.symb (s.nd n.toNat).sym] 0)) ∧
          (n ≠ 0x1FF → (s.nd n.toNat).leaf = false →
            exec (.dec b) s = .next (State.answered { s with cur := n } [] 0)))) ∧
    (s.phase ≠ .tree → s.phase ≠ .ready → exec (.dec b) s = .next (s.firstFault 0x02 0x40))

/-- R215: the symbols that a sequence of DEC emits are those of the walk, and CUR ends where the walk ends; where the
walk of the first part ends at ROOT, the walks concatenate. -/
def Obligations.DecodeSequence : Prop :=
  ∀ (s : State) (bs : List Bool), Inv s → s.fault = 0 → s.phase = .tree ∨ s.phase = .ready → s.root ≠ 0x1FF →
    (∃ t, runAll (decCommands bs) s = .next t ∧ symbolsOf (eventsSince s t) = (s.decodeBits s.cur bs).1 ∧
      bitsOf (eventsSince s t) = [] ∧ t = { s with cur := (s.decodeBits s.cur bs).2, trace := t.trace }) ∧
    (∀ cs ds, (s.decodeBits s.root cs).2 = s.root →
      (s.decodeBits s.root (cs ++ ds)).1 = (s.decodeBits s.root cs).1 ++ (s.decodeBits s.root ds).1)

/-- R212, R213, R216: E_MALFORMED arises exactly where the tree is absent; on a leaf root m DEC, of any bits, emit m
copies of the symbol and leave CUR at ROOT. -/
def Obligations.MalformedOnlyWithoutATree : Prop :=
  ∀ s : State, Inv s → s.fault = 0 → s.phase = .tree ∨ s.phase = .ready →
    (∀ (b : BitVec 1) (t : State) (d : TblWord), exec (.dec b) s = .next t →
      (t.trace.getLast? = some (.rsp 0x05 d) → s.root = 0x1FF) ∧ (s.root ≠ 0x1FF → t.fault = 0)) ∧
    (∀ b : BitVec 1, s.root = 0x1FF → exec (.dec b) s = .next (s.firstFault 0x05 (b.setWidth 32))) ∧
    (s.ndist = 1 → ∀ bs, ∃ t, runAll (decCommands bs) s = .next t ∧
      symbolsOf (eventsSince s t) = List.replicate bs.length (s.nd s.root.toNat).sym ∧
      t = { s with trace := t.trace } ∧ t.cur = s.root)

/-- R211: DECEND drops the partial walk and emits SYMEOS. -/
def Obligations.DecendReturnsToTheRoot : Prop :=
  ∀ s : State, s.fault = 0 →
    (s.phase = .tree ∨ s.phase = .ready →
      exec .decend s = .next (State.answered { s with cur := s.root } [.symeos] 0)) ∧
    (s.phase ≠ .tree → s.phase ≠ .ready → exec .decend s = .next (s.firstFault 0x02 0x41))

/-! ## Readout -/

/-- R230, R267, R76: RD answers the word of a mapped address, in every phase and while halted; an unmapped address
raises E_BADADDR. -/
def Obligations.RdReadsOneWord : Prop :=
  ∀ (s : State) (a : TblAddr),
    (∀ v, s.tblRead a = some v → exec (.rd a) s = .next (s.answered [] v)) ∧
    (s.tblRead a = none → s.fault = 0 → exec (.rd a) s = .next (s.firstFault 0x06 (a.setWidth 32))) ∧
    (s.tblRead a = none → s.fault ≠ 0 →
      exec (.rd a) s = .next { s with trace := s.trace ++ [.rsp 0x06 (a.setWidth 32)] })

/-- R62, R63, R76: the FREQ and CLEN regions, and exactly the listed ranges are unmapped (R61). -/
def Obligations.TableSpaceMap : Prop :=
  ∀ s : State,
    (∀ x : Sym, s.tblRead (BitVec.ofNat 16 x.toNat) = some (s.freqAt x)) ∧
    (∀ x : Sym, s.tblRead (BitVec.ofNat 16 (0x0100 + x.toNat)) = some ((s.clenAt x).setWidth 32)) ∧
    (∀ a : TblAddr, s.tblRead a = none ↔
      (0x0200 ≤ a.toNat ∧ a.toNat ≤ 0x07FF) ∨ (0x17FC ≤ a.toNat ∧ a.toNat ≤ 0x1FFF) ∨ 0x2009 ≤ a.toNat)

/-- R64: bit j of word w of a CBITS entry is bit 32w + j of zext_256(CBITS[x]). -/
def Obligations.CbitsRegion : Prop :=
  ∀ (s : State) (x : Sym) (w : Nat), w < 8 →
    ∃ v, s.tblRead (BitVec.ofNat 16 (0x0800 + 8 * x.toNat + w)) = some v ∧
      ∀ j, j < 32 → v.getLsbD j = (s.cbitsAt x).getLsbD (32 * w + j)

/-- R65: the four words of a node record, field by field. -/
def Obligations.NodeRegion : Prop :=
  ∀ (s : State) (i : Nat), i < 511 →
    (∃ v, s.tblRead (BitVec.ofNat 16 (0x1000 + 4 * i)) = some v ∧ v = (s.nd i).cnt.extractLsb' 0 32) ∧
    (∃ v, s.tblRead (BitVec.ofNat 16 (0x1000 + 4 * i + 1)) = some v ∧
      v.extractLsb' 0 8 = (s.nd i).cnt.extractLsb' 32 8 ∧ v.extractLsb' 8 8 = (s.nd i).sym ∧
      v.getLsbD 16 = (s.nd i).leaf ∧ v.getLsbD 17 = s.inQ i ∧ v.getLsbD 18 = decide (i < s.nnodes.toNat) ∧
      v.extractLsb' 19 13 = 0) ∧
    (∃ v, s.tblRead (BitVec.ofNat 16 (0x1000 + 4 * i + 2)) = some v ∧
      v.extractLsb' 0 9 = (s.nd i).left ∧ v.extractLsb' 9 7 = 0 ∧
      v.extractLsb' 16 9 = (s.nd i).right ∧ v.extractLsb' 25 7 = 0) ∧
    (∃ v, s.tblRead (BitVec.ofNat 16 (0x1000 + 4 * i + 3)) = some v ∧
      v.extractLsb' 0 9 = (s.nd i).parent ∧ v.extractLsb' 9 23 = 0)

/-- R67 to R74: the status registers. -/
def Obligations.StatusRegisters : Prop :=
  ∀ s : State,
    (∃ v, s.tblRead 0x2000 = some v ∧ v.extractLsb' 0 2 = s.phase.code ∧
      (v.getLsbD 2 = true ↔ s.fault ≠ 0) ∧
      (v.getLsbD 3 = true ↔ (s.phase = .tree ∨ s.phase = .ready) ∧ s.root = 0x1FF) ∧
      (v.getLsbD 4 = true ↔ s.root ≠ 0x1FF ∧ (s.nd s.root.toNat).leaf = true) ∧
      v.extractLsb' 5 27 = 0) ∧
    s.tblRead 0x2001 = some (s.fault.setWidth 32) ∧ s.tblRead 0x2002 = some s.finfo ∧
    s.tblRead 0x2003 = some (s.ndist.setWidth 32) ∧ s.tblRead 0x2004 = some (s.nnodes.setWidth 32) ∧
    s.tblRead 0x2005 = some (s.root.setWidth 32) ∧ s.tblRead 0x2006 = some (s.pqlen.setWidth 32) ∧
    s.tblRead 0x2007 = some (s.cur.setWidth 32)

/-- R231: a count is (word1[7:0] << 32) | word0, and bit k of a code is bit k mod 32 of word k div 32 of its entry. -/
def Obligations.MultiWordElements : Prop :=
  ∀ s : State,
    (∀ (i : Nat) (v0 v1 : TblWord), i < 511 → s.tblRead (BitVec.ofNat 16 (0x1000 + 4 * i)) = some v0 →
      s.tblRead (BitVec.ofNat 16 (0x1000 + 4 * i + 1)) = some v1 →
      (s.nd i).cnt = ((v1.extractLsb' 0 8).setWidth 40 <<< 32) ||| v0.setWidth 40) ∧
    (∀ (x : Sym) (n : TblWord), s.tblRead (BitVec.ofNat 16 (0x0100 + x.toNat)) = some n →
      n.toNat = (s.codeBits x).length ∧
      ∀ k, k < n.toNat → ∃ v, s.tblRead (BitVec.ofNat 16 (0x0800 + 8 * x.toNat + k / 32)) = some v ∧
        (s.codeBits x)[k]? = some (v.getLsbD (k % 32)))

/-! ## The whole machine -/

/-- Every step keeps the invariant (R20 to R33, R240, R241), whatever the host does next. -/
def Obligations.EveryStepKeepsTheInvariant : Prop := ∀ s t : State, Inv s → step s = .next t → Inv t

/-- R9, R313: the machine is total on all 2^64 words and all states and never hangs. Whatever word the host presents, in
whatever state, the step gives a next state, takes that word alone and emits data beats and then one response; every
command, and every input of the host, has a next state. No invariant is assumed: in states that no run reaches the
model's free values stand in (log 6, log 7, log 8), and the statement holds whatever they are. -/
def Obligations.NoStepStops : Prop :=
  (∀ (s : State) (w : CmdWord) (rest : List HostInput), s.inputs = .command w :: rest →
    ∃ t beats st d, step s = .next t ∧ t.inputs = rest ∧ t.trace = s.trace ++ (beats ++ [.rsp st d]) ∧
      ∀ e ∈ beats, ∀ st' d', e ≠ .rsp st' d') ∧
  (∀ (i : Instr) (s : State), ∃ t, exec i s = .next t) ∧
  (∀ s : State, ∃ t, step s = .next t)

/-- R240, R28: the finished tree, items 1 to 7, and the decoder's position. -/
def Obligations.FinishedTreeShape : Prop :=
  ∀ s : State, Inv s → s.phase = .tree ∨ s.phase = .ready →
    (s.cur = 0x1FF ↔ s.root = 0x1FF) ∧
    (s.root ≠ 0x1FF →
      s.nnodes.toNat = 2 * s.ndist.toNat - 1 ∧ s.root.toNat = 2 * s.ndist.toNat - 2 ∧ 1 ≤ s.ndist.toNat ∧
      (∀ i, i < s.ndist.toNat → (s.nd i).leaf = true) ∧
      (∀ i j, i < j → j < s.ndist.toNat → (s.nd i).sym.toNat < (s.nd j).sym.toNat) ∧
      (∀ k, s.ndist.toNat ≤ k → k < s.nnodes.toNat →
        (s.nd k).leaf = false ∧ (s.nd k).left ≠ 0x1FF ∧ (s.nd k).right ≠ 0x1FF ∧ (s.nd k).left ≠ (s.nd k).right ∧
        (s.nd k).left.toNat < k ∧ (s.nd k).right.toNat < k ∧
        (s.nd (s.nd k).left.toNat).parent.toNat = k ∧ (s.nd (s.nd k).right.toNat).parent.toNat = k ∧
        (s.nd k).cnt.toNat = (s.nd (s.nd k).left.toNat).cnt.toNat + (s.nd (s.nd k).right.toNat).cnt.toNat) ∧
      (∀ i, i < s.nnodes.toNat → ((s.nd i).parent = 0x1FF ↔ i = s.root.toNat)) ∧
      (∀ x, s.freqAt x ≠ 0 ↔ ∃ i, i < s.ndist.toNat ∧ (s.nd i).sym = x) ∧
      s.ndist.toNat = s.presentSyms.length ∧
      (∀ i, i < s.nnodes.toNat → 1 ≤ (s.nd i).cnt.toNat) ∧
      s.pqlen = 0 ∧ (∀ i, s.inQ i = false) ∧
      (s.cur = s.root ∨ ((s.nd s.cur.toNat).leaf = false ∧ s.cur.toNat < s.root.toNat)))

/-- R241: the forest. The members of the priority structure are the roots of the trees formed so far, every allocated
node is below exactly one of them, by steps to PARENT that do not pass NIL = 511, and their counts add up to the number
of symbols counted. -/
def Obligations.ForestShape : Prop :=
  ∀ s : State, Inv s → s.phase = .forest →
    s.pqlen.toNat = ((List.range 511).filter s.inQ).length ∧
    (2 ≤ s.pqlen.toNat ∨ s.nnodes = s.ndist) ∧
    (∀ i, s.inQ i = true ↔ i < s.nnodes.toNat ∧ (s.nd i).parent = 0x1FF) ∧
    (∀ i, i < s.nnodes.toNat → ∃! r, s.inQ r = true ∧
      ∃ m : Nat, Nat.iterate s.parentOf m i = r ∧ ∀ k, k ≤ m → Nat.iterate s.parentOf k i ≠ 511) ∧
    ((((List.range 511).filter s.inQ).map fun i => (s.nd i).cnt.toNat)).sum = s.freqSum ∧
    ∃ merges, s.nnodes.toNat = s.ndist.toNat + merges ∧ s.pqlen.toNat + merges = s.ndist.toNat

/-- R242: the leaf counts add up to the root's count, which is the sum of FREQ, and each leaf has its symbol's count;
counted by SYM alone that sum is the number of SYM commands. -/
def Obligations.FrequencyConservation : Prop :=
  (∀ s : State, Inv s → s.phase = .tree ∨ s.phase = .ready → s.root ≠ 0x1FF →
    ((List.range s.ndist.toNat).map fun i => (s.nd i).cnt.toNat).sum = (s.nd s.root.toNat).cnt.toNat ∧
    (s.nd s.root.toNat).cnt.toNat = s.freqSum ∧
    ∀ i, i < s.ndist.toNat → (s.nd i).cnt.toNat = (s.freqAt (s.nd i).sym).toNat) ∧
  (∀ (s t : State) (xs : List Sym), s.AtReset → runAll (xs.map .sym) s = .next t → t.fault = 0 →
    t.freqSum = xs.length)

/-- R243: after DERIVE no code is a prefix of another symbol's code. -/
def Obligations.CodesArePrefixFree : Prop :=
  ∀ s : State, Inv s → s.phase = .ready → ∀ x y : Sym, x ≠ y → s.clenAt x ≠ 0 → s.clenAt y ≠ 0 →
    ¬ s.codeBits x <+: s.codeBits y

/-- R244: the round trip, for every finite sequence in which no symbol occurs more than 2^32 - 1 times, from whatever
state the run is started in by CLR. -/
def Obligations.RoundTrip : Prop :=
  ∀ (s : State) (xs : List Sym), (∀ x, xs.count x ≤ 2 ^ 32 - 1) →
    ∃ t u v, runAll (.clr :: (xs.map .sym ++ [.forest, .tree, .derive])) s = .next t ∧ t.fault = 0 ∧
      runAll (xs.map .enc) t = .next u ∧ u.fault = 0 ∧ u.cur = u.root ∧
      bitsOf (eventsSince t u) = t.encodeBits xs ∧
      runAll (decCommands (bitsOf (eventsSince t u))) u = .next v ∧ v.fault = 0 ∧
      symbolsOf (eventsSince u v) = xs ∧ v.cur = v.root

/-- R245: the empty input, from reset. -/
def Obligations.EmptyInput : Prop :=
  ∃ t, runAll [.forest, .tree, .derive, .encend, .decend] State.reset = .next t ∧ t.fault = 0 ∧
    (∀ x, t.freqAt x = 0) ∧ t.ndist = 0 ∧ t.nnodes = 0 ∧ t.root = 0x1FF ∧ (∀ x, t.clenAt x = 0) ∧
    t.trace = [.rsp 0 0, .rsp 0 0, .rsp 0 0, .biteos, .rsp 0 0, .symeos, .rsp 0 0]

/-- R246: two runs whose FREQ tables are equal at FOREST time have identical tables after DERIVE, whether the tree is
built by TREE alone or by some MERGE commands first. -/
def Obligations.RunsAreDeterminedByFreq : Prop :=
  ∀ (s u : State) (m : Nat), Inv s → Inv u → s.fault = 0 → u.fault = 0 → s.phase = .count → u.phase = .count →
    s.freq = u.freq → m + 1 < s.presentSyms.length ∨ m = 0 →
    ∃ t v, runAll [.forest, .tree, .derive] s = .next t ∧
      runAll (.forest :: (List.replicate m .merge ++ [.tree, .derive])) u = .next v ∧
      t.node = v.node ∧ t.nnodes = v.nnodes ∧ t.ndist = v.ndist ∧ t.root = v.root ∧ t.clen = v.clen ∧
      t.cbits = v.cbits

/-- R250: decoding a padded stream gives the sequence, then whatever the padding decodes to, which is nothing exactly
where no prefix of it is a codeword; with one symbol it is one copy for each padding bit. -/
def Obligations.PaddedStreamDecodes : Prop :=
  ∀ (s : State) (xs : List Sym) (ps : List Bool), Inv s → s.phase = .ready → s.root ≠ 0x1FF →
    (∀ x ∈ xs, s.clenAt x ≠ 0) →
    (s.decodeBits s.root (s.encodeBits xs ++ ps)).1 = xs ++ (s.decodeBits s.root ps).1 ∧
    (s.decodeBits s.root (s.encodeBits xs)).2 = s.root ∧
    (2 ≤ s.ndist.toNat →
      ((s.decodeBits s.root ps).1 = [] ↔ ∀ x, s.clenAt x ≠ 0 → ¬ s.codeBits x <+: ps)) ∧
    (s.ndist = 1 → (s.decodeBits s.root ps).1 = List.replicate ps.length (s.nd s.root.toNat).sym)

/-- R251: the Kraft sum of a derived table is 1 for two or more symbols and 1/2 for one (times 2^255). -/
def Obligations.KraftEquality : Prop :=
  ∀ s : State, Inv s → s.phase = .ready →
    (2 ≤ s.ndist.toNat →
      ∑ x : Sym, (if s.clenAt x = 0 then 0 else 2 ^ (255 - (s.clenAt x).toNat)) = 2 ^ 255) ∧
    (s.ndist = 1 →
      ∑ x : Sym, (if s.clenAt x = 0 then 0 else 2 ^ (255 - (s.clenAt x).toNat)) = 2 ^ 254)

/-- R252: the encoded length of the counted input is the sum of the internal counts; with one symbol it is its
count. -/
def Obligations.EncodedLength : Prop :=
  ∀ s : State, Inv s → s.phase = .ready →
    (2 ≤ s.ndist.toNat →
      ∑ x : Sym, (s.freqAt x).toNat * (s.clenAt x).toNat =
        ∑ k ∈ Finset.Ico s.ndist.toNat s.nnodes.toNat, (s.nd k).cnt.toNat) ∧
    (s.ndist = 1 →
      ∑ x : Sym, (s.freqAt x).toNat * (s.clenAt x).toNat = (s.freqAt (s.nd 0).sym).toNat)

/-! ## The ports and the assembler -/

/-- R98, R99, R100, R270: the beats of the two sinks, the layout of the response word, and the fault line. -/
def Obligations.PortBeats : Prop :=
  (∀ b, Event.bitBeat (.bit b) = some { data := b, last := false }) ∧
  Event.bitBeat .biteos = some { data := false, last := true } ∧
  (∀ x, Event.symBeat (.symb x) = some { data := x, last := false }) ∧
  Event.symBeat .symeos = some { data := 0, last := true } ∧
  (∀ st d, ∃ r, Event.rspWord (.rsp st d) = some r ∧ r.extractLsb' 32 8 = st ∧ r.extractLsb' 0 32 = d) ∧
  ∀ s : State, s.faultLine = true ↔ s.fault ≠ 0

/-- R103 to R107: an operand outside its range cannot be assembled, and the pseudo-instructions expand as listed. -/
def Obligations.AssemblerLines : Prop :=
  (∀ n, assembleLine (.sym n) = none ↔ 255 < n) ∧
  (∀ n d, assembleLine (.ldf n d) = none ↔ 255 < n ∨ 0xFFFFFFFF < d) ∧
  (∀ n, assembleLine (.enc n) = none ↔ 255 < n) ∧
  (∀ n, assembleLine (.dec n) = none ↔ 1 < n) ∧
  (∀ n, assembleLine (.rd n) = none ↔ 0xFFFF < n) ∧
  lineCommands .build = [.forest, .tree, .derive] ∧
  (∀ t, lineCommands (.count t) = t.map fun c => .sym (BitVec.ofNat 8 c)) ∧
  (∀ t, lineCommands (.encs t) = t.map fun c => .enc (BitVec.ofNat 8 c)) ∧
  (∀ t, lineCommands (.decb t) = t.map fun b => .dec (BitVec.ofNat 1 b))
end

