-- ==== Sys2Proof/Laws/Encoding.lean ====
section
/-! SUPPORT. The command word as its four fields: the fields of a packed word, a word packed from its fields, and the
test of an opcode-map row field by field (spec/30_encoding.md R90 to R93, R108). -/

namespace Sys2Proof

theorem packWord_op (op : BitVec 8) (a : BitVec 16) (d : BitVec 32) : (packWord op a d).op = op := by
  ext i hi
  simp only [CmdWord.op, packWord, BitVec.getElem_extractLsb', BitVec.getLsbD_or, BitVec.getLsbD_shiftLeft,
    BitVec.getLsbD_setWidth]
  have h1 : a.getLsbD (56 + i - 32) = false := BitVec.getLsbD_of_ge _ _ (by omega)
  have h2 : d.getLsbD (56 + i) = false := BitVec.getLsbD_of_ge _ _ (by omega)
  rw [show 56 + i - 56 = i by omega, h1, h2, BitVec.getLsbD_eq_getElem hi]
  have h3 : 56 + i < 64 := by omega
  have h4 : i < 64 := by omega
  simp [h3, h4]

theorem packWord_rsv (op : BitVec 8) (a : BitVec 16) (d : BitVec 32) : (packWord op a d).rsv = 0 := by
  ext i hi
  simp only [CmdWord.rsv, packWord, BitVec.getElem_extractLsb', BitVec.getLsbD_or, BitVec.getLsbD_shiftLeft,
    BitVec.getLsbD_setWidth]
  have h1 : a.getLsbD (48 + i - 32) = false := BitVec.getLsbD_of_ge _ _ (by omega)
  have h2 : d.getLsbD (48 + i) = false := BitVec.getLsbD_of_ge _ _ (by omega)
  rw [h1, h2]
  have : 48 + i < 56 := by omega
  simp [this]

theorem packWord_a (op : BitVec 8) (a : BitVec 16) (d : BitVec 32) : (packWord op a d).a = a := by
  ext i hi
  simp only [CmdWord.a, packWord, BitVec.getElem_extractLsb', BitVec.getLsbD_or, BitVec.getLsbD_shiftLeft,
    BitVec.getLsbD_setWidth]
  have h2 : d.getLsbD (32 + i) = false := BitVec.getLsbD_of_ge _ _ (by omega)
  rw [show 32 + i - 32 = i by omega, h2, BitVec.getLsbD_eq_getElem hi]
  have h3 : 32 + i < 64 := by omega
  have h4 : i < 64 := by omega
  have h5 : 32 + i < 56 := by omega
  simp [h3, h4, h5]

theorem packWord_d (op : BitVec 8) (a : BitVec 16) (d : BitVec 32) : (packWord op a d).d = d := by
  ext i hi
  simp only [CmdWord.d, packWord, BitVec.getElem_extractLsb', BitVec.getLsbD_or, BitVec.getLsbD_shiftLeft,
    BitVec.getLsbD_setWidth]
  rw [Nat.zero_add, BitVec.getLsbD_eq_getElem hi]
  have h3 : i < 56 := by omega
  have h4 : i < 64 := by omega
  simp [h3, h4, hi]

/-- A bit of a word is a bit of one of its fields. -/
theorem getLsbD_fields (w : CmdWord) (i : Nat) : w.getLsbD i =
    if i < 32 then w.d.getLsbD i else if i < 48 then w.a.getLsbD (i - 32)
    else if i < 56 then w.rsv.getLsbD (i - 48) else w.op.getLsbD (i - 56) := by
  simp only [CmdWord.d, CmdWord.a, CmdWord.rsv, CmdWord.op, BitVec.getLsbD_extractLsb']
  by_cases h1 : i < 32
  · simp [h1]
  · by_cases h2 : i < 48
    · simp [h1, h2, show 32 + (i - 32) = i by omega, show i - 32 < 16 by omega]
    · by_cases h3 : i < 56
      · simp [h1, h2, h3, show 48 + (i - 48) = i by omega, show i - 48 < 8 by omega]
      · by_cases h4 : i < 64
        · simp [h1, h2, h3, show 56 + (i - 56) = i by omega, show i - 56 < 8 by omega]
        · simp [h1, h2, h3, BitVec.getLsbD_of_ge _ _ (Nat.le_of_not_lt h4), show ¬ i - 56 < 8 by omega]

/-- Two words with the same fields are the same word. -/
theorem word_ext {v w : CmdWord} (h1 : v.op = w.op) (h2 : v.rsv = w.rsv) (h3 : v.a = w.a) (h4 : v.d = w.d) :
    v = w := by
  apply BitVec.eq_of_getLsbD_eq
  intro i _
  rw [getLsbD_fields v, getLsbD_fields w, h1, h2, h3, h4]

/-- A word with RSV = 0 is packed from its other fields (R108). -/
theorem packWord_fields {w : CmdWord} (h : w.rsv = 0) : packWord w.op w.a w.d = w :=
  word_ext (packWord_op _ _ _) (by rw [packWord_rsv, h]) (packWord_a _ _ _) (packWord_d _ _ _)

/-- `&` acts field by field. -/
theorem and_op (v w : CmdWord) : (v &&& w).op = v.op &&& w.op := by
  ext i hi; simp [CmdWord.op]

theorem and_rsv (v w : CmdWord) : (v &&& w).rsv = v.rsv &&& w.rsv := by
  ext i hi; simp [CmdWord.rsv]

theorem and_a (v w : CmdWord) : (v &&& w).a = v.a &&& w.a := by
  ext i hi; simp [CmdWord.a]

theorem and_d (v w : CmdWord) : (v &&& w).d = v.d &&& w.d := by
  ext i hi; simp [CmdWord.d]

/-- A row's test, field by field (R93). -/
theorem row_matches_iff (r : OpcodeRow) (w : CmdWord) :
    r.matches w = true ↔ w.op &&& CmdWord.op r.mask = CmdWord.op r.pattern ∧
      w.rsv &&& CmdWord.rsv r.mask = CmdWord.rsv r.pattern ∧
      w.a &&& CmdWord.a r.mask = CmdWord.a r.pattern ∧ w.d &&& CmdWord.d r.mask = CmdWord.d r.pattern := by
  simp only [OpcodeRow.matches, beq_iff_eq]
  constructor
  · intro h
    rw [← and_op, ← and_rsv, ← and_a, ← and_d, h]
    exact ⟨rfl, rfl, rfl, rfl⟩
  · rintro ⟨h1, h2, h3, h4⟩
    exact word_ext (by rw [and_op, h1]) (by rw [and_rsv, h2]) (by rw [and_a, h3]) (by rw [and_d, h4])

/-! ## The masks of operand A -/

theorem and_full8 (x : BitVec 8) : x &&& 0xFF = x := by
  have : (0xFF : BitVec 8) = BitVec.allOnes 8 := by decide
  rw [this, BitVec.and_allOnes]

theorem and_full16 (x : BitVec 16) : x &&& 0xFFFF = x := by
  have : (0xFFFF : BitVec 16) = BitVec.allOnes 16 := by decide
  rw [this, BitVec.and_allOnes]

theorem and_full32 (x : BitVec 32) : x &&& 0xFFFFFFFF = x := by
  have : (0xFFFFFFFF : BitVec 32) = BitVec.allOnes 32 := by decide
  rw [this, BitVec.and_allOnes]

theorem high_byte_zero (a : BitVec 16) : a &&& 0xFF00 = 0 ↔ a.extractLsb' 8 8 = 0 := by
  rw [← BitVec.toNat_inj, ← BitVec.toNat_inj]
  simp only [BitVec.toNat_and, BitVec.extractLsb'_toNat, Nat.shiftRight_eq_div_pow]
  have h : a.toNat < 65536 := a.isLt
  have e : a.toNat &&& 65280 = a.toNat / 256 * 256 := by
    have := Nat.and_two_pow_sub_one_eq_mod a.toNat 8
    apply Nat.eq_of_testBit_eq
    intro i
    rw [Nat.testBit_and, show a.toNat / 256 * 256 = (a.toNat >>> 8) <<< 8 by
      rw [Nat.shiftLeft_eq, Nat.shiftRight_eq_div_pow], Nat.testBit_shiftLeft, Nat.testBit_shiftRight]
    have k : Nat.testBit 65280 i = (decide (8 ≤ i) && decide (i < 16)) := by
      by_cases hi : i < 16
      · have : ∀ j, j < 16 → Nat.testBit 65280 j = (decide (8 ≤ j) && decide (j < 16)) := by decide
        exact this i hi
      · rw [Nat.testBit_lt_two_pow (lt_of_lt_of_le (by norm_num : 65280 < 2 ^ 16) (Nat.pow_le_pow_right (by omega) (by omega)))]
        simp [hi]
    rw [k]
    by_cases h8 : 8 ≤ i
    · by_cases h16 : i < 16
      · simp [h8, h16]
      · have : a.toNat.testBit i = false :=
          Nat.testBit_lt_two_pow (lt_of_lt_of_le h (Nat.pow_le_pow_right (by omega) (by omega) : 2 ^ 16 ≤ 2 ^ i))
        simp [h8, h16, this, show 8 + (i - 8) = i by omega]
    · simp [h8]
  show a.toNat &&& 65280 = 0 ↔ a.toNat / 2 ^ 8 % 2 ^ 8 = 0
  rw [e]
  omega

theorem high_bits_zero (a : BitVec 16) : a &&& 0xFFFE = 0 ↔ a.extractLsb' 1 15 = 0 := by
  constructor
  · intro h
    ext i hi
    have := congrArg (fun v => BitVec.getLsbD v (1 + i)) h
    simp only [BitVec.getLsbD_and] at this
    have k : ∀ j, j < 15 → BitVec.getLsbD (0xFFFE : BitVec 16) (1 + j) = true := by decide
    rw [k i hi, Bool.and_true] at this
    simp [this]
  · intro h
    apply BitVec.eq_of_getLsbD_eq
    intro i hi
    cases i with
    | zero => simp
    | succ i =>
      have := congrArg (fun v => BitVec.getLsbD v i) h
      simp only [BitVec.getLsbD_extractLsb', show i < 15 by omega, decide_true, Bool.true_and] at this
      rw [Nat.add_comm 1 i] at this
      simp [this]

/-! ## The decoder, said once -/

/-- A 16-bit field with a zero high byte is its low byte, zero-extended (R91). -/
theorem high_byte_zero_iff (a : BitVec 16) (x : BitVec 8) :
    a = x.setWidth 16 ↔ a.extractLsb' 8 8 = 0 ∧ a.extractLsb' 0 8 = x := by
  rw [← BitVec.toNat_inj, ← BitVec.toNat_inj, ← BitVec.toNat_inj]
  simp only [BitVec.extractLsb'_toNat, Nat.shiftRight_eq_div_pow, BitVec.toNat_setWidth]
  have z : (0 : BitVec 8).toNat = 0 := rfl
  have := a.isLt
  have := x.isLt
  omega

theorem high_bits_zero_iff (a : BitVec 16) (b : BitVec 1) :
    a = b.setWidth 16 ↔ a.extractLsb' 1 15 = 0 ∧ a.extractLsb' 0 1 = b := by
  rw [← BitVec.toNat_inj, ← BitVec.toNat_inj, ← BitVec.toNat_inj]
  simp only [BitVec.extractLsb'_toNat, Nat.shiftRight_eq_div_pow, BitVec.toNat_setWidth]
  have z : (0 : BitVec 15).toNat = 0 := rfl
  have := a.isLt
  have := b.isLt
  omega

theorem fmtN_ok {c i : Instr} {a : BitVec 16} {d : BitVec 32} :
    fmtN c a d = .ok i ↔ i = c ∧ a = 0 ∧ d = 0 := by
  unfold fmtN
  by_cases h : a = 0 ∧ d = 0
  · rw [if_pos h]; exact ⟨fun e => ⟨(Except.ok.inj e).symm, h⟩, fun e => by rw [e.1]⟩
  · rw [if_neg h]; exact ⟨(fun e => nomatch e), fun e => absurd e.2 h⟩

theorem fmtS_ok {c : Sym → Instr} {i : Instr} {a : BitVec 16} {d : BitVec 32} :
    fmtS c a d = .ok i ↔ ∃ x : Sym, i = c x ∧ a = x.setWidth 16 ∧ d = 0 := by
  simp only [high_byte_zero_iff]
  unfold fmtS
  by_cases h : a.extractLsb' 8 8 = 0 ∧ d = 0
  · rw [if_pos h]
    exact ⟨fun e => ⟨_, (Except.ok.inj e).symm, ⟨h.1, rfl⟩, h.2⟩, fun ⟨_, e, ⟨_, e'⟩, _⟩ => by rw [e, e']⟩
  · rw [if_neg h]; exact ⟨(fun e => nomatch e), fun ⟨_, _, e, e'⟩ => absurd ⟨e.1, e'⟩ h⟩

theorem fmtSD_ok {c : Sym → Freq → Instr} {i : Instr} {a : BitVec 16} {d : BitVec 32} :
    fmtSD c a d = .ok i ↔ ∃ x : Sym, i = c x d ∧ a = x.setWidth 16 := by
  simp only [high_byte_zero_iff]
  unfold fmtSD
  by_cases h : a.extractLsb' 8 8 = 0
  · rw [if_pos h]; exact ⟨fun e => ⟨_, (Except.ok.inj e).symm, h, rfl⟩, fun ⟨_, e, _, e'⟩ => by rw [e, e']⟩
  · rw [if_neg h]; exact ⟨(fun e => nomatch e), fun ⟨_, _, e, _⟩ => absurd e h⟩

theorem fmtB_ok {c : BitVec 1 → Instr} {i : Instr} {a : BitVec 16} {d : BitVec 32} :
    fmtB c a d = .ok i ↔ ∃ b : BitVec 1, i = c b ∧ a = b.setWidth 16 ∧ d = 0 := by
  simp only [high_bits_zero_iff]
  unfold fmtB
  by_cases h : a.extractLsb' 1 15 = 0 ∧ d = 0
  · rw [if_pos h]
    exact ⟨fun e => ⟨_, (Except.ok.inj e).symm, ⟨h.1, rfl⟩, h.2⟩, fun ⟨_, e, ⟨_, e'⟩, _⟩ => by rw [e, e']⟩
  · rw [if_neg h]; exact ⟨(fun e => nomatch e), fun ⟨_, _, e, e'⟩ => absurd ⟨e.1, e'⟩ h⟩

theorem fmtA_ok {c : TblAddr → Instr} {i : Instr} {a : BitVec 16} {d : BitVec 32} :
    fmtA c a d = .ok i ↔ i = c a ∧ d = 0 := by
  unfold fmtA
  by_cases h : d = 0
  · rw [if_pos h]; exact ⟨fun e => ⟨(Except.ok.inj e).symm, h⟩, fun e => by rw [e.1]⟩
  · rw [if_neg h]; exact ⟨(fun e => nomatch e), fun e => absurd e.2 h⟩

/-- Everything the decoder does when it gives a command: RSV is 0 and OP, A and D are those of the command (R109). -/
theorem decode_ok_iff {w : CmdWord} {i : Instr} :
    decode w = .ok i ↔ w.rsv = 0 ∧ w.op = i.opcode ∧ w.a = i.fieldA ∧ w.d = i.fieldD := by
  constructor
  · intro h
    unfold decode at h
    split at h
    · exact absurd h (by simp)
    · rename_i hr
      have hr' : w.rsv = 0 := by simpa using hr
      refine ⟨hr', ?_⟩
      have key : ∀ (k : Nat) (o : BitVec 8), o.toNat = k → w.op.toNat = k → w.op = o := by
        intro k o h1 h2; exact BitVec.toNat_inj.1 (h2.trans h1.symm)
      split at h <;> rename_i hop
      all_goals first
        | (obtain ⟨rfl, h1, h2⟩ := fmtN_ok.1 h; exact ⟨key _ _ rfl hop, h1, h2⟩)
        | (obtain ⟨x, rfl, h1, h2⟩ := fmtS_ok.1 h; exact ⟨key _ _ rfl hop, h1, h2⟩)
        | (obtain ⟨x, rfl, h1⟩ := fmtSD_ok.1 h; exact ⟨key _ _ rfl hop, h1, rfl⟩)
        | (obtain ⟨b, rfl, h1, h2⟩ := fmtB_ok.1 h; exact ⟨key _ _ rfl hop, h1, h2⟩)
        | (obtain ⟨rfl, h2⟩ := fmtA_ok.1 h; exact ⟨key _ _ rfl hop, rfl, h2⟩)
        | exact absurd h (by simp)
  · rintro ⟨hr, ho, ha, hd⟩
    unfold decode
    rw [if_neg (by simp [hr]), ho, ha, hd]
    cases i
    case nop => exact fmtN_ok.2 ⟨rfl, rfl, rfl⟩
    case clr => exact fmtN_ok.2 ⟨rfl, rfl, rfl⟩
    case sym x => exact fmtS_ok.2 ⟨x, rfl, rfl, rfl⟩
    case ldf x d => exact fmtSD_ok.2 ⟨x, rfl, rfl⟩
    case forest => exact fmtN_ok.2 ⟨rfl, rfl, rfl⟩
    case merge => exact fmtN_ok.2 ⟨rfl, rfl, rfl⟩
    case tree => exact fmtN_ok.2 ⟨rfl, rfl, rfl⟩
    case derive => exact fmtN_ok.2 ⟨rfl, rfl, rfl⟩
    case enc x => exact fmtS_ok.2 ⟨x, rfl, rfl, rfl⟩
    case encend => exact fmtN_ok.2 ⟨rfl, rfl, rfl⟩
    case dec b => exact fmtB_ok.2 ⟨b, rfl, rfl, rfl⟩
    case decend => exact fmtN_ok.2 ⟨rfl, rfl, rfl⟩
    case rd a => exact fmtA_ok.2 ⟨rfl, rfl⟩

end Sys2Proof
end

