-- ==== Sys2Proof/Laws/State.lean ====
section
/-! SUPPORT. One lemma per field per update of the state, so that no proof unfolds a record update. -/

namespace Sys2Proof.Machine

variable (s : State)

/-! ## `State.setFreq` -/

@[simp] theorem State.setFreq_freq (x : Sym) (f : Freq) : (s.setFreq x f).freq = s.freq.set x.toNat f := rfl
@[simp] theorem State.setFreq_node (x : Sym) (f : Freq) : (s.setFreq x f).node = s.node := rfl
@[simp] theorem State.setFreq_nnodes (x : Sym) (f : Freq) : (s.setFreq x f).nnodes = s.nnodes := rfl
@[simp] theorem State.setFreq_ndist (x : Sym) (f : Freq) : (s.setFreq x f).ndist = s.ndist := rfl
@[simp] theorem State.setFreq_inq (x : Sym) (f : Freq) : (s.setFreq x f).inq = s.inq := rfl
@[simp] theorem State.setFreq_pqlen (x : Sym) (f : Freq) : (s.setFreq x f).pqlen = s.pqlen := rfl
@[simp] theorem State.setFreq_root (x : Sym) (f : Freq) : (s.setFreq x f).root = s.root := rfl
@[simp] theorem State.setFreq_cur (x : Sym) (f : Freq) : (s.setFreq x f).cur = s.cur := rfl
@[simp] theorem State.setFreq_clen (x : Sym) (f : Freq) : (s.setFreq x f).clen = s.clen := rfl
@[simp] theorem State.setFreq_cbits (x : Sym) (f : Freq) : (s.setFreq x f).cbits = s.cbits := rfl
@[simp] theorem State.setFreq_fault (x : Sym) (f : Freq) : (s.setFreq x f).fault = s.fault := rfl
@[simp] theorem State.setFreq_finfo (x : Sym) (f : Freq) : (s.setFreq x f).finfo = s.finfo := rfl
@[simp] theorem State.setFreq_phase (x : Sym) (f : Freq) : (s.setFreq x f).phase = s.phase := rfl
@[simp] theorem State.setFreq_inputs (x : Sym) (f : Freq) : (s.setFreq x f).inputs = s.inputs := rfl
@[simp] theorem State.setFreq_trace (x : Sym) (f : Freq) : (s.setFreq x f).trace = s.trace := rfl

/-! ## `State.setCode` -/

@[simp] theorem State.setCode_freq (x : Sym) (n : CodeLen) (v : CodeBits) : (s.setCode x n v).freq = s.freq := rfl
@[simp] theorem State.setCode_node (x : Sym) (n : CodeLen) (v : CodeBits) : (s.setCode x n v).node = s.node := rfl
@[simp] theorem State.setCode_nnodes (x : Sym) (n : CodeLen) (v : CodeBits) : (s.setCode x n v).nnodes = s.nnodes := rfl
@[simp] theorem State.setCode_ndist (x : Sym) (n : CodeLen) (v : CodeBits) : (s.setCode x n v).ndist = s.ndist := rfl
@[simp] theorem State.setCode_inq (x : Sym) (n : CodeLen) (v : CodeBits) : (s.setCode x n v).inq = s.inq := rfl
@[simp] theorem State.setCode_pqlen (x : Sym) (n : CodeLen) (v : CodeBits) : (s.setCode x n v).pqlen = s.pqlen := rfl
@[simp] theorem State.setCode_root (x : Sym) (n : CodeLen) (v : CodeBits) : (s.setCode x n v).root = s.root := rfl
@[simp] theorem State.setCode_cur (x : Sym) (n : CodeLen) (v : CodeBits) : (s.setCode x n v).cur = s.cur := rfl
@[simp] theorem State.setCode_clen (x : Sym) (n : CodeLen) (v : CodeBits) : (s.setCode x n v).clen = s.clen.set x.toNat n := rfl
@[simp] theorem State.setCode_cbits (x : Sym) (n : CodeLen) (v : CodeBits) : (s.setCode x n v).cbits = s.cbits.set x.toNat v := rfl
@[simp] theorem State.setCode_fault (x : Sym) (n : CodeLen) (v : CodeBits) : (s.setCode x n v).fault = s.fault := rfl
@[simp] theorem State.setCode_finfo (x : Sym) (n : CodeLen) (v : CodeBits) : (s.setCode x n v).finfo = s.finfo := rfl
@[simp] theorem State.setCode_phase (x : Sym) (n : CodeLen) (v : CodeBits) : (s.setCode x n v).phase = s.phase := rfl
@[simp] theorem State.setCode_inputs (x : Sym) (n : CodeLen) (v : CodeBits) : (s.setCode x n v).inputs = s.inputs := rfl
@[simp] theorem State.setCode_trace (x : Sym) (n : CodeLen) (v : CodeBits) : (s.setCode x n v).trace = s.trace := rfl

/-! ## `State.setNode` -/

@[simp] theorem State.setNode_freq (i : Idx) (n : Node) : (s.setNode i n).freq = s.freq := rfl
@[simp] theorem State.setNode_node (i : Idx) (n : Node) : (s.setNode i n).node = s.node.set i.toNat n := rfl
@[simp] theorem State.setNode_nnodes (i : Idx) (n : Node) : (s.setNode i n).nnodes = s.nnodes := rfl
@[simp] theorem State.setNode_ndist (i : Idx) (n : Node) : (s.setNode i n).ndist = s.ndist := rfl
@[simp] theorem State.setNode_inq (i : Idx) (n : Node) : (s.setNode i n).inq = s.inq := rfl
@[simp] theorem State.setNode_pqlen (i : Idx) (n : Node) : (s.setNode i n).pqlen = s.pqlen := rfl
@[simp] theorem State.setNode_root (i : Idx) (n : Node) : (s.setNode i n).root = s.root := rfl
@[simp] theorem State.setNode_cur (i : Idx) (n : Node) : (s.setNode i n).cur = s.cur := rfl
@[simp] theorem State.setNode_clen (i : Idx) (n : Node) : (s.setNode i n).clen = s.clen := rfl
@[simp] theorem State.setNode_cbits (i : Idx) (n : Node) : (s.setNode i n).cbits = s.cbits := rfl
@[simp] theorem State.setNode_fault (i : Idx) (n : Node) : (s.setNode i n).fault = s.fault := rfl
@[simp] theorem State.setNode_finfo (i : Idx) (n : Node) : (s.setNode i n).finfo = s.finfo := rfl
@[simp] theorem State.setNode_phase (i : Idx) (n : Node) : (s.setNode i n).phase = s.phase := rfl
@[simp] theorem State.setNode_inputs (i : Idx) (n : Node) : (s.setNode i n).inputs = s.inputs := rfl
@[simp] theorem State.setNode_trace (i : Idx) (n : Node) : (s.setNode i n).trace = s.trace := rfl

/-! ## `State.setInq` -/

@[simp] theorem State.setInq_freq (i : Idx) (q : Bool) : (s.setInq i q).freq = s.freq := rfl
@[simp] theorem State.setInq_node (i : Idx) (q : Bool) : (s.setInq i q).node = s.node := rfl
@[simp] theorem State.setInq_nnodes (i : Idx) (q : Bool) : (s.setInq i q).nnodes = s.nnodes := rfl
@[simp] theorem State.setInq_ndist (i : Idx) (q : Bool) : (s.setInq i q).ndist = s.ndist := rfl
@[simp] theorem State.setInq_inq (i : Idx) (q : Bool) : (s.setInq i q).inq = s.inq.set i.toNat q := rfl
@[simp] theorem State.setInq_pqlen (i : Idx) (q : Bool) : (s.setInq i q).pqlen = s.pqlen := rfl
@[simp] theorem State.setInq_root (i : Idx) (q : Bool) : (s.setInq i q).root = s.root := rfl
@[simp] theorem State.setInq_cur (i : Idx) (q : Bool) : (s.setInq i q).cur = s.cur := rfl
@[simp] theorem State.setInq_clen (i : Idx) (q : Bool) : (s.setInq i q).clen = s.clen := rfl
@[simp] theorem State.setInq_cbits (i : Idx) (q : Bool) : (s.setInq i q).cbits = s.cbits := rfl
@[simp] theorem State.setInq_fault (i : Idx) (q : Bool) : (s.setInq i q).fault = s.fault := rfl
@[simp] theorem State.setInq_finfo (i : Idx) (q : Bool) : (s.setInq i q).finfo = s.finfo := rfl
@[simp] theorem State.setInq_phase (i : Idx) (q : Bool) : (s.setInq i q).phase = s.phase := rfl
@[simp] theorem State.setInq_inputs (i : Idx) (q : Bool) : (s.setInq i q).inputs = s.inputs := rfl
@[simp] theorem State.setInq_trace (i : Idx) (q : Bool) : (s.setInq i q).trace = s.trace := rfl

/-! ## `State.emit` -/

@[simp] theorem State.emit_freq (es : List Event) : (s.emit es).freq = s.freq := rfl
@[simp] theorem State.emit_node (es : List Event) : (s.emit es).node = s.node := rfl
@[simp] theorem State.emit_nnodes (es : List Event) : (s.emit es).nnodes = s.nnodes := rfl
@[simp] theorem State.emit_ndist (es : List Event) : (s.emit es).ndist = s.ndist := rfl
@[simp] theorem State.emit_inq (es : List Event) : (s.emit es).inq = s.inq := rfl
@[simp] theorem State.emit_pqlen (es : List Event) : (s.emit es).pqlen = s.pqlen := rfl
@[simp] theorem State.emit_root (es : List Event) : (s.emit es).root = s.root := rfl
@[simp] theorem State.emit_cur (es : List Event) : (s.emit es).cur = s.cur := rfl
@[simp] theorem State.emit_clen (es : List Event) : (s.emit es).clen = s.clen := rfl
@[simp] theorem State.emit_cbits (es : List Event) : (s.emit es).cbits = s.cbits := rfl
@[simp] theorem State.emit_fault (es : List Event) : (s.emit es).fault = s.fault := rfl
@[simp] theorem State.emit_finfo (es : List Event) : (s.emit es).finfo = s.finfo := rfl
@[simp] theorem State.emit_phase (es : List Event) : (s.emit es).phase = s.phase := rfl
@[simp] theorem State.emit_inputs (es : List Event) : (s.emit es).inputs = s.inputs := rfl
@[simp] theorem State.emit_trace (es : List Event) : (s.emit es).trace = s.trace ++ es := rfl

/-! ## `State.cleared` -/

@[simp] theorem State.cleared_freq : s.cleared.freq = State.reset.freq := rfl
@[simp] theorem State.cleared_node : s.cleared.node = State.reset.node := rfl
@[simp] theorem State.cleared_nnodes : s.cleared.nnodes = State.reset.nnodes := rfl
@[simp] theorem State.cleared_ndist : s.cleared.ndist = State.reset.ndist := rfl
@[simp] theorem State.cleared_inq : s.cleared.inq = State.reset.inq := rfl
@[simp] theorem State.cleared_pqlen : s.cleared.pqlen = State.reset.pqlen := rfl
@[simp] theorem State.cleared_root : s.cleared.root = State.reset.root := rfl
@[simp] theorem State.cleared_cur : s.cleared.cur = State.reset.cur := rfl
@[simp] theorem State.cleared_clen : s.cleared.clen = State.reset.clen := rfl
@[simp] theorem State.cleared_cbits : s.cleared.cbits = State.reset.cbits := rfl
@[simp] theorem State.cleared_fault : s.cleared.fault = State.reset.fault := rfl
@[simp] theorem State.cleared_finfo : s.cleared.finfo = State.reset.finfo := rfl
@[simp] theorem State.cleared_phase : s.cleared.phase = State.reset.phase := rfl
@[simp] theorem State.cleared_inputs : s.cleared.inputs = s.inputs := rfl
@[simp] theorem State.cleared_trace : s.cleared.trace = s.trace := rfl

/-! ## `State.setParent` -/

@[simp] theorem State.setParent_freq (i k : Idx) : (s.setParent i k).freq = s.freq := by
  unfold State.setParent; split <;> rfl
@[simp] theorem State.setParent_nnodes (i k : Idx) : (s.setParent i k).nnodes = s.nnodes := by
  unfold State.setParent; split <;> rfl
@[simp] theorem State.setParent_ndist (i k : Idx) : (s.setParent i k).ndist = s.ndist := by
  unfold State.setParent; split <;> rfl
@[simp] theorem State.setParent_inq (i k : Idx) : (s.setParent i k).inq = s.inq := by
  unfold State.setParent; split <;> rfl
@[simp] theorem State.setParent_pqlen (i k : Idx) : (s.setParent i k).pqlen = s.pqlen := by
  unfold State.setParent; split <;> rfl
@[simp] theorem State.setParent_root (i k : Idx) : (s.setParent i k).root = s.root := by
  unfold State.setParent; split <;> rfl
@[simp] theorem State.setParent_cur (i k : Idx) : (s.setParent i k).cur = s.cur := by
  unfold State.setParent; split <;> rfl
@[simp] theorem State.setParent_clen (i k : Idx) : (s.setParent i k).clen = s.clen := by
  unfold State.setParent; split <;> rfl
@[simp] theorem State.setParent_cbits (i k : Idx) : (s.setParent i k).cbits = s.cbits := by
  unfold State.setParent; split <;> rfl
@[simp] theorem State.setParent_fault (i k : Idx) : (s.setParent i k).fault = s.fault := by
  unfold State.setParent; split <;> rfl
@[simp] theorem State.setParent_finfo (i k : Idx) : (s.setParent i k).finfo = s.finfo := by
  unfold State.setParent; split <;> rfl
@[simp] theorem State.setParent_phase (i k : Idx) : (s.setParent i k).phase = s.phase := by
  unfold State.setParent; split <;> rfl
@[simp] theorem State.setParent_inputs (i k : Idx) : (s.setParent i k).inputs = s.inputs := by
  unfold State.setParent; split <;> rfl
@[simp] theorem State.setParent_trace (i k : Idx) : (s.setParent i k).trace = s.trace := by
  unfold State.setParent; split <;> rfl

/-! ## `State.refuseHalted` -/

@[simp] theorem State.refuseHalted_freq : s.refuseHalted.freq = s.freq := rfl
@[simp] theorem State.refuseHalted_node : s.refuseHalted.node = s.node := rfl
@[simp] theorem State.refuseHalted_nnodes : s.refuseHalted.nnodes = s.nnodes := rfl
@[simp] theorem State.refuseHalted_ndist : s.refuseHalted.ndist = s.ndist := rfl
@[simp] theorem State.refuseHalted_inq : s.refuseHalted.inq = s.inq := rfl
@[simp] theorem State.refuseHalted_pqlen : s.refuseHalted.pqlen = s.pqlen := rfl
@[simp] theorem State.refuseHalted_root : s.refuseHalted.root = s.root := rfl
@[simp] theorem State.refuseHalted_cur : s.refuseHalted.cur = s.cur := rfl
@[simp] theorem State.refuseHalted_clen : s.refuseHalted.clen = s.clen := rfl
@[simp] theorem State.refuseHalted_cbits : s.refuseHalted.cbits = s.cbits := rfl
@[simp] theorem State.refuseHalted_fault : s.refuseHalted.fault = s.fault := rfl
@[simp] theorem State.refuseHalted_finfo : s.refuseHalted.finfo = s.finfo := rfl
@[simp] theorem State.refuseHalted_phase : s.refuseHalted.phase = s.phase := rfl
@[simp] theorem State.refuseHalted_inputs : s.refuseHalted.inputs = s.inputs := rfl
@[simp] theorem State.refuseHalted_trace : s.refuseHalted.trace = s.trace ++ [.rsp Config.haltedCode 0] := rfl

/-! ## `State.raise` -/

@[simp] theorem State.raise_freq (c : Cause) (info : TblWord) : (s.raise c info).freq = s.freq := by
  unfold State.raise; split <;> rfl
@[simp] theorem State.raise_node (c : Cause) (info : TblWord) : (s.raise c info).node = s.node := by
  unfold State.raise; split <;> rfl
@[simp] theorem State.raise_nnodes (c : Cause) (info : TblWord) : (s.raise c info).nnodes = s.nnodes := by
  unfold State.raise; split <;> rfl
@[simp] theorem State.raise_ndist (c : Cause) (info : TblWord) : (s.raise c info).ndist = s.ndist := by
  unfold State.raise; split <;> rfl
@[simp] theorem State.raise_inq (c : Cause) (info : TblWord) : (s.raise c info).inq = s.inq := by
  unfold State.raise; split <;> rfl
@[simp] theorem State.raise_pqlen (c : Cause) (info : TblWord) : (s.raise c info).pqlen = s.pqlen := by
  unfold State.raise; split <;> rfl
@[simp] theorem State.raise_root (c : Cause) (info : TblWord) : (s.raise c info).root = s.root := by
  unfold State.raise; split <;> rfl
@[simp] theorem State.raise_cur (c : Cause) (info : TblWord) : (s.raise c info).cur = s.cur := by
  unfold State.raise; split <;> rfl
@[simp] theorem State.raise_clen (c : Cause) (info : TblWord) : (s.raise c info).clen = s.clen := by
  unfold State.raise; split <;> rfl
@[simp] theorem State.raise_cbits (c : Cause) (info : TblWord) : (s.raise c info).cbits = s.cbits := by
  unfold State.raise; split <;> rfl
@[simp] theorem State.raise_fault (c : Cause) (info : TblWord) :
    (s.raise c info).fault = if s.fault = 0 then c.code else s.fault := by
  unfold State.raise; split <;> rfl
@[simp] theorem State.raise_finfo (c : Cause) (info : TblWord) :
    (s.raise c info).finfo = if s.fault = 0 then info else s.finfo := by
  unfold State.raise; split <;> rfl
@[simp] theorem State.raise_phase (c : Cause) (info : TblWord) : (s.raise c info).phase = s.phase := by
  unfold State.raise; split <;> rfl
@[simp] theorem State.raise_inputs (c : Cause) (info : TblWord) : (s.raise c info).inputs = s.inputs := by
  unfold State.raise; split <;> rfl
@[simp] theorem State.raise_trace (c : Cause) (info : TblWord) : (s.raise c info).trace = s.trace ++ [.rsp c.code info] := by
  unfold State.raise; split <;> rfl

/-! ## `State.finalise` -/

@[simp] theorem State.finalise_freq : s.finalise.freq = s.freq := rfl
@[simp] theorem State.finalise_node : s.finalise.node = s.node := rfl
@[simp] theorem State.finalise_nnodes : s.finalise.nnodes = s.nnodes := rfl
@[simp] theorem State.finalise_ndist : s.finalise.ndist = s.ndist := rfl
@[simp] theorem State.finalise_inq : s.finalise.inq = s.inq.set s.pqmin.toNat false := rfl
@[simp] theorem State.finalise_pqlen : s.finalise.pqlen = 0 := rfl
@[simp] theorem State.finalise_root : s.finalise.root = s.pqmin := rfl
@[simp] theorem State.finalise_cur : s.finalise.cur = s.pqmin := rfl
@[simp] theorem State.finalise_clen : s.finalise.clen = s.clen := rfl
@[simp] theorem State.finalise_cbits : s.finalise.cbits = s.cbits := rfl
@[simp] theorem State.finalise_fault : s.finalise.fault = s.fault := rfl
@[simp] theorem State.finalise_finfo : s.finalise.finfo = s.finfo := rfl
@[simp] theorem State.finalise_phase : s.finalise.phase = .tree := rfl
@[simp] theorem State.finalise_inputs : s.finalise.inputs = s.inputs := rfl
@[simp] theorem State.finalise_trace : s.finalise.trace = s.trace := rfl

/-! ## `State.join` -/

@[simp] theorem State.join_freq (t1 t2 : Idx) (c : Cnt) : (s.join t1 t2 c).freq = s.freq := by
  simp [State.join]
@[simp] theorem State.join_nnodes (t1 t2 : Idx) (c : Cnt) : (s.join t1 t2 c).nnodes = nextNode s.nnodes := rfl
@[simp] theorem State.join_ndist (t1 t2 : Idx) (c : Cnt) : (s.join t1 t2 c).ndist = s.ndist := by
  simp [State.join]
@[simp] theorem State.join_pqlen (t1 t2 : Idx) (c : Cnt) : (s.join t1 t2 c).pqlen = s.pqlen - 1 := rfl
@[simp] theorem State.join_root (t1 t2 : Idx) (c : Cnt) : (s.join t1 t2 c).root = s.root := by
  simp [State.join]
@[simp] theorem State.join_cur (t1 t2 : Idx) (c : Cnt) : (s.join t1 t2 c).cur = s.cur := by
  simp [State.join]
@[simp] theorem State.join_clen (t1 t2 : Idx) (c : Cnt) : (s.join t1 t2 c).clen = s.clen := by
  simp [State.join]
@[simp] theorem State.join_cbits (t1 t2 : Idx) (c : Cnt) : (s.join t1 t2 c).cbits = s.cbits := by
  simp [State.join]
@[simp] theorem State.join_fault (t1 t2 : Idx) (c : Cnt) : (s.join t1 t2 c).fault = s.fault := by
  simp [State.join]
@[simp] theorem State.join_finfo (t1 t2 : Idx) (c : Cnt) : (s.join t1 t2 c).finfo = s.finfo := by
  simp [State.join]
@[simp] theorem State.join_phase (t1 t2 : Idx) (c : Cnt) : (s.join t1 t2 c).phase = s.phase := by
  simp [State.join]
@[simp] theorem State.join_inputs (t1 t2 : Idx) (c : Cnt) : (s.join t1 t2 c).inputs = s.inputs := by
  simp [State.join]
@[simp] theorem State.join_trace (t1 t2 : Idx) (c : Cnt) : (s.join t1 t2 c).trace = s.trace := by
  simp [State.join]

end Sys2Proof.Machine
end

