-- ==== Sys2Proof/Laws/Table.lean ====
section
/-! SUPPORT. The laws of `Table`: reading a filled or written table, and extensionality. -/

namespace Sys2Proof

variable {α : Type} {n : Nat}

theorem Table.ext_entries {t u : Table α n} (h : t.entries = u.entries) : t = u := by
  cases t; cases u; simp_all

theorem Table.get?_of_lt (t : Table α n) {i : Nat} (h : i < n) : t.get? i = some (t.get i h) := by
  simp [Table.get?, Table.get]

theorem Table.get?_of_ge (t : Table α n) {i : Nat} (h : n ≤ i) : t.get? i = none := by
  simp [Table.get?, t.size_eq, h]

theorem Table.get?_eq_some_iff (t : Table α n) {i : Nat} {a : α} :
    t.get? i = some a ↔ ∃ h : i < n, t.get i h = a := by
  by_cases h : i < n
  · simp [t.get?_of_lt h, h]
  · simp [t.get?_of_ge (Nat.le_of_not_lt h), h]

theorem Table.get?_eq_none_iff (t : Table α n) {i : Nat} : t.get? i = none ↔ n ≤ i := by
  by_cases h : i < n
  · simp [t.get?_of_lt h, h]
  · simpa [t.get?_of_ge (Nat.le_of_not_lt h)] using h

theorem Table.ext_get? {t u : Table α n} (h : ∀ i, i < n → t.get? i = u.get? i) : t = u := by
  apply Table.ext_entries
  apply List.ext_getElem?
  intro i
  by_cases hi : i < n
  · exact h i hi
  · have ht := t.get?_of_ge (Nat.le_of_not_lt hi)
    have hu := u.get?_of_ge (Nat.le_of_not_lt hi)
    simp only [Table.get?] at ht hu
    rw [ht, hu]

theorem Table.get?_fill (a : α) (i : Nat) : (Table.fill n a).get? i = if i < n then some a else none := by
  simp [Table.get?, Table.fill, List.getElem?_replicate]

@[simp] theorem Table.get_fill (a : α) {i : Nat} (h : i < n) : (Table.fill n a).get i h = a := by
  simp [Table.get, Table.fill]

theorem Table.get?_set (t : Table α n) (i j : Nat) (a : α) :
    (t.set i a).get? j = if i = j ∧ j < n then some a else t.get? j := by
  simp only [Table.get?, Table.set, List.getElem?_set, t.size_eq]
  by_cases hij : i = j <;> by_cases hj : j < n <;> simp_all [t.size_eq]

theorem Table.get_set (t : Table α n) (i j : Nat) (a : α) (h : j < n) :
    (t.set i a).get j h = if i = j then a else t.get j h := by
  have := t.get?_set i j a
  simp only [Table.get?_of_lt _ h, h, and_true] at this
  split at this <;> simp_all

@[simp] theorem Table.get_set_self (t : Table α n) (i : Nat) (a : α) (h : i < n) : (t.set i a).get i h = a := by
  simp [t.get_set]

theorem Table.get_set_ne (t : Table α n) {i j : Nat} (a : α) (h : j < n) (hij : i ≠ j) :
    (t.set i a).get j h = t.get j h := by
  simp [t.get_set, hij]

end Sys2Proof
end

