-- ==== Sys2Proof/Laws/Read.lean ====
section
/-! SUPPORT. Reading the tables after a write: `freqAt`, `clenAt`, `cbitsAt`, `nodeAt`, `nd`, `inQ`. -/

namespace Sys2Proof.Machine

theorem idx_lt_511 {i : Idx} : i.toNat < 511 ↔ i ≠ Config.nil := by
  have := i.isLt
  rw [Config.nil, ne_eq, ← BitVec.toNat_inj]
  simp
  omega

@[simp] theorem nil_toNat : Config.nil.toNat = 511 := rfl

theorem nil_ofNat : Config.nil = BitVec.ofNat 9 511 := rfl

theorem idx_eq_nil {i : Idx} : i = Config.nil ↔ i.toNat = 511 := by
  rw [← BitVec.toNat_inj]; simp

variable (s : State)

/-! ## Reads of symbols -/

theorem State.freqAt_setFreq (x y : Sym) (f : Freq) :
    (s.setFreq x f).freqAt y = if x = y then f else s.freqAt y := by
  simp [State.freqAt, State.setFreq, Table.get_set, BitVec.toNat_inj]

theorem State.clenAt_setCode (x y : Sym) (n : CodeLen) (v : CodeBits) :
    (s.setCode x n v).clenAt y = if x = y then n else s.clenAt y := by
  simp [State.clenAt, State.setCode, Table.get_set, BitVec.toNat_inj]

theorem State.cbitsAt_setCode (x y : Sym) (n : CodeLen) (v : CodeBits) :
    (s.setCode x n v).cbitsAt y = if x = y then v else s.cbitsAt y := by
  simp [State.cbitsAt, State.setCode, Table.get_set, BitVec.toNat_inj]

theorem freqAt_congr {s t : State} (h : t.freq = s.freq) (x : Sym) : t.freqAt x = s.freqAt x := by
  simp [State.freqAt, h]

theorem clenAt_congr {s t : State} (h : t.clen = s.clen) (x : Sym) : t.clenAt x = s.clenAt x := by
  simp [State.clenAt, h]

theorem cbitsAt_congr {s t : State} (h : t.cbits = s.cbits) (x : Sym) : t.cbitsAt x = s.cbitsAt x := by
  simp [State.cbitsAt, h]

/-! ## Reads of records -/

theorem nodeAt_congr {s t : State} (h : t.node = s.node) (i : Idx) : t.nodeAt i = s.nodeAt i := by
  simp [State.nodeAt, h]

theorem nd_congr {s t : State} (h : t.node = s.node) (i : Nat) : t.nd i = s.nd i := by
  simp [State.nd, h]

theorem inQ_congr {s t : State} (h : t.inq = s.inq) (i : Nat) : t.inQ i = s.inQ i := by
  simp [State.inQ, h]

theorem State.nodeAt_of_lt {i : Idx} (h : i.toNat < 511) : s.nodeAt i = some (s.nd i.toNat) := by
  simp [State.nodeAt, State.nd, Table.get?_of_lt _ h]

@[simp] theorem State.nodeAt_nil : s.nodeAt Config.nil = none := by
  simp [State.nodeAt, Table.get?_eq_none_iff]

theorem State.nodeAt_eq_none {i : Idx} : s.nodeAt i = none ↔ i = Config.nil := by
  rw [State.nodeAt, Table.get?_eq_none_iff, idx_eq_nil]
  have := i.isLt
  omega

theorem State.nodeAt_eq_some {i : Idx} {n : Node} : s.nodeAt i = some n ↔ i ≠ Config.nil ∧ n = s.nd i.toNat := by
  by_cases h : i = Config.nil
  · simp [h]
  · rw [s.nodeAt_of_lt (idx_lt_511.2 h)]; simp [h, eq_comm]

theorem State.rootIsLeaf_eq : s.rootIsLeaf = (s.nd s.root.toNat).leaf := by
  unfold State.rootIsLeaf State.nd
  by_cases h : s.root.toNat < 511
  · simp [Table.get?_of_lt _ h]
  · simp [Table.get?_of_ge _ (Nat.le_of_not_lt h), Node.reset]

theorem State.nd_of_ge {i : Nat} (h : 511 ≤ i) : s.nd i = Node.reset := by
  simp [State.nd, Table.get?_of_ge _ h]

theorem State.inQ_of_ge {i : Nat} (h : 511 ≤ i) : s.inQ i = false := by
  simp [State.inQ, Table.get?_of_ge _ h]

theorem State.nd_setNode (k : Idx) (n : Node) (i : Nat) :
    (s.setNode k n).nd i = if k.toNat = i ∧ i < 511 then n else s.nd i := by
  simp only [State.nd, State.setNode_node, Table.get?_set]
  split <;> rfl

theorem State.inQ_setInq (k : Idx) (q : Bool) (i : Nat) :
    (s.setInq k q).inQ i = if k.toNat = i ∧ i < 511 then q else s.inQ i := by
  simp only [State.inQ, State.setInq_inq, Table.get?_set]
  split <;> rfl

@[simp] theorem State.nd_setInq (k : Idx) (q : Bool) (i : Nat) : (s.setInq k q).nd i = s.nd i := rfl

@[simp] theorem State.inQ_setNode (k : Idx) (n : Node) (i : Nat) : (s.setNode k n).inQ i = s.inQ i := rfl

@[simp] theorem State.nodeAt_setInq (k : Idx) (q : Bool) (i : Idx) : (s.setInq k q).nodeAt i = s.nodeAt i := rfl

@[simp] theorem State.inQ_setParent (i k : Idx) (j : Nat) : (s.setParent i k).inQ j = s.inQ j :=
  inQ_congr (by simp) j

theorem State.nd_setParent (i k : Idx) (j : Nat) :
    (s.setParent i k).nd j = if i.toNat = j ∧ j < 511 then { s.nd j with parent := k } else s.nd j := by
  unfold State.setParent
  by_cases h : i = Config.nil
  · subst h
    have hn : ¬ (Config.nil.toNat = j ∧ j < 511) := by rw [nil_toNat]; omega
    rw [if_neg hn, State.nodeAt_nil]
  · rw [s.nodeAt_of_lt (idx_lt_511.2 h)]
    simp only [State.nd_setNode]
    by_cases hj : i.toNat = j ∧ j < 511
    · simp [hj]
    · simp [hj]

theorem nd_reset (i : Nat) : State.reset.nd i = Node.reset := by
  by_cases h : i < 511 <;> simp [State.nd, State.reset, Table.get?_fill, h]

theorem inQ_reset (i : Nat) : State.reset.inQ i = false := by
  by_cases h : i < 511 <;> simp [State.inQ, State.reset, Table.get?_fill, h]

theorem node_ext {s t : State} (h : ∀ i, i < 511 → s.nd i = t.nd i) : s.node = t.node := by
  apply Table.ext_get?
  intro i hi
  have := h i hi
  simpa [State.nd, Table.get?_of_lt _ hi] using this

theorem inq_ext {s t : State} (h : ∀ i, i < 511 → s.inQ i = t.inQ i) : s.inq = t.inq := by
  apply Table.ext_get?
  intro i hi
  have := h i hi
  simpa [State.inQ, Table.get?_of_lt _ hi] using this

/-- A merge writes record `k`, the parents of its two children, and nothing else of the arena. -/
theorem State.nd_join {t1 t2 : Idx} (c : Cnt) (hk : s.nnodes.toNat < 511) (h1 : t1 ≠ s.nnodes) (h2 : t2 ≠ s.nnodes)
    (h1n : t1 ≠ Config.nil) (h2n : t2 ≠ Config.nil) (i : Nat) :
    (s.join t1 t2 c).nd i =
      if i = s.nnodes.toNat then joinNode c t1 t2
      else if i = t1.toNat ∨ i = t2.toNat then { s.nd i with parent := s.nnodes }
      else s.nd i := by
  have e : (s.join t1 t2 c).nd i
      = (((s.setNode s.nnodes (joinNode c t1 t2)).setParent t1 s.nnodes).setParent t2 s.nnodes).nd i := rfl
  have a1 : t1.toNat ≠ s.nnodes.toNat := fun h => h1 (BitVec.toNat_inj.1 h)
  have a2 : t2.toNat ≠ s.nnodes.toNat := fun h => h2 (BitVec.toNat_inj.1 h)
  have b1 := idx_lt_511.2 h1n
  have b2 := idx_lt_511.2 h2n
  rw [e, State.nd_setParent, State.nd_setParent, State.nd_setNode]
  by_cases hik : i = s.nnodes.toNat
  · subst hik
    simp [a1, a2, hk]
  · have hki : s.nnodes.toNat ≠ i := fun h => hik h.symm
    by_cases hi1 : i = t1.toNat
    · subst hi1
      by_cases h12 : t2.toNat = t1.toNat <;> simp [hki, hik, b1, h12]
    · by_cases hi2 : i = t2.toNat
      · subst hi2
        have : t1.toNat ≠ t2.toNat := fun h => hi1 h.symm
        simp [hki, hik, b2, this]
      · have c1 : t1.toNat ≠ i := fun h => hi1 h.symm
        have c2 : t2.toNat ≠ i := fun h => hi2 h.symm
        simp [hik, hi1, hi2, hki, c1, c2]

theorem State.inQ_join (t1 t2 : Idx) (c : Cnt) (hk : s.nnodes.toNat < 511) (i : Nat) :
    (s.join t1 t2 c).inQ i = if i = s.nnodes.toNat then true else s.inQ i := by
  have e : (s.join t1 t2 c).inQ i
      = ((((s.setNode s.nnodes (joinNode c t1 t2)).setParent t1 s.nnodes).setParent t2 s.nnodes).setInq
          s.nnodes true).inQ i := rfl
  rw [e, State.inQ_setInq]
  by_cases hik : i = s.nnodes.toNat
  · subst hik; simp [hk]
  · have : s.nnodes.toNat ≠ i := fun h => hik h.symm
    simp [hik, this]

end Sys2Proof.Machine
end

