-- ==== Sys2Proof/Laws/Priority.lean ====
section
/-! SUPPORT. The priority structure: `leastKey` yields the least key, the keys are those of the members, and the length
and the count sum of the keys as sums over the arena. -/

namespace Sys2Proof.Machine

theorem Key.not_lt_of_lt {a b : Key} (h : Key.Lt a b) : ¬ Key.Lt b a := by
  simp only [Key.Lt, BitVec.lt_def, ← BitVec.toNat_inj] at *
  omega

theorem Key.lt_trans' {a b c : Key} (h : ¬ Key.Lt b a) (g : ¬ Key.Lt c b) : ¬ Key.Lt c a := by
  simp only [Key.Lt, BitVec.lt_def, ← BitVec.toNat_inj] at *
  omega

theorem leastKey_eq_none {ks : List Key} : leastKey ks = none ↔ ks = [] := by
  cases ks with
  | nil => simp [leastKey]
  | cons k ks =>
    simp only [leastKey, reduceCtorEq, iff_false]
    split
    · simp
    · split <;> simp

/-- `leastKey` yields a key of the list, and no key of the list is less. -/
theorem leastKey_spec {ks : List Key} {m : Key} (h : leastKey ks = some m) :
    m ∈ ks ∧ ∀ k ∈ ks, ¬ Key.Lt k m := by
  induction ks generalizing m with
  | nil => simp [leastKey] at h
  | cons k ks ih =>
    simp only [leastKey] at h
    split at h
    · rename_i hn
      obtain rfl := leastKey_eq_none.1 hn
      simp only [Option.some.injEq] at h
      subst h
      simp [Key.Lt]
    · rename_i m' hm'
      obtain ⟨hmem, hmin⟩ := ih hm'
      split at h
      · rename_i hlt
        simp only [Option.some.injEq] at h
        subst h
        refine ⟨List.mem_cons_of_mem _ hmem, ?_⟩
        intro x hx
        rcases List.mem_cons.1 hx with rfl | hx
        · exact Key.not_lt_of_lt hlt
        · exact hmin x hx
      · rename_i hnl
        simp only [Option.some.injEq] at h
        subst h
        refine ⟨List.mem_cons_self, ?_⟩
        intro x hx
        rcases List.mem_cons.1 hx with rfl | hx
        · simp [Key.Lt]
        · exact Key.lt_trans' hnl (hmin x hx)

/-! ## The keys as a sum over the arena -/

theorem keys_aux {α β : Type} (g : Nat → α → β) :
    ∀ (qs : List Bool) (ns : List α) (j : Nat), qs.length = ns.length →
      (((qs.zip ns).zipIdx j).filter fun p => p.1.1).map (fun p => g p.2 p.1.2) =
        ((List.range' j qs.length).filter fun i => (qs[i - j]?).getD false).flatMap
          fun i => ((ns[i - j]?).map (g i)).toList
  | [], ns, j, h => by simp
  | q :: qs, [], j, h => by simp at h
  | q :: qs, n :: ns, j, h => by
    have ih := keys_aux g qs ns (j + 1) (by simpa using h)
    have shift : ∀ i ∈ List.range' (j + 1) qs.length,
        ((q :: qs)[i - j]?).getD false = (qs[i - (j + 1)]?).getD false := by
      intro i hi
      have := List.mem_range'_1.1 hi
      rw [show i - j = (i - (j + 1)) + 1 by omega]; simp
    have shift' : ∀ i ∈ (List.range' (j + 1) qs.length).filter (fun i => (qs[i - (j + 1)]?).getD false),
        (((n :: ns)[i - j]?).map (g i)).toList = ((ns[i - (j + 1)]?).map (g i)).toList := by
      intro i hi
      have := List.mem_range'_1.1 (List.mem_filter.1 hi).1
      rw [show i - j = (i - (j + 1)) + 1 by omega]; simp
    have hr : List.range' j (q :: qs).length = j :: List.range' (j + 1) qs.length := by
      simp [List.range'_succ]
    rw [hr, List.filter_cons, List.filter_congr shift]
    cases q
    · simp only [List.zip_cons_cons, List.zipIdx_cons, List.filter_cons, Nat.sub_self, List.getElem?_cons_zero,
        Option.getD_some, Bool.false_eq_true, if_false]
      rw [ih]
      exact (List.flatMap_congr shift').symm
    · simp only [List.zip_cons_cons, List.zipIdx_cons, List.filter_cons, Nat.sub_self, List.getElem?_cons_zero,
        Option.getD_some, if_true, List.map_cons, List.flatMap_cons, Option.map_some, Option.toList_some]
      rw [ih, List.flatMap_congr shift']
      simp

/-- The members of the priority structure, by ascending index (R25). -/
def State.memberList (s : State) : List Nat := (List.range 511).filter s.inQ

/-- The keys are the keys of the members. -/
theorem State.keys_eq (s : State) :
    s.keys = s.memberList.map fun i => ((s.nd i).cnt, BitVec.ofNat 9 i) := by
  have h := keys_aux (fun i (n : Node) => ((n.cnt, BitVec.ofNat 9 i) : Key)) s.inq.entries s.node.entries 0
    (by rw [s.inq.size_eq, s.node.size_eq])
  unfold State.keys State.memberList
  rw [h, s.inq.size_eq, ← List.range_eq_range', List.map_eq_flatMap]
  simp only [Nat.sub_zero]
  have : (List.range 511).filter (fun i => (s.inq.entries[i]?).getD false) = (List.range 511).filter s.inQ := rfl
  rw [this]
  apply List.flatMap_congr
  intro i hi
  have hi' : i < 511 := List.mem_range.1 (List.mem_filter.1 hi).1
  have : s.node.entries[i]? = some (s.nd i) := by
    have := Table.get?_of_lt s.node hi'
    simp only [Table.get?] at this
    simp [State.nd, Table.get?, this]
  simp [this]

theorem State.mem_keys {s : State} {k : Key} :
    k ∈ s.keys ↔ s.inQ k.2.toNat = true ∧ k.1 = (s.nd k.2.toNat).cnt := by
  rw [State.keys_eq, List.mem_map]
  constructor
  · rintro ⟨i, hi, rfl⟩
    obtain ⟨h1, h2⟩ := List.mem_filter.1 hi
    have : i < 511 := List.mem_range.1 h1
    have e : (BitVec.ofNat 9 i).toNat = i := by simp; omega
    simp only [e]
    exact ⟨h2, trivial⟩
  · rintro ⟨h1, h2⟩
    refine ⟨k.2.toNat, List.mem_filter.2 ⟨List.mem_range.2 ?_, h1⟩, ?_⟩
    · by_contra hc
      rw [s.inQ_of_ge (by omega)] at h1
      exact Bool.noConfusion h1
    · rw [← h2]; simp

/-- `pqmin` is NIL exactly when the priority structure is empty (R26). -/
theorem State.pqmin_eq_nil {s : State} : s.pqmin = Config.nil ↔ ∀ i, s.inQ i = false := by
  constructor
  · intro h i
    unfold State.pqmin at h
    split at h
    · rename_i k hk
      have hm := (State.mem_keys.1 (leastKey_spec hk).1).1
      rw [h, nil_toNat, s.inQ_of_ge (by omega)] at hm
      exact Bool.noConfusion hm
    · rename_i hk
      by_contra hc
      have hc : s.inQ i = true := by simpa using hc
      have hi : i < 511 := by
        by_contra hh
        rw [s.inQ_of_ge (by omega)] at hc
        exact Bool.noConfusion hc
      have e : (BitVec.ofNat 9 i).toNat = i := by simp; omega
      have : ((s.nd i).cnt, BitVec.ofNat 9 i) ∈ s.keys := State.mem_keys.2 (by simp [e, hc])
      rw [leastKey_eq_none.1 hk] at this
      exact absurd this List.not_mem_nil
  · intro h
    unfold State.pqmin
    split
    · rename_i k hk
      have hm := (State.mem_keys.1 (leastKey_spec hk).1).1
      rw [h] at hm
      exact Bool.noConfusion hm
    · rfl

/-- A `pqmin` that is not NIL is a member, and its key is least (R26). -/
theorem State.pqmin_spec {s : State} (h : s.pqmin ≠ Config.nil) :
    s.inQ s.pqmin.toNat = true ∧
      ∀ i : Idx, s.inQ i.toNat = true →
        ¬ Key.Lt ((s.nd i.toNat).cnt, i) ((s.nd s.pqmin.toNat).cnt, s.pqmin) := by
  unfold State.pqmin at h ⊢
  split at h
  · rename_i k hk
    obtain ⟨hm, hmin⟩ := leastKey_spec hk
    obtain ⟨h1, h2⟩ := State.mem_keys.1 hm
    refine ⟨h1, fun i hi => ?_⟩
    have := hmin ((s.nd i.toNat).cnt, i) (State.mem_keys.2 ⟨hi, rfl⟩)
    rw [← h2]
    exact this
  · exact absurd rfl h

theorem State.pqmin_lt {s : State} (h : s.pqmin ≠ Config.nil) : s.pqmin.toNat < 511 := idx_lt_511.2 h

/-! ## Length and sum -/

theorem sum_filter_range (p : Nat → Bool) (f : Nat → Nat) (n : Nat) :
    (((List.range n).filter p).map f).sum = ∑ i ∈ Finset.range n, if p i = true then f i else 0 := by
  induction n with
  | zero => simp
  | succ n ih =>
    rw [List.range_succ, List.filter_append, List.map_append, List.sum_append, ih, Finset.sum_range_succ]
    by_cases h : p n = true <;> simp [h]

theorem State.keys_length (s : State) :
    s.keys.length = ∑ i ∈ Finset.range 511, if s.inQ i = true then 1 else 0 := by
  rw [State.keys_eq, List.length_map, State.memberList, ← sum_filter_range s.inQ (fun _ => 1)]
  simp

theorem State.memberSum_eq (s : State) :
    s.memberSum = ∑ i ∈ Finset.range 511, if s.inQ i = true then (s.nd i).cnt.toNat else 0 := by
  rw [State.memberSum, State.keys_eq, List.map_map, State.memberList, ← sum_filter_range]
  rfl

/-- Removing a member from a sum over the members. -/
theorem sum_remove {p q : Nat → Bool} (f : Nat → Nat) {n t : Nat} (ht : t < n) (hp : p t = true)
    (hq : ∀ i, q i = if t = i then false else p i) :
    (∑ i ∈ Finset.range n, if q i = true then f i else 0) + f t =
      ∑ i ∈ Finset.range n, if p i = true then f i else 0 := by
  have hm : t ∈ Finset.range n := Finset.mem_range.2 ht
  rw [← Finset.sum_erase_add _ _ hm,
    ← Finset.sum_erase_add (Finset.range n) (fun i => if p i = true then f i else 0) hm]
  have e : ∀ i ∈ (Finset.range n).erase t, (if q i = true then f i else 0) = if p i = true then f i else 0 := by
    intro i hi
    have : t ≠ i := fun h => (Finset.mem_erase.1 hi).1 h.symm
    rw [hq, if_neg this]
  rw [Finset.sum_congr rfl e, hq, if_pos rfl, hp]
  simp

/-- The members after a removal. -/
theorem State.inQ_remove (s : State) {t : Idx} (ht : t ≠ Config.nil) (i : Nat) :
    (s.setInq t false).inQ i = if t.toNat = i then false else s.inQ i := by
  rw [State.inQ_setInq]
  have := idx_lt_511.2 ht
  by_cases h : t.toNat = i
  · have : i < 511 := by omega
    simp [h, this]
  · simp [h]

theorem State.keys_length_remove {s : State} {t : Idx} (ht : t ≠ Config.nil) (hq : s.inQ t.toNat = true) :
    (s.setInq t false).keys.length + 1 = s.keys.length := by
  rw [State.keys_length, State.keys_length]
  exact sum_remove (fun _ => 1) (idx_lt_511.2 ht) hq (s.inQ_remove ht)

theorem State.memberSum_remove {s : State} {t : Idx} (ht : t ≠ Config.nil) (hq : s.inQ t.toNat = true) :
    (s.setInq t false).memberSum + (s.nd t.toNat).cnt.toNat = s.memberSum := by
  rw [State.memberSum_eq, State.memberSum_eq]
  exact sum_remove (fun i => (s.nd i).cnt.toNat) (idx_lt_511.2 ht) hq (s.inQ_remove ht)

theorem State.keys_pos {s : State} : 0 < s.keys.length ↔ s.pqmin ≠ Config.nil := by
  rw [List.length_pos_iff, ne_eq, ← leastKey_eq_none, ne_eq, not_iff_not]
  constructor
  · intro h; simp [State.pqmin, h]
  · intro h
    rw [leastKey_eq_none, List.eq_nil_iff_forall_not_mem]
    intro k hk
    have := State.pqmin_eq_nil.1 h k.2.toNat
    rw [(State.mem_keys.1 hk).1] at this
    exact Bool.noConfusion this

end Sys2Proof.Machine
end

