-- ==== Sys2Proof/Laws/Tree.lean ====
section
/-! SUPPORT. Tree construction: what a merge step does, and that it keeps the invariant of the
forest (spec/41_tree_build.md R151, R152, R156 to R158). -/

namespace Sys2Proof.Machine

/-! ## The merge -/

theorem addCounts_some {a b : Cnt} (h : a.toNat + b.toNat < Config.cntLimit) : addCounts (some a) (some b) = a + b :=
  if_pos h

theorem nextNode_of_lt {k : BitVec 9} (h : k.toNat < 511) : nextNode k = k + 1 := if_neg (idx_lt_511.1 h)

/-- A merge of two trees that are there, with a sum that fits (R152). -/
theorem State.mergeTwo_eq {s : State} {t1 t2 : Idx} (e1 : s.pqmin = t1) (e2 : (s.setInq t1 false).pqmin = t2)
    (h1 : t1 ≠ Config.nil) (h2 : t2 ≠ Config.nil)
    (hc : (s.nd t1.toNat).cnt.toNat + (s.nd t2.toNat).cnt.toNat < Config.cntLimit) :
    s.mergeTwo =
      ((s.setInq t1 false).setInq t2 false).join t1 t2 ((s.nd t1.toNat).cnt + (s.nd t2.toNat).cnt) := by
  have a1 := (State.nodeAt_eq_some s).2 ⟨h1, rfl⟩
  have a2 := (State.nodeAt_eq_some s).2 ⟨h2, rfl⟩
  subst e1 e2
  rw [State.mergeTwo, a1, a2]
  exact congrArg _ (addCounts_some hc)

theorem freqSum_le (s : State) : s.freqSum ≤ 256 * (2 ^ 32 - 1) := by
  unfold State.freqSum
  have h : ∀ l : List Freq, (l.map BitVec.toNat).sum ≤ l.length * (2 ^ 32 - 1) := by
    intro l
    induction l with
    | nil => simp
    | cons f fs ih =>
      have := f.isLt
      simp only [List.map_cons, List.sum_cons, List.length_cons]
      omega
  have := h s.freq.entries
  rw [s.freq.size_eq] at this
  exact this

theorem freqSum_congr {s t : State} (h : t.freq = s.freq) : t.freqSum = s.freqSum := by
  simp [State.freqSum, h]

/-- What the two removals yield on a forest with at least two trees: two different allocated roots, a free record and a
sum that fits (R151, R156, R157). -/
theorem ForestOk.two_least {s : State} (h : ForestOk s) (h2 : 2 ≤ s.pqlen.toNat) :
    ∃ t1 t2 : Idx, s.pqmin = t1 ∧ (s.setInq t1 false).pqmin = t2 ∧ t1 ≠ t2 ∧
      s.inQ t1.toNat = true ∧ s.inQ t2.toNat = true ∧
      t1.toNat < s.nnodes.toNat ∧ t2.toNat < s.nnodes.toNat ∧ s.nnodes.toNat < 511 ∧
      (s.nd t1.toNat).cnt.toNat + (s.nd t2.toNat).cnt.toNat < Config.cntLimit := by
  have hl := h.pqlen
  have a1 : s.pqmin ≠ Config.nil := State.keys_pos.1 (by omega)
  have q1 := (State.pqmin_spec a1).1
  have l1 := State.keys_length_remove a1 q1
  have a2 : (s.setInq s.pqmin false).pqmin ≠ Config.nil := State.keys_pos.1 (by omega)
  have q2 := (State.pqmin_spec a2).1
  have m1 := State.memberSum_remove a1 q1
  have m2 := State.memberSum_remove a2 q2
  have hne : s.pqmin ≠ (s.setInq s.pqmin false).pqmin := by
    intro e
    rw [s.inQ_remove a1, if_pos (by rw [← e])] at q2
    exact Bool.noConfusion q2
  have q2' : s.inQ (s.setInq s.pqmin false).pqmin.toNat = true := by
    rw [s.inQ_remove a1, if_neg (fun e => hne (BitVec.toNat_inj.1 e))] at q2
    exact q2
  have alloc : ∀ i, s.inQ i = true → i < s.nnodes.toNat := by
    intro i hi
    by_contra hc
    rw [(h.arena.unallocated i (by omega)).2] at hi
    exact Bool.noConfusion hi
  have hb := freqSum_le s
  have hs := h.sum
  have hn := h.nodes
  have hd := h.arena.dist_le_256
  refine ⟨_, _, rfl, rfl, hne, q1, q2', alloc _ q1, alloc _ q2', by omega, ?_⟩
  rw [State.nd_setInq] at m2
  simp only [Config.cntLimit]
  omega

/-- The invariant of a forest is kept by joining its two least trees (R152). -/
theorem ForestOk.mergeTwo {s : State} (h : ForestOk s) (h2 : 2 ≤ s.pqlen.toNat) :
    ForestOk s.mergeTwo ∧ s.mergeTwo.pqlen.toNat + 1 = s.pqlen.toNat := by
  obtain ⟨t1, t2, e1, e2, hne, q1, q2, b1, b2, hk, hc⟩ := h.two_least h2
  have hne' : t1.toNat ≠ t2.toNat := fun e => hne (BitVec.toNat_inj.1 e)
  have n1 : t1 ≠ Config.nil := idx_lt_511.1 (by omega)
  have n2 : t2 ≠ Config.nil := idx_lt_511.1 (by omega)
  have k1 : t1 ≠ s.nnodes := fun e => by rw [e] at b1; omega
  have k2 : t2 ≠ s.nnodes := fun e => by rw [e] at b2; omega
  have hm := State.mergeTwo_eq e1 e2 n1 n2 hc
  generalize hu : s.mergeTwo = u at hm
  have nd' : ∀ i, u.nd i =
      if i = s.nnodes.toNat then joinNode ((s.nd t1.toNat).cnt + (s.nd t2.toNat).cnt) t1 t2
      else if i = t1.toNat ∨ i = t2.toNat then { s.nd i with parent := s.nnodes } else s.nd i := by
    intro i
    rw [hm]
    exact State.nd_join ((s.setInq t1 false).setInq t2 false) _ hk k1 k2 n1 n2 i
  have inq' : ∀ i, u.inQ i =
      if i = s.nnodes.toNat then true else if i = t1.toNat ∨ i = t2.toNat then false else s.inQ i := by
    intro i
    have hj := State.inQ_join ((s.setInq t1 false).setInq t2 false) t1 t2
      ((s.nd t1.toNat).cnt + (s.nd t2.toNat).cnt) hk i
    rw [hm, hj, State.inQ_remove _ n2, State.inQ_remove _ n1]
    simp only [State.setInq_nnodes]
    by_cases c : i = s.nnodes.toNat
    · simp [c]
    · by_cases d2 : i = t2.toNat
      · simp [d2]
      · by_cases d1 : i = t1.toNat
        · simp [d1]
        · have x1 : t1.toNat ≠ i := fun e => d1 e.symm
          have x2 : t2.toNat ≠ i := fun e => d2 e.symm
          simp [c, d1, d2, x1, x2]
  have hnn : u.nnodes.toNat = s.nnodes.toNat + 1 := by
    rw [hm]
    have one : (1 : BitVec 9).toNat = 1 := rfl
    simp only [State.join_nnodes, State.setInq_nnodes, nextNode_of_lt hk, BitVec.toNat_add, one]
    omega
  have hpl : u.pqlen.toNat + 1 = s.pqlen.toNat := by
    rw [hm]
    have one : (1 : BitVec 9).toNat = 1 := rfl
    simp only [State.join_pqlen, State.setInq_pqlen, BitVec.toNat_sub, one]
    have := s.pqlen.isLt
    omega
  have hnd : u.ndist = s.ndist := by rw [hm]; simp
  have hfr : u.freq = s.freq := by rw [hm]; simp
  have hcnt : ((s.nd t1.toNat).cnt + (s.nd t2.toNat).cnt).toNat =
      (s.nd t1.toNat).cnt.toNat + (s.nd t2.toNat).cnt.toNat := by
    rw [BitVec.toNat_add]
    exact Nat.mod_eq_of_lt hc
  -- reads of the new arena
  have ndk : u.nd s.nnodes.toNat = joinNode ((s.nd t1.toNat).cnt + (s.nd t2.toNat).cnt) t1 t2 := by
    rw [nd', if_pos rfl]
  have leaf' : ∀ i, i ≠ s.nnodes.toNat → (u.nd i).leaf = (s.nd i).leaf ∧ (u.nd i).sym = (s.nd i).sym ∧
      (u.nd i).cnt = (s.nd i).cnt ∧ (u.nd i).left = (s.nd i).left ∧ (u.nd i).right = (s.nd i).right := by
    intro i hi
    rw [nd', if_neg hi]
    split <;> simp
  have par' : ∀ i, i ≠ s.nnodes.toNat → i ≠ t1.toNat → i ≠ t2.toNat → (u.nd i).parent = (s.nd i).parent := by
    intro i hi h1 h2
    rw [nd', if_neg hi, if_neg (by omega)]
  have part : ∀ i, i ≠ s.nnodes.toNat → (i = t1.toNat ∨ i = t2.toNat) → (u.nd i).parent = s.nnodes := by
    intro i hi h1
    rw [nd', if_neg hi, if_pos h1]
  have pnil : ∀ i, (i = t1.toNat ∨ i = t2.toNat) → (s.nd i).parent = Config.nil := by
    rintro i (rfl | rfl)
    · exact (h.members _ b1).1 q1
    · exact (h.members _ b2).1 q2
  have A := h.arena
  have hdk : s.ndist.toNat ≤ s.nnodes.toNat := A.dist_le_nodes
  have knil : s.nnodes ≠ Config.nil := idx_lt_511.1 hk
  refine ⟨⟨⟨?_, ?_, ?_, ?_, ?_, ?_, ?_, ?_⟩, ?_, ?_, ?_, ?_, ?_, ?_⟩, hpl⟩
  · rw [hnd, hnn]; omega
  · rw [hnd]; exact A.dist_le_256
  · intro i hi
    have c0 : i ≠ s.nnodes.toNat := by omega
    have c1 : ¬ (i = t1.toNat ∨ i = t2.toNat) := by omega
    rw [nd', inq', if_neg c0, if_neg c1, if_neg c0, if_neg c1]
    exact A.unallocated i (by omega)
  · intro i hi
    rw [hnd] at hi
    obtain ⟨l1, l2, l3, l4, l5⟩ := leaf' i (by omega)
    rw [l1, l2, l3, l4, l5, State.isPresent, freqAt_congr hfr]
    exact A.leaves i hi
  · intro i j hij hj
    rw [hnd] at hj
    rw [(leaf' i (by omega)).2.1, (leaf' j (by omega)).2.1]
    exact A.ascending i j hij hj
  · intro x hx
    rw [State.isPresent, freqAt_congr hfr] at hx
    obtain ⟨i, hi, hs⟩ := A.complete x hx
    exact ⟨i, by rw [hnd]; exact hi, by rw [(leaf' i (by omega)).2.1]; exact hs⟩
  · intro k hk1 hk2
    rw [hnd] at hk1
    rw [hnn] at hk2
    by_cases hkk : k = s.nnodes.toNat
    · subst hkk
      rw [ndk]
      have p1 := part t1.toNat (by omega) (Or.inl rfl)
      have p2 := part t2.toNat (by omega) (Or.inr rfl)
      have c1 := (leaf' t1.toNat (by omega)).2.2.1
      have c2 := (leaf' t2.toNat (by omega)).2.2.1
      simp only [joinNode]
      rw [p1, p2, c1, c2, hcnt]
      exact ⟨trivial, trivial, b1, b2, hne, rfl, rfl, rfl⟩
    · obtain ⟨g1, g2, g3, g4, g5, g6, g7, g8⟩ := A.internals k hk1 (by omega)
      obtain ⟨l1, l2, l3, l4, l5⟩ := leaf' k hkk
      rw [l1, l2, l3, l4, l5]
      have hl : (s.nd k).left.toNat ≠ t1.toNat ∧ (s.nd k).left.toNat ≠ t2.toNat := by
        constructor <;> intro e
        · have := pnil _ (Or.inl e); rw [this, nil_toNat] at g6; omega
        · have := pnil _ (Or.inr e); rw [this, nil_toNat] at g6; omega
      have hr : (s.nd k).right.toNat ≠ t1.toNat ∧ (s.nd k).right.toNat ≠ t2.toNat := by
        constructor <;> intro e
        · have := pnil _ (Or.inl e); rw [this, nil_toNat] at g7; omega
        · have := pnil _ (Or.inr e); rw [this, nil_toNat] at g7; omega
      rw [par' _ (by omega) hl.1 hl.2, par' _ (by omega) hr.1 hr.2, (leaf' _ (by omega)).2.2.1,
        (leaf' (s.nd k).right.toNat (by omega)).2.2.1]
      exact ⟨g1, g2, g3, g4, g5, g6, g7, g8⟩
  · intro i hi
    rw [hnn] at hi
    rw [hnd, hnn]
    by_cases hik : i = s.nnodes.toNat
    · left; rw [hik, ndk]; rfl
    · by_cases hit : i = t1.toNat ∨ i = t2.toNat
      · right
        rw [part i hik hit, ndk]
        refine ⟨by omega, by omega, ?_⟩
        rcases hit with rfl | rfl
        · exact Or.inl rfl
        · exact Or.inr rfl
      · rw [par' i hik (by omega) (by omega)]
        rcases A.parents i (by omega) with hp | ⟨p1, p2, p3⟩
        · exact Or.inl hp
        · right
          obtain ⟨-, -, -, l4, l5⟩ := leaf' (s.nd i).parent.toNat (by omega)
          rw [l4, l5]
          exact ⟨p1, by omega, p3⟩
  · intro i hi
    rw [hnn] at hi
    rw [inq']
    by_cases hik : i = s.nnodes.toNat
    · rw [if_pos hik, hik, ndk]; simp [joinNode]
    · rw [if_neg hik]
      by_cases hit : i = t1.toNat ∨ i = t2.toNat
      · rw [if_pos hit, part i hik hit]; simp [knil]
      · rw [if_neg hit, par' i hik (by omega) (by omega)]
        exact h.members i (by omega)
  · -- the number of members
    have r1 := State.keys_length_remove n1 q1
    have q2' : (s.setInq t1 false).inQ t2.toNat = true := by rw [s.inQ_remove n1, if_neg hne']; exact q2
    have r2 := State.keys_length_remove n2 q2'
    have r3 : ((s.setInq t1 false).setInq t2 false).keys.length + 1 = u.keys.length := by
      rw [State.keys_length, State.keys_length]
      apply sum_remove (fun _ => 1) hk
      · rw [inq', if_pos rfl]
      · intro i
        rw [State.inQ_remove _ n2, State.inQ_remove _ n1, inq']
        by_cases c : i = s.nnodes.toNat
        · rw [if_pos c.symm]
          have x1 : t1.toNat ≠ i := by omega
          have x2 : t2.toNat ≠ i := by omega
          rw [if_neg x2, if_neg x1, c]
          exact (A.unallocated _ (Nat.le_refl _)).2
        · have c' : s.nnodes.toNat ≠ i := fun e => c e.symm
          rw [if_neg c', if_neg c]
          by_cases d2 : t2.toNat = i
          · simp [d2]
          · by_cases d1 : t1.toNat = i
            · simp [d1]
            · have x1 : i ≠ t1.toNat := fun e => d1 e.symm
              have x2 : i ≠ t2.toNat := fun e => d2 e.symm
              simp [d1, d2, x1, x2]
    have := h.pqlen
    omega
  · have := h.nodes
    rw [hnd, hnn]; omega
  · -- the sum of the members' counts
    have r1 := State.memberSum_remove n1 q1
    have q2' : (s.setInq t1 false).inQ t2.toNat = true := by rw [s.inQ_remove n1, if_neg hne']; exact q2
    have r2 := State.memberSum_remove n2 q2'
    rw [State.nd_setInq] at r2
    have r3 : ((s.setInq t1 false).setInq t2 false).memberSum +
        ((s.nd t1.toNat).cnt.toNat + (s.nd t2.toNat).cnt.toNat) = u.memberSum := by
      have hkc : (u.nd s.nnodes.toNat).cnt.toNat = (s.nd t1.toNat).cnt.toNat + (s.nd t2.toNat).cnt.toNat := by
        rw [ndk]; exact hcnt
      rw [State.memberSum_eq, State.memberSum_eq, ← hkc]
      have e : ∀ i ∈ Finset.range 511,
          (if ((s.setInq t1 false).setInq t2 false).inQ i = true then
            (((s.setInq t1 false).setInq t2 false).nd i).cnt.toNat else 0) =
          if ((s.setInq t1 false).setInq t2 false).inQ i = true then (u.nd i).cnt.toNat else 0 := by
        intro i _
        by_cases c : i = s.nnodes.toNat
        · have x1 : t1.toNat ≠ i := by omega
          have x2 : t2.toNat ≠ i := by omega
          rw [State.inQ_remove _ n2, State.inQ_remove _ n1, if_neg x2, if_neg x1, c,
            (A.unallocated _ (Nat.le_refl _)).2]
          simp
        · simp only [State.nd_setInq]
          rw [(leaf' i c).2.2.1]
      rw [Finset.sum_congr rfl e]
      apply sum_remove (fun i => (u.nd i).cnt.toNat) hk
      · rw [inq', if_pos rfl]
      · intro i
        rw [State.inQ_remove _ n2, State.inQ_remove _ n1, inq']
        by_cases c : i = s.nnodes.toNat
        · rw [if_pos c.symm]
          have x1 : t1.toNat ≠ i := by omega
          have x2 : t2.toNat ≠ i := by omega
          rw [if_neg x2, if_neg x1, c]
          exact (A.unallocated _ (Nat.le_refl _)).2
        · have c' : s.nnodes.toNat ≠ i := fun e => c e.symm
          rw [if_neg c', if_neg c]
          by_cases d2 : t2.toNat = i
          · simp [d2]
          · by_cases d1 : t1.toNat = i
            · simp [d1]
            · have x1 : i ≠ t1.toNat := fun e => d1 e.symm
              have x2 : i ≠ t2.toNat := fun e => d2 e.symm
              simp [d1, d2, x1, x2]
    have := h.sum
    rw [freqSum_congr hfr]
    omega
  · rw [hm]; simp [h.root]
  · rw [hm]; simp [h.cur]

/-! ## The finalisation -/

/-- A forest of at most one tree: none, with no node at all, or the one whose root is the last record. -/
theorem ForestOk.last {s : State} (h : ForestOk s) (h1 : s.pqlen.toNat ≤ 1) :
    (s.ndist = 0 ∧ s.nnodes = 0 ∧ s.pqmin = Config.nil) ∨
    (s.ndist ≠ 0 ∧ s.nnodes.toNat + 1 = 2 * s.ndist.toNat ∧ s.pqmin.toNat + 1 = s.nnodes.toNat ∧
      (∀ i, s.inQ i = true ↔ i = s.pqmin.toNat)) := by
  have A := h.arena
  have top : 0 < s.nnodes.toNat → s.inQ (s.nnodes.toNat - 1) = true := by
    intro hn
    apply (h.members _ (by omega)).2
    rcases A.parents (s.nnodes.toNat - 1) (by omega) with hp | ⟨p1, p2, p3⟩
    · exact hp
    · obtain ⟨-, -, g3, g4, -⟩ := A.internals _ p1 p2
      omega
  by_cases hn : s.nnodes.toNat = 0
  · left
    have hd : s.ndist.toNat = 0 := by have := A.dist_le_nodes; omega
    refine ⟨BitVec.toNat_inj.1 hd, BitVec.toNat_inj.1 hn, State.pqmin_eq_nil.2 fun i => ?_⟩
    exact (A.unallocated i (by omega)).2
  · right
    have ht := top (by omega)
    have hp : s.pqmin ≠ Config.nil := by
      intro e
      rw [State.pqmin_eq_nil.1 e] at ht
      exact Bool.noConfusion ht
    have q := (State.pqmin_spec hp).1
    have l := State.keys_length_remove hp q
    have hl := h.pqlen
    have uniq : ∀ i, s.inQ i = true ↔ i = s.pqmin.toNat := by
      intro i
      constructor
      · intro hi
        by_contra hne
        have : (s.setInq s.pqmin false).inQ i = true := by
          rw [s.inQ_remove hp, if_neg (fun e => hne e.symm)]; exact hi
        have hz : (s.setInq s.pqmin false).pqmin ≠ Config.nil := by
          intro e
          rw [State.pqmin_eq_nil.1 e] at this
          exact Bool.noConfusion this
        have := State.keys_pos.2 hz
        omega
      · rintro rfl; exact q
    have e := (uniq _).1 ht
    have hnodes := h.nodes
    refine ⟨?_, by omega, by omega, uniq⟩
    intro hz
    rw [hz] at hnodes
    simp at hnodes
    omega

/-- The finalisation of a forest of at most one tree is a finished tree, or none (R152, R155). -/
theorem ForestOk.finalise {s : State} (h : ForestOk s) (h1 : s.pqlen.toNat ≤ 1) : TreeOk s.finalise := by
  have A := h.arena
  have fz : s.finalise.freq = s.freq := rfl
  have inq' : ∀ i, s.finalise.inQ i = false := by
    intro i
    have e : s.finalise.inQ i = (s.setInq s.pqmin false).inQ i := rfl
    rw [e]
    rcases h.last h1 with ⟨-, -, hz⟩ | ⟨-, hn, hr, hu⟩
    · rw [State.inQ_setInq]
      have := State.pqmin_eq_nil.1 hz i
      split <;> simp [this]
    · have hp : s.pqmin ≠ Config.nil := idx_lt_511.1 (by have := s.nnodes.isLt; omega)
      rw [s.inQ_remove hp]
      by_cases c : s.pqmin.toNat = i
      · simp [c]
      · rw [if_neg c]
        by_contra hc
        exact c ((hu i).1 (by simpa using hc)).symm
  refine ⟨⟨A.dist_le_nodes, A.dist_le_256, ?_, A.leaves, A.ascending, A.complete, A.internals, A.parents⟩,
    rfl, ?_, ?_, ?_, Or.inl rfl⟩
  · intro i hi
    exact ⟨(A.unallocated i hi).1, inq' i⟩
  · exact inq_ext fun i _ => by rw [inq', inQ_reset]
  · intro hd
    rcases h.last h1 with ⟨-, hn, hz⟩ | ⟨hnd, -⟩
    · exact ⟨hn, hz⟩
    · exact absurd hd hnd
  · intro hd
    rcases h.last h1 with ⟨hz, -⟩ | ⟨-, hn, hr, hu⟩
    · exact absurd hz hd
    · refine ⟨hn, hr, ?_, ?_⟩
      · intro i hi
        show (s.nd i).parent = Config.nil ↔ i = s.pqmin.toNat
        rw [← hu i]
        exact (h.members i hi).symm
      · have hp : s.pqmin ≠ Config.nil := idx_lt_511.1 (by have := s.nnodes.isLt; omega)
        have q := (State.pqmin_spec hp).1
        have m := State.memberSum_remove hp q
        have z : (s.setInq s.pqmin false).memberSum = 0 := by
          rw [State.memberSum_eq]
          apply Finset.sum_eq_zero
          intro i _
          have : (s.setInq s.pqmin false).inQ i = false := inq' i
          simp [this]
        have hs := h.sum
        have : (s.nd s.pqmin.toNat).cnt.toNat = s.freqSum := by omega
        exact this

end Sys2Proof.Machine
end

