-- ==== Sys2Proof/Laws/Merge.lean ====
section
/-! SUPPORT. `mstep` and the loop of TREE: they keep the invariant of the forest, they finalise after
max(PQLEN - 1, 1) steps, and they leave everything but the tree alone (spec/41_tree_build.md R152 to
R158). -/

namespace Sys2Proof.Machine

/-- What tree construction leaves alone. -/
structure TreeFrame (s t : State) : Prop where
  freq : t.freq = s.freq
  ndist : t.ndist = s.ndist
  clen : t.clen = s.clen
  cbits : t.cbits = s.cbits
  fault : t.fault = s.fault
  finfo : t.finfo = s.finfo
  inputs : t.inputs = s.inputs
  trace : t.trace = s.trace

theorem TreeFrame.refl (s : State) : TreeFrame s s := ⟨rfl, rfl, rfl, rfl, rfl, rfl, rfl, rfl⟩

theorem TreeFrame.trans {s t u : State} (h : TreeFrame s t) (g : TreeFrame t u) : TreeFrame s u :=
  ⟨g.freq.trans h.freq, g.ndist.trans h.ndist, g.clen.trans h.clen, g.cbits.trans h.cbits, g.fault.trans h.fault,
    g.finfo.trans h.finfo, g.inputs.trans h.inputs, g.trace.trans h.trace⟩

theorem State.mergeTwo_frame (s : State) : TreeFrame s s.mergeTwo := by
  constructor <;> simp [State.mergeTwo]

@[simp] theorem State.mergeTwo_phase (s : State) : s.mergeTwo.phase = s.phase := by simp [State.mergeTwo]

@[simp] theorem State.mergeTwo_pqlen (s : State) : s.mergeTwo.pqlen = s.pqlen - 1 := by simp [State.mergeTwo]

@[simp] theorem State.mergeTwo_root (s : State) : s.mergeTwo.root = s.root := by simp [State.mergeTwo]

@[simp] theorem State.mergeTwo_cur (s : State) : s.mergeTwo.cur = s.cur := by simp [State.mergeTwo]

theorem State.finalise_frame (s : State) : TreeFrame s s.finalise := by
  constructor <;> simp

theorem State.finaliseIfDone_frame (s : State) : TreeFrame s s.finaliseIfDone := by
  unfold State.finaliseIfDone
  split
  · exact s.finalise_frame
  · exact TreeFrame.refl s

/-- Everything a merge step can do (R152). -/
theorem State.mstep_cases (s : State) :
    (2 ≤ s.pqlen.toNat ∧ s.mstep = s.mergeTwo.finaliseIfDone) ∨ (s.pqlen.toNat ≤ 1 ∧ s.mstep = s.finalise) := by
  unfold State.mstep
  split
  · exact Or.inl ⟨‹_›, rfl⟩
  · exact Or.inr ⟨by omega, if_pos (by omega)⟩

theorem pqlen_pred {s : State} (h2 : 2 ≤ s.pqlen.toNat) : s.mergeTwo.pqlen.toNat + 1 = s.pqlen.toNat := by
  have one : (1 : BitVec 9).toNat = 1 := rfl
  have := s.pqlen.isLt
  rw [State.mergeTwo_pqlen, BitVec.toNat_sub, one]
  omega

/-- A merge step finalises exactly where it is entered with PQLEN ≤ 2, and otherwise lowers PQLEN by one (R158). -/
theorem State.mstep_phase (s : State) :
    (s.pqlen.toNat ≤ 2 ∧ s.mstep.phase = .tree ∧ s.mstep.pqlen = 0) ∨
    (3 ≤ s.pqlen.toNat ∧ s.mstep.phase = s.phase ∧ s.mstep.pqlen.toNat + 1 = s.pqlen.toNat) := by
  rcases s.mstep_cases with ⟨h2, e⟩ | ⟨h1, e⟩
  · have hp := pqlen_pred h2
    rw [e]
    unfold State.finaliseIfDone
    split
    · left; exact ⟨by omega, rfl, rfl⟩
    · right; exact ⟨by omega, s.mergeTwo_phase, hp⟩
  · left; rw [e]; exact ⟨by omega, rfl, rfl⟩

theorem State.mstep_frame (s : State) : TreeFrame s s.mstep := by
  rcases s.mstep_cases with ⟨-, e⟩ | ⟨-, e⟩ <;> rw [e]
  · exact s.mergeTwo_frame.trans s.mergeTwo.finaliseIfDone_frame
  · exact s.finalise_frame

/-- A merge step on a forest that satisfies the invariant keeps the forest, or finishes the tree. -/
theorem ForestOk.mstep {s : State} (h : ForestOk s) :
    (3 ≤ s.pqlen.toNat → ForestOk s.mstep) ∧ (s.pqlen.toNat ≤ 2 → TreeOk s.mstep) := by
  rcases s.mstep_cases with ⟨h2, e⟩ | ⟨h1, e⟩ <;> rw [e]
  · obtain ⟨hf, hp⟩ := h.mergeTwo h2
    refine ⟨fun h3 => ?_, fun h3 => ?_⟩
    · rw [State.finaliseIfDone, if_neg (by omega)]; exact hf
    · rw [State.finaliseIfDone, if_pos (by omega)]; exact hf.finalise (by omega)
  · exact ⟨fun h3 => by omega, fun _ => h.finalise h1⟩

/-! ## The loop -/

theorem mergeLoop_frame (n : Nat) (s : State) : TreeFrame s (mergeLoop n s) := by
  induction n generalizing s with
  | zero => exact TreeFrame.refl s
  | succ n ih =>
    unfold mergeLoop
    split
    · exact s.mstep_frame
    · exact s.mstep_frame.trans (ih _)

/-- The loop ends in P_TREE: no state needs more than PQLEN steps (R158). -/
theorem mergeLoop_phase {n : Nat} {s : State} (hn : s.pqlen.toNat ≤ n) (h0 : 0 < n) :
    (mergeLoop n s).phase = .tree := by
  induction n generalizing s with
  | zero => omega
  | succ n ih =>
    unfold mergeLoop
    split
    · assumption
    · rename_i hp
      rcases s.mstep_phase with ⟨-, h', -⟩ | ⟨h3, -, hl⟩
      · exact absurd h' hp
      · exact ih (by omega) (by omega)

/-- On a forest that satisfies the invariant the loop finishes the tree (R154, R158). -/
theorem ForestOk.mergeLoop {n : Nat} {s : State} (h : ForestOk s) (hn : s.pqlen.toNat ≤ n) (h0 : 0 < n)
    (hp : s.phase = .forest) : TreeOk (mergeLoop n s) := by
  induction n generalizing s with
  | zero => omega
  | succ n ih =>
    unfold Machine.mergeLoop
    rcases s.mstep_phase with ⟨h2, hp', -⟩ | ⟨h3, hp', hl⟩
    · rw [if_pos hp']; exact h.mstep.2 h2
    · rw [if_neg (by rw [hp', hp]; decide)]
      exact ih (h.mstep.1 h3) (by omega) (by omega) (by rw [hp', hp])

end Sys2Proof.Machine
end

