-- ==== Sys2Proof/Laws/Paths.lean ====
section
/-! SUPPORT. Paths in a finished tree: following a bit-string from a node, `pathsFrom` finds exactly such bit-strings,
every allocated node has exactly one from ROOT, and none is longer than NDIST - 1 (spec/42_code_table.md R180, R184). -/

namespace Sys2Proof.Machine

/-- The node reached from `k` by a bit-string: 0 left, 1 right (R180). -/
def State.follow (s : State) : Idx → Code → Option Idx
  | k, [] => some k
  | k, b :: c =>
    if k = Config.nil ∨ (s.nd k.toNat).leaf = true then none else s.follow (s.childOf k b) c

theorem follow_congr {s t : State} (h : t.node = s.node) (k : Idx) (c : Code) : t.follow k c = s.follow k c := by
  induction c generalizing k with
  | nil => rfl
  | cons b c ih =>
    simp only [State.follow, nd_congr h, State.childOf]
    split
    · rfl
    · exact ih _

theorem State.follow_append (s : State) (k : Idx) (c d : Code) :
    s.follow k (c ++ d) = (s.follow k c).bind fun i => s.follow i d := by
  induction c generalizing k with
  | nil => rfl
  | cons b c ih =>
    simp only [List.cons_append, State.follow]
    split
    · rfl
    · exact ih _

theorem pathsFrom_congr {s t : State} (h : t.node = s.node) (f : Nat) (k i : Idx) :
    t.pathsFrom f k i = s.pathsFrom f k i := by
  induction f generalizing k with
  | zero => rfl
  | succ f ih => simp only [State.pathsFrom, nodeAt_congr h, ih]

theorem codeOf_congr {s t : State} (h : t.node = s.node) (hr : t.root = s.root) (i : Idx) :
    t.codeOf i = s.codeOf i := by
  unfold State.codeOf State.path
  rw [State.rootIsLeaf_eq, State.rootIsLeaf_eq, nd_congr h, hr, pathsFrom_congr h]

/-- The bit-strings found are those that lead there, up to the bound on their length. -/
theorem State.mem_pathsFrom {s : State} {f : Nat} {k i : Idx} {c : Code} :
    c ∈ s.pathsFrom f k i ↔ s.follow k c = some i ∧ c.length < f := by
  induction f generalizing k c with
  | zero => simp [State.pathsFrom]
  | succ f ih =>
    unfold State.pathsFrom
    rw [List.mem_append]
    cases c with
    | nil =>
      have h0 : [] ∈ (if k = i then [([] : Code)] else []) ↔ k = i := by split <;> simp_all
      rw [h0]
      simp only [State.follow, Option.some.injEq, List.length_nil, Nat.zero_lt_succ, and_true, or_iff_left_iff_imp]
      intro h
      split at h
      · simp at h
      · split at h <;> simp at h
    | cons b c =>
      have h0 : b :: c ∉ (if k = i then [([] : Code)] else []) := by split <;> simp
      simp only [h0, false_or, State.follow, List.length_cons, Nat.add_lt_add_iff_right]
      by_cases hk : k = Config.nil
      · simp [hk, State.nodeAt_nil]
      · rw [(State.nodeAt_eq_some s).2 ⟨hk, rfl⟩]
        simp only [hk, false_or]
        by_cases hl : (s.nd k.toNat).leaf = true
        · simp [hl]
        · cases b <;> simp [hl, State.childOf, ih]

/-- No bit-string is found twice. -/
theorem State.nodup_pathsFrom {s : State} {f : Nat} {k i : Idx} : (s.pathsFrom f k i).Nodup := by
  have cons : ∀ b : Bool, Function.Injective (fun c : Code => b :: c) := fun _ _ _ h => (List.cons.inj h).2
  induction f generalizing k with
  | zero => exact List.nodup_nil
  | succ f ih =>
    unfold State.pathsFrom
    refine List.Nodup.append (by split <;> simp) ?_ ?_
    · split
      · exact List.nodup_nil
      · split
        · exact List.nodup_nil
        · refine List.Nodup.append (ih.map (cons false)) (ih.map (cons true)) fun c h1 h2 => ?_
          obtain ⟨_, -, rfl⟩ := List.mem_map.1 h1
          obtain ⟨_, -, h⟩ := List.mem_map.1 h2
          simp at h
    · intro c h1 h2
      have : c = [] := by split at h1 <;> simp_all
      subst this
      split at h2
      · simp at h2
      · split at h2 <;> simp at h2

/-- `path` of a node that one bit-string of bounded length leads to, and no other (R180). -/
theorem State.path_of_unique {s : State} {i : Idx} {c : Code} (h : s.follow s.root c = some i)
    (hl : c.length < 2 * Config.nodeMax) (hu : ∀ d, s.follow s.root d = some i → d = c) : s.path i = some c := by
  have e : s.pathsFrom (2 * Config.nodeMax) s.root i = [c] :=
    List.perm_singleton.1 ((List.perm_ext_iff_of_nodup State.nodup_pathsFrom (List.nodup_singleton c)).2 fun d => by
      rw [State.mem_pathsFrom, List.mem_singleton]
      exact ⟨fun g => hu d g.1, fun g => by subst g; exact ⟨h, hl⟩⟩)
  unfold State.path
  rw [e]

/-! ## In a finished tree -/

theorem ArenaOk.nnodes_le {s : State} (_ : ArenaOk s) : s.nnodes.toNat ≤ 511 := by
  have := s.nnodes.isLt; omega

/-- An allocated node that is no leaf is internal, and the other way round. -/
theorem ArenaOk.leaf_iff {s : State} (h : ArenaOk s) {i : Nat} (hi : i < s.nnodes.toNat) :
    (s.nd i).leaf = true ↔ i < s.ndist.toNat := by
  constructor
  · intro hl
    by_contra hc
    rw [(h.internals i (by omega) hi).1] at hl
    exact Bool.noConfusion hl
  · intro hl; exact (h.leaves i hl).1

/-- A child of an internal node is allocated and comes before it. -/
theorem ArenaOk.childOf_lt {s : State} (h : ArenaOk s) {k : Idx} (hk : s.ndist.toNat ≤ k.toNat)
    (hk' : k.toNat < s.nnodes.toNat) (b : Bool) : (s.childOf k b).toNat < k.toNat := by
  obtain ⟨-, -, h3, h4, -⟩ := h.internals _ hk hk'
  unfold State.childOf
  cases b
  · exact h3
  · exact h4

/-- A bit-string leads from an allocated node to an allocated one, and is empty or starts at an internal node and is
at most as long as there are internal nodes up to it (R184). -/
theorem ArenaOk.follow_spec {s : State} (h : ArenaOk s) {k i : Idx} {c : Code} (hk : k.toNat < s.nnodes.toNat)
    (hf : s.follow k c = some i) :
    i.toNat < s.nnodes.toNat ∧
      (c = [] ∨ (s.ndist.toNat ≤ k.toNat ∧ i.toNat < k.toNat ∧ c.length + s.ndist.toNat ≤ k.toNat + 1)) := by
  induction c generalizing k with
  | nil =>
    simp only [State.follow, Option.some.injEq] at hf
    subst hf
    exact ⟨hk, Or.inl rfl⟩
  | cons b c ih =>
    simp only [State.follow] at hf
    split at hf
    · exact absurd hf (by simp)
    · rename_i hkl
      simp only [not_or] at hkl
      have hd : s.ndist.toNat ≤ k.toNat := by
        by_contra hc
        exact hkl.2 ((h.leaf_iff hk).2 (by omega))
      have hlt := h.childOf_lt hd hk b
      obtain ⟨h1, h2⟩ := ih (by omega) hf
      refine ⟨h1, Or.inr ⟨hd, ?_, ?_⟩⟩
      · rcases h2 with rfl | ⟨-, h3, -⟩
        · simp only [State.follow, Option.some.injEq] at hf; subst hf; exact hlt
        · omega
      · rcases h2 with rfl | ⟨-, h3, h4⟩
        · simp; omega
        · simp only [List.length_cons]; omega

/-- An internal node's child, by one bit. -/
theorem ArenaOk.follow_one {s : State} (h : ArenaOk s) {k : Idx} (hd : s.ndist.toNat ≤ k.toNat)
    (hk : k.toNat < s.nnodes.toNat) (b : Bool) : s.follow k [b] = some (s.childOf k b) := by
  have hn : k ≠ Config.nil := idx_lt_511.1 (by have := h.nnodes_le; omega)
  have hl : (s.nd k.toNat).leaf = false := (h.internals _ hd hk).1
  simp [State.follow, hn, hl]

/-- Every allocated node is reached from ROOT (R180). -/
theorem TreeOk.reached {s : State} (h : TreeOk s) {i : Idx} (hi : i.toNat < s.nnodes.toNat) :
    ∃ c, s.follow s.root c = some i := by
  have hnd : s.ndist ≠ 0 := by
    intro e
    rw [(h.absent e).1] at hi
    simp at hi
  obtain ⟨hn, hr, hp, -⟩ := h.present hnd
  generalize hm : 512 - i.toNat = m
  induction m using Nat.strong_induction_on generalizing i with
  | _ m ih =>
    by_cases hir : i.toNat = s.root.toNat
    · exact ⟨[], by simp only [State.follow, BitVec.toNat_inj.1 hir]⟩
    · rcases h.arena.parents i.toNat hi with hz | ⟨p1, p2, p3⟩
      · exact absurd ((hp _ hi).1 hz) hir
      · obtain ⟨-, -, g3, g4, -⟩ := h.arena.internals _ p1 p2
        obtain ⟨c, hc⟩ := ih (512 - (s.nd i.toNat).parent.toNat) (by omega) p2 rfl
        rcases p3 with e | e
        · refine ⟨c ++ [false], ?_⟩
          rw [State.follow_append, hc]
          simp only [Option.bind_some]
          rw [h.arena.follow_one p1 p2]
          simp [State.childOf, BitVec.toNat_inj.1 e]
        · refine ⟨c ++ [true], ?_⟩
          rw [State.follow_append, hc]
          simp only [Option.bind_some]
          rw [h.arena.follow_one p1 p2]
          simp [State.childOf, BitVec.toNat_inj.1 e]

/-- The last edge of a bit-string that leads somewhere. -/
theorem ArenaOk.follow_last {s : State} (h : ArenaOk s) {r i : Idx} {d : Code} {b : Bool}
    (hr : r.toNat < s.nnodes.toNat) (hf : s.follow r (d ++ [b]) = some i) :
    ∃ k : Idx, s.follow r d = some k ∧ s.ndist.toNat ≤ k.toNat ∧ k.toNat < s.nnodes.toNat ∧ s.childOf k b = i := by
  rw [State.follow_append] at hf
  cases hk : s.follow r d with
  | none => rw [hk] at hf; exact absurd hf (by simp)
  | some k =>
    rw [hk] at hf
    simp only [Option.bind_some, State.follow] at hf
    obtain ⟨h1, -⟩ := h.follow_spec hr hk
    split at hf
    · exact absurd hf (by simp)
    · rename_i hkl
      simp only [not_or] at hkl
      have hd : s.ndist.toNat ≤ k.toNat := by
        by_contra hc
        exact hkl.2 ((h.leaf_iff h1).2 (by omega))
      exact ⟨k, rfl, hd, h1, by simpa using hf⟩

/-- The parent of a child, and which child it is. -/
theorem ArenaOk.childOf_inj {s : State} (h : ArenaOk s) {k l : Idx} {a b : Bool}
    (hk : s.ndist.toNat ≤ k.toNat) (hk' : k.toNat < s.nnodes.toNat) (hl : s.ndist.toNat ≤ l.toNat)
    (hl' : l.toNat < s.nnodes.toNat) (e : s.childOf k a = s.childOf l b) : k = l ∧ a = b := by
  have par : ∀ {k : Idx} (a : Bool), s.ndist.toNat ≤ k.toNat → k.toNat < s.nnodes.toNat →
      (s.nd (s.childOf k a).toNat).parent.toNat = k.toNat := by
    intro k a hk hk'
    obtain ⟨-, -, -, -, -, h6, h7, -⟩ := h.internals _ hk hk'
    unfold State.childOf
    cases a
    · exact h6
    · exact h7
  have hkl : k = l := BitVec.toNat_inj.1 (by rw [← par a hk hk', ← par b hl hl', e])
  subst hkl
  refine ⟨rfl, ?_⟩
  obtain ⟨-, -, -, -, h5, -⟩ := h.internals _ hk hk'
  unfold State.childOf at e
  cases a <;> cases b <;> simp_all

/-- Every node is reached from ROOT by one bit-string only (R180). -/
theorem TreeOk.follow_unique {s : State} (h : TreeOk s) (hnd : s.ndist ≠ 0) {i : Idx} {c d : Code}
    (hc : s.follow s.root c = some i) (hd : s.follow s.root d = some i) : c = d := by
  obtain ⟨hn, hr, -, -⟩ := h.present hnd
  have hroot : s.root.toNat < s.nnodes.toNat := by omega
  have top : ∀ {e : Code} {b : Bool} {j : Idx}, s.follow s.root (e ++ [b]) = some j → j ≠ s.root := by
    intro e b j hj hjr
    obtain ⟨k, -, k1, k2, k3⟩ := h.arena.follow_last hroot hj
    have := h.arena.childOf_lt k1 k2 b
    rw [k3, hjr] at this
    omega
  induction c using List.reverseRecOn generalizing i d with
  | nil =>
    simp only [State.follow, Option.some.injEq] at hc
    rcases List.eq_nil_or_concat d with rfl | ⟨d', b, rfl⟩
    · rfl
    · rw [List.concat_eq_append] at hd
      exact absurd hc.symm (top hd)
  | append_singleton c a ih =>
    rcases List.eq_nil_or_concat d with rfl | ⟨d', b, rfl⟩
    · simp only [State.follow, Option.some.injEq] at hd
      exact absurd hd.symm (top hc)
    · rw [List.concat_eq_append] at hd ⊢
      obtain ⟨k, k0, k1, k2, k3⟩ := h.arena.follow_last hroot hc
      obtain ⟨l, l0, l1, l2, l3⟩ := h.arena.follow_last hroot hd
      obtain ⟨rfl, rfl⟩ := h.arena.childOf_inj k1 k2 l1 l2 (k3.trans l3.symm)
      rw [ih k0 l0]

theorem TreeOk.nonempty {s : State} (h : TreeOk s) {i : Idx} (hi : i.toNat < s.nnodes.toNat) : s.ndist ≠ 0 := by
  intro e
  rw [(h.absent e).1] at hi
  simp at hi

/-- `path` of an allocated node of a finished tree: a bit-string of at most NDIST - 1 bits that leads to it from ROOT
(R180, R184). -/
theorem TreeOk.path_spec {s : State} (h : TreeOk s) {i : Idx} (hi : i.toNat < s.nnodes.toNat) :
    ∃ c, s.path i = some c ∧ s.follow s.root c = some i ∧ c.length + 1 ≤ s.ndist.toNat := by
  have hnd : s.ndist ≠ 0 := by
    intro e
    rw [(h.absent e).1] at hi
    simp at hi
  have hnz : s.ndist.toNat ≠ 0 := fun e => hnd (BitVec.toNat_inj.1 e)
  obtain ⟨hn, hr, hp, -⟩ := h.present hnd
  have bound : ∀ c, s.follow s.root c = some i → c.length + 1 ≤ s.ndist.toNat := by
    intro c hc
    rcases (h.arena.follow_spec (by omega) hc).2 with rfl | ⟨-, -, h3⟩
    · simp; omega
    · omega
  obtain ⟨c, hc⟩ := h.reached hi
  have hb := bound c hc
  have h256 := h.arena.dist_le_256
  exact ⟨c, State.path_of_unique hc (by simp [Config.nodeMax]; omega) fun d hd => h.follow_unique hnd hd hc, hc, hb⟩

/-- A root that is a leaf: the one node of a run with one distinct symbol (R155). -/
theorem TreeOk.leaf_root {s : State} (h : TreeOk s) (hnd : s.ndist ≠ 0) (hl : s.rootIsLeaf = true) :
    s.ndist.toNat = 1 ∧ s.nnodes.toNat = 1 ∧ s.root.toNat = 0 := by
  obtain ⟨hn, hr, -, -⟩ := h.present hnd
  rw [State.rootIsLeaf_eq, h.arena.leaf_iff (by omega)] at hl
  omega

/-- Every leaf of a finished tree has a code of 1 to 255 bits (R181, R182, R184). -/
theorem TreeOk.codeOf_spec {s : State} (h : TreeOk s) {i : Idx} (hi : i.toNat < s.ndist.toNat) :
    ∃ c, s.codeOf i = some c ∧ 1 ≤ c.length ∧ c.length ≤ Config.maxLen ∧
      (s.rootIsLeaf = false → s.follow s.root c = some i) := by
  have hnd : s.ndist ≠ 0 := by rintro e; rw [e] at hi; simp at hi
  have hle := h.arena.dist_le_nodes
  have h256 := h.arena.dist_le_256
  by_cases hl : s.rootIsLeaf = true
  · obtain ⟨h1, h2, h3⟩ := h.leaf_root hnd hl
    refine ⟨[false], ?_, by simp, by simp [Config.maxLen], fun h => by rw [hl] at h; exact Bool.noConfusion h⟩
    unfold State.codeOf
    rw [if_pos hl, if_pos (BitVec.toNat_inj.1 (by omega))]
  · obtain ⟨c, hc, hf, hb⟩ := h.path_spec (i := i) (by omega)
    refine ⟨c, ?_, ?_, by simp [Config.maxLen]; omega, fun _ => hf⟩
    · unfold State.codeOf; rw [if_neg hl, hc]
    · by_contra hz
      have : c = [] := List.length_eq_zero_iff.1 (by omega)
      subst this
      simp only [State.follow, Option.some.injEq] at hf
      apply hl
      rw [State.rootIsLeaf_eq, hf, h.arena.leaf_iff (by omega)]
      exact hi

end Sys2Proof.Machine
end

