-- ==== Sys2Proof/Laws/Codes.lean ====
section
/-! SUPPORT. DERIVE: the loop over the leaves of a finished tree writes each leaf's code and nothing else
(spec/42_code_table.md R181 to R184). -/

namespace Sys2Proof.Machine

/-- What DERIVE leaves alone, beside PHASE. -/
structure CodeFrame (s t : State) : Prop where
  freq : t.freq = s.freq
  node : t.node = s.node
  nnodes : t.nnodes = s.nnodes
  ndist : t.ndist = s.ndist
  inq : t.inq = s.inq
  pqlen : t.pqlen = s.pqlen
  root : t.root = s.root
  cur : t.cur = s.cur
  fault : t.fault = s.fault
  finfo : t.finfo = s.finfo
  inputs : t.inputs = s.inputs
  trace : t.trace = s.trace

theorem CodeFrame.refl (s : State) : CodeFrame s s :=
  ⟨rfl, rfl, rfl, rfl, rfl, rfl, rfl, rfl, rfl, rfl, rfl, rfl⟩

theorem CodeFrame.trans {s t u : State} (h : CodeFrame s t) (g : CodeFrame t u) : CodeFrame s u :=
  ⟨g.freq.trans h.freq, g.node.trans h.node, g.nnodes.trans h.nnodes, g.ndist.trans h.ndist, g.inq.trans h.inq,
    g.pqlen.trans h.pqlen, g.root.trans h.root, g.cur.trans h.cur, g.fault.trans h.fault, g.finfo.trans h.finfo,
    g.inputs.trans h.inputs, g.trace.trans h.trace⟩

theorem State.setCode_frame (s : State) (x : Sym) (n : CodeLen) (v : CodeBits) : CodeFrame s (s.setCode x n v) :=
  ⟨rfl, rfl, rfl, rfl, rfl, rfl, rfl, rfl, rfl, rfl, rfl, rfl⟩

theorem State.recordCode_frame (s : State) (i : Idx) : CodeFrame s (s.recordCode i) ∧ (s.recordCode i).phase = s.phase := by
  unfold State.recordCode
  split
  · exact ⟨s.setCode_frame _ _ _, rfl⟩
  · exact ⟨CodeFrame.refl s, rfl⟩

theorem recordCodes_frame (m i : Nat) (s : State) :
    CodeFrame s (recordCodes m i s) ∧ (recordCodes m i s).phase = s.phase := by
  induction m generalizing i s with
  | zero => exact ⟨CodeFrame.refl s, rfl⟩
  | succ m ih =>
    obtain ⟨f1, p1⟩ := s.recordCode_frame (BitVec.ofNat 9 i)
    obtain ⟨f2, p2⟩ := ih (i + 1) (s.recordCode (BitVec.ofNat 9 i))
    exact ⟨f1.trans f2, p2.trans p1⟩

/-- Everything DERIVE's own rule leaves alone. -/
theorem State.deriveCodes_frame (s : State) : CodeFrame s s.deriveCodes ∧ s.deriveCodes.phase = .ready := by
  refine ⟨?_, rfl⟩
  have f : CodeFrame s (if s.root = Config.nil then s else recordCodes s.ndist.toNat 0 s) := by
    split
    · exact CodeFrame.refl s
    · exact (recordCodes_frame _ _ s).1
  exact ⟨f.freq, f.node, f.nnodes, f.ndist, f.inq, f.pqlen, f.root, f.cur, f.fault, f.finfo, f.inputs, f.trace⟩

/-- The entry of a leaf that has a code of at most 255 bits. -/
theorem State.recordCode_eq {s : State} {i : Idx} {c : Code} (hi : i ≠ Config.nil) (hc : s.codeOf i = some c)
    (hl : c.length ≤ Config.maxLen) :
    s.recordCode i = s.setCode (s.nd i.toNat).sym (BitVec.ofNat 8 c.length) (codeVector c) := by
  unfold State.recordCode
  rw [(State.nodeAt_eq_some s).2 ⟨hi, rfl⟩, hc]
  simp only [Option.getD_some, codeLength, if_pos hl]

/-- The loop over leaves with different symbols, each with a code that fits. -/
theorem recordCodes_spec {m i : Nat} {s : State} (hm : i + m ≤ 511)
    (hc : ∀ j, i ≤ j → j < i + m → ∃ c, s.codeOf (BitVec.ofNat 9 j) = some c ∧ c.length ≤ Config.maxLen)
    (hd : ∀ j k, i ≤ j → j < k → k < i + m → (s.nd j).sym ≠ (s.nd k).sym) :
    (∀ j c, i ≤ j → j < i + m → s.codeOf (BitVec.ofNat 9 j) = some c →
      (recordCodes m i s).clenAt (s.nd j).sym = BitVec.ofNat 8 c.length ∧
      (recordCodes m i s).cbitsAt (s.nd j).sym = codeVector c) ∧
    (∀ x, (∀ j, i ≤ j → j < i + m → (s.nd j).sym ≠ x) →
      (recordCodes m i s).clenAt x = s.clenAt x ∧ (recordCodes m i s).cbitsAt x = s.cbitsAt x) := by
  induction m generalizing i s with
  | zero => exact ⟨fun j c h1 h2 => by omega, fun x _ => ⟨rfl, rfl⟩⟩
  | succ m ih =>
    obtain ⟨c, hci, hlen⟩ := hc i (Nat.le_refl _) (by omega)
    have e : (BitVec.ofNat 9 i).toNat = i := by simp; omega
    have hs := State.recordCode_eq (idx_lt_511.1 (by omega)) hci hlen
    rw [e] at hs
    simp only [recordCodes]
    rw [hs]
    generalize hs' : s.setCode (s.nd i).sym (BitVec.ofNat 8 c.length) (codeVector c) = s'
    have nd' : ∀ j, s'.nd j = s.nd j := fun j => by rw [← hs']; rfl
    have co' : ∀ j, s'.codeOf j = s.codeOf j := fun j => codeOf_congr (by rw [← hs']; rfl) (by rw [← hs']; rfl) j
    obtain ⟨t1, t2⟩ := ih (i := i + 1) (s := s') (by omega)
      (fun j h1 h2 => by rw [co']; exact hc j (by omega) (by omega))
      (fun j k h1 h2 h3 => by rw [nd', nd']; exact hd j k (by omega) h2 (by omega))
    refine ⟨?_, ?_⟩
    · intro j d h1 h2 hj
      by_cases hji : j = i
      · subst hji
        rw [hci] at hj
        obtain rfl := Option.some.inj hj
        obtain ⟨g1, g2⟩ := t2 (s.nd j).sym fun k h3 h4 => by
          rw [nd']; exact (hd j k (by omega) (by omega) (by omega)).symm
        rw [g1, g2, ← hs', State.clenAt_setCode, State.cbitsAt_setCode, if_pos rfl, if_pos rfl]
        exact ⟨rfl, rfl⟩
      · have := t1 j d (by omega) (by omega) (by rw [co']; exact hj)
        rw [nd'] at this
        exact this
    · intro x hx
      obtain ⟨g1, g2⟩ := t2 x fun k h3 h4 => by rw [nd']; exact hx k (by omega) (by omega)
      rw [g1, g2, ← hs', State.clenAt_setCode, State.cbitsAt_setCode, if_neg (hx i (by omega) (by omega)),
        if_neg (hx i (by omega) (by omega))]
      exact ⟨rfl, rfl⟩

theorem NoCodes.read {s : State} (h : NoCodes s) (x : Sym) : s.clenAt x = 0 ∧ s.cbitsAt x = 0 := by
  rw [clenAt_congr h.clen, cbitsAt_congr h.cbits]
  simp [State.clenAt, State.cbitsAt, State.reset]

/-- DERIVE on a finished tree, or none, leaves the code of every leaf and nothing else (R181 to R183). -/
theorem TreeOk.deriveCodes {s : State} (h : TreeOk s) (hz : NoCodes s) :
    TreeOk s.deriveCodes ∧ CodesOk s.deriveCodes := by
  have transfer : ∀ {t : State}, CodeFrame s t → TreeOk t := by
    intro t f
    obtain ⟨a, b, c, d, e, g⟩ := h
    have nd' : ∀ j, t.nd j = s.nd j := nd_congr f.node
    have q' : ∀ j, t.inQ j = s.inQ j := inQ_congr f.inq
    have fr : ∀ x, t.freqAt x = s.freqAt x := freqAt_congr f.freq
    refine ⟨⟨?_, ?_, ?_, ?_, ?_, ?_, ?_, ?_⟩, ?_, ?_, ?_, ?_, ?_⟩
    · rw [f.ndist, f.nnodes]; exact a.dist_le_nodes
    · rw [f.ndist]; exact a.dist_le_256
    · simp only [f.nnodes, nd', q']; exact a.unallocated
    · simp only [f.ndist, nd', State.isPresent, fr]; exact a.leaves
    · simp only [f.ndist, nd']; exact a.ascending
    · simp only [f.ndist, nd', State.isPresent, fr]; exact a.complete
    · simp only [f.ndist, f.nnodes, nd']; exact a.internals
    · simp only [f.ndist, f.nnodes, nd']; exact a.parents
    · rw [f.pqlen]; exact b
    · rw [f.inq]; exact c
    · rw [f.ndist, f.nnodes, f.root]; exact d
    · simp only [f.ndist, f.nnodes, f.root, nd', freqSum_congr f.freq]; exact e
    · rw [f.cur, f.root, f.ndist, f.nnodes]; exact g
  have F := s.deriveCodes_frame.1
  refine ⟨transfer F, ?_⟩
  by_cases hr : s.root = Config.nil
  · have e : s.deriveCodes = { s with phase := .ready } := by unfold State.deriveCodes; rw [if_pos hr]
    have hd : s.ndist = 0 := by
      by_contra hc
      obtain ⟨h1, h2, -⟩ := h.present hc
      rw [hr, nil_toNat] at h2
      have := s.nnodes.isLt
      omega
    rw [e]
    refine ⟨fun x _ => hz.read x, fun i hi => ?_⟩
    have hi' : i < s.ndist.toNat := hi
    rw [hd] at hi'
    simp at hi'
  · have hle := h.arena.dist_le_256
    have en : ∀ {j}, j < s.ndist.toNat → (BitVec.ofNat 9 j).toNat = j := by intro j hj; simp; omega
    obtain ⟨t1, t2⟩ := recordCodes_spec (m := s.ndist.toNat) (i := 0) (s := s) (by omega)
      (fun j _ hj => by
        obtain ⟨c, h1, -, h3, -⟩ := h.codeOf_spec (i := BitVec.ofNat 9 j) (by rw [en (by omega)]; omega)
        exact ⟨c, h1, h3⟩)
      (fun j k _ hjk hk e => by
        have := h.arena.ascending j k hjk (by omega)
        rw [e] at this
        omega)
    have e : s.deriveCodes = { recordCodes s.ndist.toNat 0 s with phase := .ready } := by
      unfold State.deriveCodes; rw [if_neg hr]
    rw [e] at F ⊢
    refine ⟨fun x hx => ?_, fun i hi => ?_⟩
    · have hx' : ¬ s.isPresent x := by
        intro hc; exact hx (by rw [State.isPresent, freqAt_congr F.freq]; exact hc)
      obtain ⟨g1, g2⟩ := t2 x fun j _ hj e => hx' (by
        have := (h.arena.leaves j (by omega)).2.2.2.2
        rw [e] at this
        exact this)
      obtain ⟨z1, z2⟩ := hz.read x
      exact ⟨g1.trans z1, g2.trans z2⟩
    · have hi' : i < s.ndist.toNat := by rw [← F.ndist]; exact hi
      obtain ⟨c, h1, h2, h3, -⟩ := h.codeOf_spec (i := BitVec.ofNat 9 i) (by rw [en hi']; exact hi')
      obtain ⟨g1, g2⟩ := t1 i c (by omega) (by omega) h1
      have nd' := nd_congr F.node i
      refine ⟨c, ?_, h2, h3, ?_, ?_⟩
      · rw [codeOf_congr F.node F.root]; exact h1
      · rw [nd']; exact g1
      · rw [nd']; exact g2

end Sys2Proof.Machine
end

