-- ==== Sys2Proof/Laws/Forest.lean ====
section
/-! SUPPORT. FOREST: the present symbols, the leaves it places, and the invariant of the forest it leaves
(spec/41_tree_build.md R150). -/

namespace Sys2Proof.Machine

/-! ## The present symbols -/

/-- The symbols with a non-zero count, as numbers in ascending order. -/
def State.presentList (s : State) : List Nat :=
  (List.range 256).filter fun i => decide ((s.freq.entries[i]?).getD 0 ≠ 0)

theorem filter_zipIdx {α β : Type} (d : α) (p : α → Bool) (g : α → Nat → β) :
    ∀ (l : List α) (j : Nat),
      ((l.zipIdx j).filter fun e => p e.1).map (fun e => g e.1 e.2) =
        ((List.range' j l.length).filter fun i => p ((l[i - j]?).getD d)).map
          fun i => g ((l[i - j]?).getD d) i
  | [], j => by simp
  | a :: l, j => by
    have ih := filter_zipIdx d p g l (j + 1)
    have shift : ∀ i ∈ List.range' (j + 1) l.length, ((a :: l)[i - j]?).getD d = (l[i - (j + 1)]?).getD d := by
      intro i hi
      have := List.mem_range'_1.1 hi
      rw [show i - j = (i - (j + 1)) + 1 by omega]; simp
    have hr : List.range' j (a :: l).length = j :: List.range' (j + 1) l.length := by
      simp [List.range'_succ]
    have hf : (List.range' (j + 1) l.length).filter (fun i => p (((a :: l)[i - j]?).getD d)) =
        (List.range' (j + 1) l.length).filter (fun i => p ((l[i - (j + 1)]?).getD d)) :=
      List.filter_congr fun i hi => by rw [shift i hi]
    have hm : ((List.range' (j + 1) l.length).filter (fun i => p ((l[i - (j + 1)]?).getD d))).map
          (fun i => g (((a :: l)[i - j]?).getD d) i) =
        ((List.range' (j + 1) l.length).filter (fun i => p ((l[i - (j + 1)]?).getD d))).map
          (fun i => g ((l[i - (j + 1)]?).getD d) i) :=
      List.map_congr_left fun i hi => by rw [shift i (List.mem_filter.1 hi).1]
    rw [hr, List.filter_cons, hf, List.zipIdx_cons, List.filter_cons]
    simp only [Nat.sub_self, List.getElem?_cons_zero, Option.getD_some]
    cases p a
    · simp only [Bool.false_eq_true, if_false]; rw [ih, hm]
    · simp only [if_true, List.map_cons, Nat.sub_self, List.getElem?_cons_zero, Option.getD_some]; rw [ih, hm]

theorem State.present_eq (s : State) :
    s.present = s.presentList.map fun i => (BitVec.ofNat 8 i, (s.freq.entries[i]?).getD 0) := by
  have h := filter_zipIdx (0 : Freq) (fun f => decide (f ≠ 0)) (fun f i => ((BitVec.ofNat 8 i, f) : Sym × Freq))
    s.freq.entries 0
  unfold State.present State.presentList
  rw [h, s.freq.size_eq, ← List.range_eq_range']
  simp

theorem freq_entry (s : State) {i : Nat} (hi : i < 256) :
    (s.freq.entries[i]?).getD 0 = s.freqAt (BitVec.ofNat 8 i) := by
  have h := s.freq.get?_of_lt hi
  have e : (BitVec.ofNat 8 i).toNat = i := by simp; omega
  simp only [Table.get?] at h
  simp only [h, Option.getD_some, State.freqAt, e]

/-- FOREST's list holds exactly the symbols with a non-zero count, each with its count (R21, R150). -/
theorem State.mem_present {s : State} {p : Sym × Freq} :
    p ∈ s.present ↔ p.2 = s.freqAt p.1 ∧ s.isPresent p.1 := by
  rw [State.present_eq, List.mem_map]
  constructor
  · rintro ⟨i, hi, rfl⟩
    obtain ⟨h1, h2⟩ := List.mem_filter.1 hi
    have hlt := List.mem_range.1 h1
    rw [freq_entry s hlt] at h2 ⊢
    exact ⟨rfl, of_decide_eq_true h2⟩
  · rintro ⟨h1, h2⟩
    have hlt : p.1.toNat < 256 := p.1.isLt
    have e : BitVec.ofNat 8 p.1.toNat = p.1 := by simp
    refine ⟨p.1.toNat, List.mem_filter.2 ⟨List.mem_range.2 hlt, ?_⟩, ?_⟩
    · rw [freq_entry s hlt, e]; exact decide_eq_true h2
    · rw [freq_entry s hlt, e, ← h1]

theorem State.presentList_sorted (s : State) : s.presentList.Pairwise (· < ·) :=
  List.Pairwise.filter _ List.pairwise_lt_range

/-- FOREST's list is in ascending order of symbol value (R150). -/
theorem State.present_sorted (s : State) : s.present.Pairwise fun p q => p.1.toNat < q.1.toNat := by
  rw [State.present_eq, List.pairwise_map]
  refine List.Pairwise.imp_of_mem ?_ s.presentList_sorted
  intro a b ha hb hab
  have h1 := List.mem_range.1 (List.mem_filter.1 ha).1
  have h2 := List.mem_range.1 (List.mem_filter.1 hb).1
  simp only [BitVec.toNat_ofNat]
  omega

theorem State.present_length_le (s : State) : s.present.length ≤ 256 := by
  rw [State.present_eq, List.length_map]
  have := List.length_filter_le (fun i => decide ((s.freq.entries[i]?).getD 0 ≠ 0)) (List.range 256)
  simpa [State.presentList] using this

theorem State.present_ascending {s : State} {i j : Nat} (hij : i < j) (hj : j < s.present.length) :
    (s.present[i]'(by omega)).1.toNat < (s.present[j]).1.toNat :=
  List.pairwise_iff_getElem.1 s.present_sorted i j (by omega) hj hij

theorem sum_map_filter_ne_zero : ∀ l : List Freq,
    ((l.filter fun f => decide (f ≠ 0)).map BitVec.toNat).sum = (l.map BitVec.toNat).sum
  | [] => rfl
  | a :: l => by
    rw [List.filter_cons]
    by_cases h : a = 0
    · have ih := sum_map_filter_ne_zero l
      simp only [ne_eq, h, not_true, decide_false, Bool.false_eq_true, if_false, List.map_cons, List.sum_cons]
      rw [← ih]; simp
    · simp only [ne_eq, h, not_false_eq_true, decide_true, if_true, List.map_cons, List.sum_cons]
      rw [← sum_map_filter_ne_zero l]

/-- The counts of the present symbols add up to Σ FREQ. -/
theorem State.present_sum (s : State) : (s.present.map fun p => p.2.toNat).sum = s.freqSum := by
  unfold State.present State.freqSum
  rw [List.map_map, ← sum_map_filter_ne_zero s.freq.entries]
  congr 1
  have : ∀ (l : List Freq) (j : Nat),
      ((l.zipIdx j).filter fun p => decide (p.1 ≠ 0)).map
        ((fun p : Sym × Freq => p.2.toNat) ∘ fun p => (BitVec.ofNat 8 p.2, p.1)) =
      (l.filter fun f => decide (f ≠ 0)).map BitVec.toNat := by
    intro l
    induction l with
    | nil => simp
    | cons a l ih =>
      intro j
      rw [List.zipIdx_cons, List.filter_cons, List.filter_cons]
      by_cases h : a = 0
      · simp only [ne_eq, h, not_true, decide_false, Bool.false_eq_true, if_false]; exact ih (j + 1)
      · simp only [ne_eq, h, not_false_eq_true, decide_true, if_true, List.map_cons, Function.comp_apply]
        rw [← ih (j + 1)]
  exact this s.freq.entries 0

/-! ## The leaves -/

/-- `placeLeaves` writes records and membership bits `n`, `n + 1`, ..., one for each symbol, and nothing else. -/
theorem placeLeaves_spec : ∀ (l : List (Sym × Freq)) (n : Nat) (s : State), n + l.length ≤ 511 →
    (∀ i, (placeLeaves l n s).nd i =
      if h : n ≤ i ∧ i < n + l.length then leafNode (l[i - n]'(by omega)).1 (l[i - n]'(by omega)).2 else s.nd i) ∧
    (∀ i, (placeLeaves l n s).inQ i = if n ≤ i ∧ i < n + l.length then true else s.inQ i)
  | [], n, s, _ => by
    constructor <;> intro i
    · rw [dif_neg (by simp)]; rfl
    · rw [if_neg (by simp)]; rfl
  | (x, f) :: l, n, s, h => by
    simp only [List.length_cons] at h
    obtain ⟨h1, h2⟩ := placeLeaves_spec l (n + 1)
      ((s.setNode (BitVec.ofNat 9 n) (leafNode x f)).setInq (BitVec.ofNat 9 n) true) (by omega)
    have e : (BitVec.ofNat 9 n).toNat = n := by simp; omega
    constructor <;> intro i
    · unfold placeLeaves
      rw [h1]
      by_cases c : n + 1 ≤ i ∧ i < n + 1 + l.length
      · rw [dif_pos c, dif_pos (by simp only [List.length_cons]; omega)]
        have : i - n = (i - (n + 1)) + 1 := by omega
        simp only [this, List.getElem_cons_succ]
      · rw [dif_neg c, State.nd_setInq, State.nd_setNode, e]
        by_cases d : n = i
        · subst d
          rw [if_pos (by omega), dif_pos (by simp only [List.length_cons]; omega)]
          simp
        · rw [if_neg (by omega), dif_neg (by simp only [List.length_cons]; omega)]
    · unfold placeLeaves
      rw [h2]
      by_cases c : n + 1 ≤ i ∧ i < n + 1 + l.length
      · rw [if_pos c, if_pos (by simp only [List.length_cons]; omega)]
      · rw [if_neg c, State.inQ_setInq, e]
        by_cases d : n = i
        · rw [if_pos (by omega), if_pos (by simp only [List.length_cons]; omega)]
        · rw [if_neg (by omega), if_neg (by simp only [List.length_cons]; omega)]
          rfl

theorem placeLeaves_frame : ∀ (l : List (Sym × Freq)) (n : Nat) (s : State),
    TreeFrame s (placeLeaves l n s) ∧ (placeLeaves l n s).root = s.root ∧ (placeLeaves l n s).cur = s.cur
  | [], _, s => ⟨TreeFrame.refl s, rfl, rfl⟩
  | (x, f) :: l, n, s => by
    obtain ⟨h1, h2, h3⟩ := placeLeaves_frame l (n + 1)
      ((s.setNode (BitVec.ofNat 9 n) (leafNode x f)).setInq (BitVec.ofNat 9 n) true)
    unfold placeLeaves
    exact ⟨⟨h1.freq, h1.ndist, h1.clen, h1.cbits, h1.fault, h1.finfo, h1.inputs, h1.trace⟩, h2, h3⟩

/-- What FOREST leaves alone, beside PHASE. -/
structure ForestFrame (s t : State) : Prop where
  freq : t.freq = s.freq
  root : t.root = s.root
  cur : t.cur = s.cur
  clen : t.clen = s.clen
  cbits : t.cbits = s.cbits
  fault : t.fault = s.fault
  finfo : t.finfo = s.finfo
  inputs : t.inputs = s.inputs
  trace : t.trace = s.trace

theorem State.loadForest_frame (s : State) : ForestFrame s s.loadForest := by
  obtain ⟨h, hr, hc⟩ := placeLeaves_frame s.present 0 s
  exact ⟨h.freq, hr, hc, h.clen, h.cbits, h.fault, h.finfo, h.inputs, h.trace⟩

theorem State.loadForest_nd (s : State) (i : Nat) :
    s.loadForest.nd i = if h : i < s.present.length then leafNode s.present[i].1 s.present[i].2 else s.nd i := by
  have h := (placeLeaves_spec s.present 0 s (by have := s.present_length_le; omega)).1 i
  have e : s.loadForest.nd i = (placeLeaves s.present 0 s).nd i := rfl
  rw [e, h]
  by_cases c : i < s.present.length
  · rw [dif_pos (by omega), dif_pos c]; simp
  · rw [dif_neg (by omega), dif_neg c]

theorem State.loadForest_inQ (s : State) (i : Nat) :
    s.loadForest.inQ i = if i < s.present.length then true else s.inQ i := by
  have h := (placeLeaves_spec s.present 0 s (by have := s.present_length_le; omega)).2 i
  have e : s.loadForest.inQ i = (placeLeaves s.present 0 s).inQ i := rfl
  rw [e, h]
  simp

theorem State.loadForest_counts (s : State) :
    s.loadForest.nnodes.toNat = s.present.length ∧ s.loadForest.ndist.toNat = s.present.length ∧
      s.loadForest.pqlen.toNat = s.present.length := by
  have := s.present_length_le
  have e : (BitVec.ofNat 9 s.present.length).toNat = s.present.length := by
    rw [BitVec.toNat_ofNat]; omega
  exact ⟨e, e, e⟩

theorem sum_getElem : ∀ l : List (Sym × Freq), ∀ m, l.length ≤ m →
    (∑ i ∈ Finset.range m, if h : i < l.length then l[i].2.toNat else 0) = (l.map fun p => p.2.toNat).sum
  | [], m, _ => by simp
  | p :: l, 0, h => by simp at h
  | p :: l, m + 1, h => by
    rw [Finset.sum_range_succ', List.map_cons, List.sum_cons, ← sum_getElem l m (by simpa using h), add_comm]
    simp

/-- FOREST in a fresh run leaves a forest that satisfies the invariant (R150). -/
theorem CountOk.loadForest {s : State} (h : CountOk s) : ForestOk s.loadForest := by
  obtain ⟨c1, c2, c3⟩ := s.loadForest_counts
  have F := s.loadForest_frame
  have hnd : ∀ i, s.nd i = Node.reset := fun i => by rw [nd_congr h.node, nd_reset]
  have hq : ∀ i, s.inQ i = false := fun i => by rw [inQ_congr h.inq, inQ_reset]
  have hl := s.present_length_le
  have leaf : ∀ i (hi : i < s.present.length), s.loadForest.nd i = leafNode s.present[i].1 s.present[i].2 := by
    intro i hi; rw [State.loadForest_nd, dif_pos hi]
  refine ⟨⟨?_, ?_, ?_, ?_, ?_, ?_, ?_, ?_⟩, ?_, ?_, ?_, ?_, ?_, ?_⟩
  · omega
  · omega
  · intro i hi
    rw [State.loadForest_nd, State.loadForest_inQ, dif_neg (by omega), if_neg (by omega)]
    exact ⟨hnd i, hq i⟩
  · intro i hi
    have hi' : i < s.present.length := by omega
    rw [leaf i hi']
    obtain ⟨m1, m2⟩ := State.mem_present.1 (List.getElem_mem hi')
    simp only [leafNode, State.isPresent, freqAt_congr F.freq]
    exact ⟨trivial, trivial, trivial, by rw [m1], m2⟩
  · intro i j hij hj
    rw [leaf i (by omega), leaf j (by omega)]
    exact State.present_ascending hij (by omega)
  · intro x hx
    rw [State.isPresent, freqAt_congr F.freq] at hx
    obtain ⟨i, hi, e⟩ := List.mem_iff_getElem.1 (State.mem_present (p := (x, s.freqAt x)) |>.2 ⟨rfl, hx⟩)
    exact ⟨i, by omega, by rw [leaf i hi, e]; rfl⟩
  · intro k hk1 hk2; omega
  · intro i hi
    left
    rw [leaf i (by omega)]; rfl
  · intro i hi
    rw [State.loadForest_inQ, if_pos (by omega), leaf i (by omega)]
    simp [leafNode]
  · rw [State.keys_length, c3]
    have e : ∀ i ∈ Finset.range 511, (if s.loadForest.inQ i = true then 1 else 0) =
        if i < s.present.length then 1 else 0 := by
      intro i _
      rw [State.loadForest_inQ]
      by_cases c : i < s.present.length <;> simp [c, hq]
    rw [Finset.sum_congr rfl e, ← Finset.sum_filter]
    have : (Finset.range 511).filter (fun i => i < s.present.length) = Finset.range s.present.length := by
      ext i; simp; omega
    rw [this]; simp
  · omega
  · rw [State.memberSum_eq, freqSum_congr F.freq, ← State.present_sum, ← sum_getElem s.present 511 (by omega)]
    apply Finset.sum_congr rfl
    intro i _
    rw [State.loadForest_inQ]
    by_cases c : i < s.present.length
    · rw [if_pos (by simp [c]), dif_pos c, leaf i c]
      have := s.present[i].2.isLt
      simp only [leafNode, freqCount, BitVec.toNat_setWidth]
      omega
    · rw [if_neg (by simp [c, hq]), dif_neg c]
  · rw [F.root, h.root]
  · rw [F.cur, h.cur]

end Sys2Proof.Machine
end

