-- ==== Sys2Proof/Laws/Exec.lean ====
section
/-! SUPPORT. What a command can do, said once: `exec` is the shared `perform` around the command's own reply, `perform`
has three outcomes, and every reply is one of a few shapes. -/

namespace Sys2Proof.Machine

/-- The command's own rule, step 4 of spec/00_scope.md R9. -/
def ownReply : Instr → State → Reply
  | .nop, s => .done s [] 0
  | .clr, s => .done s.cleared [] 0
  | .sym x, s => symReply x s
  | .ldf x d, s => .done (s.setFreq x d) [] 0
  | .forest, s => .done s.loadForest [] 0
  | .merge, s => .done s.mstep [] 0
  | .tree, s => .done (mergeLoop Config.nodeMax s) [] 0
  | .derive, s => .done s.deriveCodes [] 0
  | .enc x, s => encReply x s
  | .encend, s => .done s [.biteos] 0
  | .dec b, s => decReply b s
  | .decend, s => .done { s with cur := s.root } [.symeos] 0
  | .rd a, s => rdReply a s

theorem exec_eq_perform (i : Instr) (s : State) : exec i s = s.perform i (ownReply i s) := by
  cases i <;> rfl

/-- The halted and the phase check let the command through (R268, R280). -/
def passes (i : Instr) (s : State) : Prop :=
  (s.fault = 0 ∨ performedWhileHalted i = true) ∧ legalIn i s.phase = true

theorem State.halted_iff (s : State) : s.halted = true ↔ s.fault ≠ 0 := by simp [State.halted]

/-- The three ways a command can go, in the order of R272. -/
theorem perform_cases (s : State) (i : Instr) (own : Reply) :
    (s.fault ≠ 0 ∧ performedWhileHalted i = false ∧ s.perform i own = .next s.refuseHalted) ∨
    ((s.fault = 0 ∨ performedWhileHalted i = true) ∧ legalIn i s.phase = false ∧
      s.perform i own = .next (s.raise .seq (opInfo i))) ∨
    (passes i s ∧ s.perform i own = s.answer own) := by
  unfold State.perform passes
  by_cases hf : s.fault = 0
  · have hh : s.halted = false := by simp [State.halted, hf]
    cases hl : legalIn i s.phase <;> simp [hh, hf]
  · have hh : s.halted = true := s.halted_iff.2 hf
    have hf' : ¬ s.fault = 0#8 := hf
    cases hp : performedWhileHalted i <;> cases hl : legalIn i s.phase <;> simp [hh, hf']

theorem perform_of_passes {s : State} {i : Instr} (h : passes i s) (own : Reply) :
    s.perform i own = s.answer own := by
  rcases perform_cases s i own with ⟨h1, h2, -⟩ | ⟨-, h2, -⟩ | ⟨-, h3⟩
  · rcases h.1 with h0 | h0
    · exact absurd h0 h1
    · rw [h2] at h0; exact Bool.noConfusion h0
  · rw [h.2] at h2; exact Bool.noConfusion h2
  · exact h3

theorem exec_of_passes {s : State} {i : Instr} (h : passes i s) : exec i s = s.answer (ownReply i s) := by
  rw [exec_eq_perform, perform_of_passes h]

/-- What an answered step comes to. -/
theorem answer_next {s t : State} {r : Reply} (h : s.answer r = .next t) :
    (∃ s' beats d, r = .done s' beats d ∧ t = s'.emit (beats ++ [.rsp Config.okCode d])) ∨
    (∃ c info, r = .raise c info ∧ t = s.raise c info) := by
  cases r with
  | done s' beats d =>
    simp only [State.answer, Host.Outcome.next.injEq] at h
    exact Or.inl ⟨s', beats, d, rfl, h.symm⟩
  | raise c info =>
    simp only [State.answer, Host.Outcome.next.injEq] at h
    exact Or.inr ⟨c, info, rfl, h.symm⟩

/-- Every answered step has a next state (R9). -/
theorem answer_total (s : State) (r : Reply) : ∃ t, s.answer r = .next t := by
  cases r <;> exact ⟨_, rfl⟩

/-- Every command has a next state (R9). -/
theorem exec_total (i : Instr) (s : State) : ∃ t, exec i s = .next t := by
  rw [exec_eq_perform]
  rcases perform_cases s i (ownReply i s) with ⟨-, -, h⟩ | ⟨-, -, h⟩ | ⟨-, h⟩ <;> rw [h]
  · exact ⟨_, rfl⟩
  · exact ⟨_, rfl⟩
  · exact answer_total s _

/-- Everything a command can do when it gives a next state. -/
theorem exec_next {i : Instr} {s t : State} (h : exec i s = .next t) :
    (s.fault ≠ 0 ∧ performedWhileHalted i = false ∧ t = s.refuseHalted) ∨
    (∃ c info, t = s.raise c info ∧ ((c = .seq ∧ info = opInfo i ∧ legalIn i s.phase = false) ∨
      (passes i s ∧ ownReply i s = .raise c info))) ∨
    (passes i s ∧ ∃ s' beats d, ownReply i s = .done s' beats d ∧
      t = s'.emit (beats ++ [.rsp Config.okCode d])) := by
  rw [exec_eq_perform] at h
  rcases perform_cases s i (ownReply i s) with ⟨h1, h2, h3⟩ | ⟨-, h2, h3⟩ | ⟨h2, h3⟩
  · rw [h3] at h
    simp only [Host.Outcome.next.injEq] at h
    exact Or.inl ⟨h1, h2, h.symm⟩
  · rw [h3] at h
    simp only [Host.Outcome.next.injEq] at h
    exact Or.inr (Or.inl ⟨_, _, h.symm, Or.inl ⟨rfl, rfl, h2⟩⟩)
  · rw [h3] at h
    rcases answer_next h with ⟨s', beats, d, hr, ht⟩ | ⟨c, info, hr, ht⟩
    · exact Or.inr (Or.inr ⟨h2, s', beats, d, hr, ht⟩)
    · exact Or.inr (Or.inl ⟨c, info, ht, Or.inr ⟨h2, hr⟩⟩)

/-! ## The shapes of the replies -/

theorem symReply_done {x : Sym} {s s' : State} {beats : List Event} {d : TblWord}
    (h : symReply x s = .done s' beats d) :
    s.freqAt x ≠ Config.freqMax ∧ s' = s.setFreq x (s.freqAt x + 1) ∧ beats = [] ∧ d = 0 := by
  unfold symReply at h
  split at h
  · exact absurd h (by simp)
  · rename_i hm
    simp only [Reply.done.injEq] at h
    obtain ⟨rfl, rfl, rfl⟩ := h
    exact ⟨hm, rfl, rfl, rfl⟩

theorem encReply_done {x : Sym} {s s' : State} {beats : List Event} {d : TblWord}
    (h : encReply x s = .done s' beats d) :
    s.clenAt x ≠ 0 ∧ s' = s ∧ beats = (s.codeBits x).map .bit ∧ d = 0 := by
  unfold encReply at h
  split at h
  · exact absurd h (by simp)
  · rename_i hm
    simp only [Reply.done.injEq] at h
    obtain ⟨rfl, rfl, rfl⟩ := h
    exact ⟨hm, rfl, rfl, rfl⟩

theorem rdReply_done {a : TblAddr} {s s' : State} {beats : List Event} {d : TblWord}
    (h : rdReply a s = .done s' beats d) : s.tblRead a = some d ∧ s' = s ∧ beats = [] := by
  unfold rdReply at h
  split at h
  · rename_i v hv
    simp only [Reply.done.injEq] at h
    obtain ⟨rfl, rfl, rfl⟩ := h
    exact ⟨hv, rfl, rfl⟩
  · exact absurd h (by simp)

/-- The child that a bit selects, where CUR names a record (R210). -/
theorem State.curChild_eq {s : State} (h : s.cur ≠ Config.nil) (b : BitVec 1) :
    s.curChild b = (s.nd s.cur.toNat).child b := by
  unfold State.curChild
  rw [(State.nodeAt_eq_some s).2 ⟨h, rfl⟩]

/-- The ways a DEC can complete: at a leaf root, at a leaf below, at an internal node (R210, R212). -/
theorem decReply_done {b : BitVec 1} {s s' : State} {beats : List Event} {d : TblWord}
    (h : decReply b s = .done s' beats d) :
    d = 0 ∧ s.root ≠ Config.nil ∧
    ((s.rootIsLeaf = true ∧ s' = s ∧ beats = [.symb (s.nd s.root.toNat).sym]) ∨
     (s.rootIsLeaf = false ∧ s.curChild b ≠ Config.nil ∧
       (((s.nd (s.curChild b).toNat).leaf = true ∧ s' = { s with cur := s.root } ∧
          beats = [.symb (s.nd (s.curChild b).toNat).sym]) ∨
        ((s.nd (s.curChild b).toNat).leaf = false ∧ s' = { s with cur := s.curChild b } ∧ beats = [])))) := by
  unfold decReply at h
  split at h
  · exact absurd h (by simp)
  · rename_i r hr
    obtain ⟨hrn, rfl⟩ := (State.nodeAt_eq_some _).1 hr
    rw [← State.rootIsLeaf_eq] at h
    split at h
    · rename_i hl
      simp only [Reply.done.injEq] at h
      obtain ⟨rfl, rfl, rfl⟩ := h
      exact ⟨rfl, hrn, Or.inl ⟨hl, rfl, rfl⟩⟩
    · rename_i hl
      have hl' : s.rootIsLeaf = false := by simpa using hl
      unfold walkReply at h
      split at h
      · exact absurd h (by simp)
      · rename_i c hc
        obtain ⟨hch, rfl⟩ := (State.nodeAt_eq_some _).1 hc
        split at h
        · rename_i hcl
          simp only [Reply.done.injEq] at h
          obtain ⟨rfl, rfl, rfl⟩ := h
          exact ⟨rfl, hrn, Or.inr ⟨hl', hch, Or.inl ⟨hcl, rfl, rfl⟩⟩⟩
        · rename_i hcl
          simp only [Reply.done.injEq] at h
          obtain ⟨rfl, rfl, rfl⟩ := h
          exact ⟨rfl, hrn, Or.inr ⟨hl', hch, Or.inr ⟨by simpa using hcl, rfl, rfl⟩⟩⟩

/-- Every command that completes leaves the host's inputs and the trace to the answer, and emits data beats only. -/
theorem ownReply_done {i : Instr} {s s' : State} {beats : List Event} {d : TblWord}
    (h : ownReply i s = .done s' beats d) :
    s'.inputs = s.inputs ∧ s'.trace = s.trace ∧ (∀ e ∈ beats, e.isBeat = true) := by
  cases i with
  | nop => simp only [ownReply, Reply.done.injEq] at h; obtain ⟨rfl, rfl, rfl⟩ := h; simp
  | clr => simp only [ownReply, Reply.done.injEq] at h; obtain ⟨rfl, rfl, rfl⟩ := h; simp
  | sym x => obtain ⟨-, rfl, rfl, rfl⟩ := symReply_done h; simp
  | ldf x d => simp only [ownReply, Reply.done.injEq] at h; obtain ⟨rfl, rfl, rfl⟩ := h; simp
  | forest =>
    simp only [ownReply, Reply.done.injEq] at h; obtain ⟨rfl, rfl, rfl⟩ := h
    exact ⟨s.loadForest_frame.inputs, s.loadForest_frame.trace, by simp⟩
  | merge =>
    simp only [ownReply, Reply.done.injEq] at h; obtain ⟨rfl, rfl, rfl⟩ := h
    exact ⟨s.mstep_frame.inputs, s.mstep_frame.trace, by simp⟩
  | tree =>
    simp only [ownReply, Reply.done.injEq] at h; obtain ⟨rfl, rfl, rfl⟩ := h
    exact ⟨(mergeLoop_frame _ s).inputs, (mergeLoop_frame _ s).trace, by simp⟩
  | derive =>
    simp only [ownReply, Reply.done.injEq] at h; obtain ⟨rfl, rfl, rfl⟩ := h
    exact ⟨s.deriveCodes_frame.1.inputs, s.deriveCodes_frame.1.trace, by simp⟩
  | enc x =>
    obtain ⟨-, rfl, rfl, rfl⟩ := encReply_done h
    refine ⟨rfl, rfl, fun e he => ?_⟩
    obtain ⟨b, -, rfl⟩ := List.mem_map.1 he
    rfl
  | encend => simp only [ownReply, Reply.done.injEq] at h; obtain ⟨rfl, rfl, rfl⟩ := h; simp [Event.isBeat]
  | dec b =>
    obtain ⟨rfl, -, ⟨-, rfl, rfl⟩ | ⟨-, -, ⟨-, rfl, rfl⟩ | ⟨-, rfl, rfl⟩⟩⟩ := decReply_done h <;> simp [Event.isBeat]
  | decend => simp only [ownReply, Reply.done.injEq] at h; obtain ⟨rfl, rfl, rfl⟩ := h; simp [Event.isBeat]
  | rd a => obtain ⟨-, rfl, rfl⟩ := rdReply_done h; simp

end Sys2Proof.Machine
end

