-- ==== Sys2Proof/Laws/Invariant.lean ====
section
/-! SUPPORT. The invariant and the shared operations: the response, the fault entry, the refusal, the clearing and the
host's side of the state keep it, and so does every command's own reply. -/

namespace Sys2Proof.Machine

/-- The state with another fault record, other inputs and another trace. -/
def State.around (s : State) (f : BitVec 8) (fi : TblWord) (q : List HostInput) (tr : List Event) : State :=
  { s with fault := f, finfo := fi, inputs := q, trace := tr }

theorem ArenaOk.around {s : State} (h : ArenaOk s) (f : BitVec 8) (fi : TblWord) (q : List HostInput)
    (tr : List Event) : ArenaOk (s.around f fi q tr) :=
  ⟨h.dist_le_nodes, h.dist_le_256, h.unallocated, h.leaves, h.ascending, h.complete, h.internals, h.parents⟩

theorem TreeOk.around {s : State} (h : TreeOk s) (f : BitVec 8) (fi : TblWord) (q : List HostInput)
    (tr : List Event) : TreeOk (s.around f fi q tr) :=
  ⟨h.arena.around f fi q tr, h.pqlen, h.inq, h.absent, h.present, h.cur⟩

/-- PHASE decides which tables are built; the fault record, the inputs and the trace do not matter to them. -/
theorem PhaseOk.around {s : State} (h : PhaseOk s) (f : BitVec 8) (fi : TblWord) (q : List HostInput)
    (tr : List Event) : PhaseOk (s.around f fi q tr) := by
  have hp : (s.around f fi q tr).phase = s.phase := rfl
  unfold PhaseOk at h ⊢
  rw [hp]
  split at h
  · obtain ⟨a, b⟩ := h
    exact ⟨⟨a.node, a.inq, a.nnodes, a.ndist, a.pqlen, a.root, a.cur⟩, ⟨b.clen, b.cbits⟩⟩
  · obtain ⟨⟨a, b⟩, c⟩ := h
    exact ⟨⟨⟨a.arena.around f fi q tr, a.members, a.pqlen, a.nodes, a.sum, a.root, a.cur⟩, ⟨b.clen, b.cbits⟩⟩, c⟩
  · obtain ⟨a, b⟩ := h
    exact ⟨a.around f fi q tr, ⟨b.clen, b.cbits⟩⟩
  · obtain ⟨a, b⟩ := h
    refine ⟨a.around f fi q tr, ⟨b.absent, fun i hi => ?_⟩⟩
    obtain ⟨c, h1, h2⟩ := b.leaves i hi
    exact ⟨c, (codeOf_congr (s := s) (t := s.around f fi q tr) rfl rfl _).trans h1, h2⟩

theorem Inv.emit {s : State} (h : Inv s) (es : List Event) : Inv (s.emit es) :=
  ⟨⟨h.fault.code, h.fault.info⟩, h.phase.around s.fault s.finfo s.inputs (s.trace ++ es)⟩

theorem Inv.withInputs {s : State} (h : Inv s) (q : List HostInput) : Inv { s with inputs := q } :=
  ⟨⟨h.fault.code, h.fault.info⟩, h.phase.around s.fault s.finfo q s.trace⟩

theorem Cause.code_le (c : Cause) : c.code.toNat ≤ 6 := by cases c <;> decide

theorem Cause.code_ne_zero (c : Cause) : c.code ≠ 0 := by cases c <;> decide

/-- Fault entry keeps the invariant (R265). -/
theorem Inv.raise {s : State} (h : Inv s) (c : Cause) (info : TblWord) : Inv (s.raise c info) := by
  unfold State.raise
  split
  · apply Inv.emit
    exact ⟨⟨c.code_le, fun e => absurd e c.code_ne_zero⟩, h.phase.around c.code info s.inputs s.trace⟩
  · exact h.emit _

theorem Inv.refuseHalted {s : State} (h : Inv s) : Inv s.refuseHalted := h.emit _

theorem countOk_reset : CountOk State.reset := ⟨rfl, rfl, rfl, rfl, rfl, rfl, rfl⟩

/-- The state after CLR or reset satisfies the invariant (R40). -/
theorem Inv.cleared (s : State) : Inv s.cleared :=
  ⟨⟨Nat.zero_le 6, fun _ => rfl⟩, ⟨⟨rfl, rfl, rfl, rfl, rfl, rfl, rfl⟩, ⟨rfl, rfl⟩⟩⟩

/-! ## The phases -/

theorem PhaseOk.ofTree {s : State} (hp : s.phase = .tree) (h : TreeOk s) (hz : NoCodes s) : PhaseOk s := by
  unfold PhaseOk; rw [hp]; exact ⟨h, hz⟩

theorem PhaseOk.ofReady {s : State} (hp : s.phase = .ready) (h : TreeOk s) (hz : CodesOk s) : PhaseOk s := by
  unfold PhaseOk; rw [hp]; exact ⟨h, hz⟩

theorem Inv.countOk {s : State} (h : Inv s) (hp : s.phase = .count) : CountOk s ∧ NoCodes s := by
  have := h.phase; unfold PhaseOk at this; rw [hp] at this; exact this

theorem Inv.forestOk {s : State} (h : Inv s) (hp : s.phase = .forest) : ForestOk s ∧ NoCodes s := by
  have := h.phase; unfold PhaseOk at this; rw [hp] at this; exact this.1

/-- In P_FOREST with at most one tree no merge has been done yet (R241). -/
theorem Inv.forestFew {s : State} (h : Inv s) (hp : s.phase = .forest) (h1 : s.pqlen.toNat ≤ 1) :
    s.nnodes = s.ndist := by
  have := h.phase; unfold PhaseOk at this; rw [hp] at this; exact this.2 h1

theorem Inv.treeOk {s : State} (h : Inv s) (hp : s.phase = .tree) : TreeOk s ∧ NoCodes s := by
  have := h.phase; unfold PhaseOk at this; rw [hp] at this; exact this

theorem Inv.readyOk {s : State} (h : Inv s) (hp : s.phase = .ready) : TreeOk s ∧ CodesOk s := by
  have := h.phase; unfold PhaseOk at this; rw [hp] at this; exact this

theorem Phase.treeFinal_iff {p : Phase} : p.treeFinal = true ↔ p = .tree ∨ p = .ready := by
  cases p <;> simp [Phase.treeFinal]

theorem Inv.finished {s : State} (h : Inv s) (hp : s.phase.treeFinal = true) : TreeOk s := by
  rcases Phase.treeFinal_iff.1 hp with hq | hq
  · exact (h.treeOk hq).1
  · exact (h.readyOk hq).1

/-- In a finished tree ROOT is NIL exactly when there is no symbol (R27, R155). -/
theorem TreeOk.root_nil_iff {s : State} (h : TreeOk s) : s.root = Config.nil ↔ s.ndist = 0 := by
  constructor
  · intro hr
    by_contra hc
    obtain ⟨h1, h2, -⟩ := h.present hc
    rw [hr, nil_toNat] at h2
    have := s.nnodes.isLt
    omega
  · intro hd; exact (h.absent hd).2

/-- CUR is an internal node of a present tree whose root is internal (R28). -/
theorem TreeOk.cur_internal {s : State} (h : TreeOk s) (hr : s.root ≠ Config.nil) (hl : s.rootIsLeaf = false) :
    s.ndist.toNat ≤ s.cur.toNat ∧ s.cur.toNat < s.nnodes.toNat := by
  rcases h.cur with e | e
  · have hd : s.ndist ≠ 0 := fun e => hr (h.root_nil_iff.2 e)
    obtain ⟨h1, h2, -⟩ := h.present hd
    rw [State.rootIsLeaf_eq] at hl
    have : ¬ s.root.toNat < s.ndist.toNat := by
      intro hc
      rw [(h.arena.leaf_iff (by omega)).2 hc] at hl
      exact Bool.noConfusion hl
    rw [e]; omega
  · exact e

theorem TreeOk.withCur {s : State} (h : TreeOk s) {c : Idx}
    (hc : c = s.root ∨ (s.ndist.toNat ≤ c.toNat ∧ c.toNat < s.nnodes.toNat)) : TreeOk { s with cur := c } :=
  ⟨⟨h.arena.dist_le_nodes, h.arena.dist_le_256, h.arena.unallocated, h.arena.leaves, h.arena.ascending,
    h.arena.complete, h.arena.internals, h.arena.parents⟩, h.pqlen, h.inq, h.absent, h.present, hc⟩

theorem CodesOk.withCur {s : State} (h : CodesOk s) (c : Idx) : CodesOk { s with cur := c } :=
  ⟨h.absent, fun i hi => by
    obtain ⟨d, h1, h2⟩ := h.leaves i hi
    exact ⟨d, (codeOf_congr (s := s) (t := { s with cur := c }) rfl rfl _).trans h1, h2⟩⟩

theorem NoCodes.withCur {s : State} (h : NoCodes s) (c : Idx) : NoCodes { s with cur := c } := ⟨h.clen, h.cbits⟩

theorem child_eq_childOf (s : State) (c : Idx) (b : BitVec 1) :
    (s.nd c.toNat).child b = s.childOf c (b == 1) := by
  unfold Node.child State.childOf
  by_cases h : b = 1
  · subst h; rfl
  · rw [if_neg h]
    have : (b == 1) = false := by simpa using h
    rw [this]; rfl

/-- CUR moved to a position the tree has keeps the invariant. -/
theorem Inv.withCur {s : State} (h : Inv s) (hp : s.phase.treeFinal = true) {c : Idx}
    (hc : c = s.root ∨ (s.ndist.toNat ≤ c.toNat ∧ c.toNat < s.nnodes.toNat)) : Inv { s with cur := c } := by
  refine ⟨⟨h.fault.code, h.fault.info⟩, ?_⟩
  rcases Phase.treeFinal_iff.1 hp with hq | hq
  · exact PhaseOk.ofTree hq ((h.treeOk hq).1.withCur hc) ((h.treeOk hq).2.withCur c)
  · exact PhaseOk.ofReady hq ((h.readyOk hq).1.withCur hc) ((h.readyOk hq).2.withCur c)

/-- A merge step's result satisfies the invariant. -/
theorem Inv.ofMerge {s t : State} (h : Inv s) (hp : s.phase = .forest) (F : TreeFrame s t)
    (ht : (t.phase = .tree ∧ TreeOk t) ∨ (t.phase = .forest ∧ ForestOk t ∧ 2 ≤ t.pqlen.toNat)) : Inv t := by
  obtain ⟨-, hz⟩ := h.forestOk hp
  refine ⟨⟨by rw [F.fault]; exact h.fault.code, fun e => by rw [F.finfo]; exact h.fault.info (by rw [← F.fault]; exact e)⟩, ?_⟩
  have hz' : NoCodes t := ⟨by rw [F.clen]; exact hz.clen, by rw [F.cbits]; exact hz.cbits⟩
  unfold PhaseOk
  rcases ht with ⟨h1, h2⟩ | ⟨h1, h2⟩
  · rw [h1]; exact ⟨h2, hz'⟩
  · rw [h1]; exact ⟨⟨h2.1, hz'⟩, fun h3 => by omega⟩

/-- Every command's own rule, where the checks let it through, keeps the invariant. -/
theorem Inv.ownReply {s : State} (h : Inv s) {i : Instr} (hl : passes i s) {s' : State} {beats : List Event}
    {d : TblWord} (hr : ownReply i s = .done s' beats d) : Inv s' := by
  obtain ⟨-, hl⟩ := hl
  cases i with
  | nop => simp only [Machine.ownReply, Reply.done.injEq] at hr; obtain ⟨rfl, -, -⟩ := hr; exact h
  | clr => simp only [Machine.ownReply, Reply.done.injEq] at hr; obtain ⟨rfl, -, -⟩ := hr; exact Inv.cleared s
  | sym x =>
    obtain ⟨-, rfl, -, -⟩ := symReply_done hr
    have hp : s.phase = .count := by simpa [legalIn] using hl
    obtain ⟨a, b⟩ := h.countOk hp
    refine ⟨⟨h.fault.code, h.fault.info⟩, ?_⟩
    unfold PhaseOk
    rw [State.setFreq_phase, hp]
    exact ⟨⟨a.node, a.inq, a.nnodes, a.ndist, a.pqlen, a.root, a.cur⟩, ⟨b.clen, b.cbits⟩⟩
  | ldf x f =>
    simp only [Machine.ownReply, Reply.done.injEq] at hr
    obtain ⟨rfl, -, -⟩ := hr
    have hp : s.phase = .count := by simpa [legalIn] using hl
    obtain ⟨a, b⟩ := h.countOk hp
    refine ⟨⟨h.fault.code, h.fault.info⟩, ?_⟩
    unfold PhaseOk
    rw [State.setFreq_phase, hp]
    exact ⟨⟨a.node, a.inq, a.nnodes, a.ndist, a.pqlen, a.root, a.cur⟩, ⟨b.clen, b.cbits⟩⟩
  | forest =>
    simp only [Machine.ownReply, Reply.done.injEq] at hr
    obtain ⟨rfl, -, -⟩ := hr
    have hp : s.phase = .count := by simpa [legalIn] using hl
    obtain ⟨a, b⟩ := h.countOk hp
    have F := s.loadForest_frame
    refine ⟨⟨by rw [F.fault]; exact h.fault.code,
      fun e => by rw [F.finfo]; exact h.fault.info (by rw [← F.fault]; exact e)⟩, ?_⟩
    exact ⟨⟨a.loadForest, ⟨by rw [F.clen]; exact b.clen, by rw [F.cbits]; exact b.cbits⟩⟩, fun _ => rfl⟩
  | merge =>
    simp only [Machine.ownReply, Reply.done.injEq] at hr
    obtain ⟨rfl, -, -⟩ := hr
    have hp : s.phase = .forest := by simpa [legalIn] using hl
    obtain ⟨h3, h2⟩ := (h.forestOk hp).1.mstep
    refine h.ofMerge hp s.mstep_frame ?_
    rcases s.mstep_phase with ⟨g1, g2, -⟩ | ⟨g1, g2, g3⟩
    · exact Or.inl ⟨g2, h2 g1⟩
    · exact Or.inr ⟨by rw [g2, hp], h3 g1, by omega⟩
  | tree =>
    simp only [Machine.ownReply, Reply.done.injEq] at hr
    obtain ⟨rfl, -, -⟩ := hr
    have hp : s.phase = .forest := by simpa [legalIn] using hl
    have hn : s.pqlen.toNat ≤ Config.nodeMax := by have := s.pqlen.isLt; simp [Config.nodeMax]; omega
    exact h.ofMerge hp (mergeLoop_frame _ s)
      (Or.inl ⟨mergeLoop_phase hn (by decide), (h.forestOk hp).1.mergeLoop hn (by decide) hp⟩)
  | derive =>
    simp only [Machine.ownReply, Reply.done.injEq] at hr
    obtain ⟨rfl, -, -⟩ := hr
    have hp : s.phase = .tree := by simpa [legalIn] using hl
    obtain ⟨a, b⟩ := h.treeOk hp
    have F := s.deriveCodes_frame.1
    refine ⟨⟨by rw [F.fault]; exact h.fault.code,
      fun e => by rw [F.finfo]; exact h.fault.info (by rw [← F.fault]; exact e)⟩, ?_⟩
    exact PhaseOk.ofReady rfl (a.deriveCodes b).1 (a.deriveCodes b).2
  | enc x => obtain ⟨-, rfl, -, -⟩ := encReply_done hr; exact h
  | encend => simp only [Machine.ownReply, Reply.done.injEq] at hr; obtain ⟨rfl, -, -⟩ := hr; exact h
  | dec b =>
    have hp : s.phase.treeFinal = true := Phase.treeFinal_iff.2 (by simpa [legalIn] using hl)
    obtain ⟨-, hrn, ⟨-, rfl, -⟩ | ⟨hlf, hch, ⟨-, rfl, -⟩ | ⟨hcl, rfl, -⟩⟩⟩ := decReply_done hr
    · exact h
    · exact h.withCur hp (Or.inl rfl)
    · have T := h.finished hp
      obtain ⟨c1, c2⟩ := T.cur_internal hrn hlf
      have hlt := T.arena.childOf_lt c1 c2 (b == 1)
      have hcn : s.cur ≠ Config.nil := idx_lt_511.1 (by have := T.arena.nnodes_le; omega)
      rw [← child_eq_childOf, ← State.curChild_eq hcn] at hlt
      refine h.withCur hp (Or.inr ⟨?_, by omega⟩)
      by_contra hc
      rw [(T.arena.leaf_iff (by omega)).2 (by omega)] at hcl
      exact Bool.noConfusion hcl
  | decend =>
    simp only [Machine.ownReply, Reply.done.injEq] at hr
    obtain ⟨rfl, -, -⟩ := hr
    have hp : s.phase.treeFinal = true := Phase.treeFinal_iff.2 (by simpa [legalIn] using hl)
    exact h.withCur hp (Or.inl rfl)
  | rd a => obtain ⟨-, rfl, -⟩ := rdReply_done hr; exact h

end Sys2Proof.Machine
end

