-- ==== Sys2Proof/Laws/Run.lean ====
section
/-! SUPPORT. The step and a sequence of commands: what a presented word comes to, the fault entry in the two cases that
matter (first fault, later fault), the checks by command, runs of commands, and the invariant along them. -/

namespace Sys2Proof.Machine

/-! ## One word -/

theorem step_command {s : State} {w : CmdWord} {rest : List HostInput} (h : s.inputs = .command w :: rest) :
    step s = takeWord w { s with inputs := rest } := by
  simp [step, fetchInput, h, takeInput]

theorem takeWord_ok {w : CmdWord} {i : Instr} (h : decode w = .ok i) (s : State) : takeWord w s = exec i s := by
  simp [takeWord, h]

theorem takeWord_illegal {w : CmdWord} (h : ∀ i, decode w ≠ .ok i) (s : State) :
    takeWord w s = .next (s.raise .illegal w.upper) := by
  unfold takeWord
  split
  · rename_i i hi; exact absurd hi (h i)
  · rfl

theorem CmdWord.upper_eq (w : CmdWord) : w.upper = (w >>> 32).setWidth 32 := by
  unfold CmdWord.upper; ext i hi; simp

/-! ## The fault entry (R265) -/

theorem State.raise_first {s : State} (h : s.fault = 0) (c : Cause) (v : TblWord) :
    s.raise c v = s.firstFault c.code v := by
  simp only [State.raise, h, if_true, State.firstFault, State.emit]

theorem State.raise_later {s : State} (h : s.fault ≠ 0) (c : Cause) (v : TblWord) :
    s.raise c v = { s with trace := s.trace ++ [.rsp c.code v] } := by
  have h' : ¬ s.fault = 0#8 := h
  simp [State.raise, h', State.emit]

/-- A fault entry changes FAULT, FINFO and the trace only. -/
theorem State.raise_frame (s : State) (c : Cause) (v : TblWord) :
    s.raise c v = { s with fault := (s.raise c v).fault, finfo := (s.raise c v).finfo,
                           trace := (s.raise c v).trace } := by
  by_cases h : s.fault = 0
  · rw [State.raise_first h]; rfl
  · rw [State.raise_later h]

/-! ## The checks, by command -/

/-- Halted: the command is refused (R268). -/
theorem exec_refused {s : State} {i : Instr} (hf : s.fault ≠ 0) (hi : performedWhileHalted i = false) :
    exec i s = .next s.refuseHalted := by
  rw [exec_eq_perform]
  rcases perform_cases s i (ownReply i s) with ⟨-, -, h⟩ | ⟨h, -, -⟩ | ⟨h, -⟩
  · exact h
  · rcases h with h | h
    · exact absurd h hf
    · rw [hi] at h; exact Bool.noConfusion h
  · rcases h.1 with h | h
    · exact absurd h hf
    · rw [hi] at h; exact Bool.noConfusion h

/-- Not legal in PHASE: E_SEQ (R262). -/
theorem exec_seq {s : State} {i : Instr} (hf : s.fault = 0) (hl : legalIn i s.phase = false) :
    exec i s = .next (s.firstFault 0x02 (i.opcode.setWidth 32)) := by
  rw [exec_eq_perform]
  rcases perform_cases s i (ownReply i s) with ⟨h, -⟩ | ⟨-, -, h⟩ | ⟨h, -⟩
  · exact absurd hf h
  · rw [h, State.raise_first hf]; rfl
  · rw [h.2] at hl; exact Bool.noConfusion hl

/-- A command whose checks pass and whose own rule completes. -/
theorem exec_done {s : State} {i : Instr} (hp : passes i s) {s' : State} {beats : List Event} {d : TblWord}
    (h : ownReply i s = .done s' beats d) : exec i s = .next (s'.emit (beats ++ [.rsp 0x00 d])) := by
  rw [exec_of_passes hp, h]; rfl

/-- A command whose checks pass and whose own rule raises. -/
theorem exec_raise {s : State} {i : Instr} (hp : passes i s) {c : Cause} {v : TblWord}
    (h : ownReply i s = .raise c v) : exec i s = .next (s.raise c v) := by
  rw [exec_of_passes hp, h]; rfl

theorem legalIn_count {p : Phase} : (p == Phase.count) = false ↔ p ≠ .count := by cases p <;> simp

/-- A command answers by its beats and one response, or by the response of a fault alone. -/
theorem exec_trace {i : Instr} {s t : State} (h : exec i s = .next t) :
    ∃ beats st d, t.trace = s.trace ++ (beats ++ [.rsp st d]) ∧ ∀ e ∈ beats, e.isBeat = true := by
  rcases exec_next h with ⟨-, -, rfl⟩ | ⟨c, v, rfl, -⟩ | ⟨-, s', beats, d, hr, rfl⟩
  · exact ⟨[], _, _, rfl, by simp⟩
  · exact ⟨[], _, _, s.raise_trace c v, by simp⟩
  · obtain ⟨-, h2, h3⟩ := ownReply_done hr
    exact ⟨beats, _, _, by show s'.trace ++ _ = _; rw [h2], h3⟩

/-! ## Runs -/

theorem runAll_append (is js : List Instr) (s : State) :
    runAll (is ++ js) s =
      match runAll is s with
      | .next t => runAll js t
      | .fault f => .fault f
      | .refused r => .refused r := by
  induction is generalizing s with
  | nil => rfl
  | cons i is ih =>
    simp only [List.cons_append, runAll]
    cases exec i s with
    | next t => exact ih t
    | fault f => rfl
    | refused r => rfl

theorem runAll_append_next {is js : List Instr} {s t : State} (h : runAll is s = .next t) :
    runAll (is ++ js) s = runAll js t := by
  rw [runAll_append, h]

theorem runAll_cons_next {i : Instr} {is : List Instr} {s t : State} (h : exec i s = .next t) :
    runAll (i :: is) s = runAll is t := by
  rw [runAll, h]

theorem runAll_one {i : Instr} {s t : State} (h : exec i s = .next t) : runAll [i] s = .next t := by
  rw [runAll_cons_next h]; rfl

/-- Every command keeps the invariant. -/
theorem Inv.exec {s t : State} (h : Inv s) {i : Instr} (he : Machine.exec i s = .next t) : Inv t := by
  rcases exec_next he with ⟨-, -, rfl⟩ | ⟨c, info, rfl, -⟩ | ⟨hp, s', beats, d, hr, rfl⟩
  · exact h.refuseHalted
  · exact h.raise c info
  · exact (h.ownReply hp hr).emit _

theorem Inv.runAll {s t : State} (h : Inv s) {is : List Instr} (hr : Machine.runAll is s = .next t) : Inv t := by
  induction is generalizing s with
  | nil => simp only [Machine.runAll, Host.Outcome.next.injEq] at hr; rw [← hr]; exact h
  | cons i is ih =>
    rw [Machine.runAll] at hr
    split at hr
    · rename_i u hu; exact ih (h.exec hu) hr
    · exact absurd hr (by simp)
    · exact absurd hr (by simp)

end Sys2Proof.Machine
end

