-- ==== Sys2Proof/Laws/TableSpace.lean ====
section
/-! SUPPORT. Table space, region by region (spec/20_memory.md R61 to R76): what each address reads, which addresses read
nothing, and that a read depends on the tables alone. -/

namespace Sys2Proof.Machine

theorem pqmin_congr {s t : State} (h1 : t.node = s.node) (h2 : t.inq = s.inq) : t.pqmin = s.pqmin := by
  unfold State.pqmin State.keys; rw [h1, h2]

/-- The two states agree on every element of R20; the model's own fields may differ. -/
structure SameTables (s t : State) : Prop where
  freq : t.freq = s.freq
  node : t.node = s.node
  nnodes : t.nnodes = s.nnodes
  ndist : t.ndist = s.ndist
  inq : t.inq = s.inq
  pqlen : t.pqlen = s.pqlen
  root : t.root = s.root
  cur : t.cur = s.cur
  clen : t.clen = s.clen
  cbits : t.cbits = s.cbits
  fault : t.fault = s.fault
  finfo : t.finfo = s.finfo
  phase : t.phase = s.phase

theorem statusReg_congr {s t : State} (hp : t.phase = s.phase) (hf : t.fault = s.fault) (hi : t.finfo = s.finfo)
    (hd : t.ndist = s.ndist) (hn : t.nnodes = s.nnodes) (hr : t.root = s.root) (hq : t.pqlen = s.pqlen)
    (hc : t.cur = s.cur) (hm : t.node = s.node) (hs : t.inq = s.inq) (n : Nat) : t.statusReg n = s.statusReg n := by
  unfold State.statusReg State.statusWord State.single State.noTree State.faulted State.rootIsLeaf
  rw [pqmin_congr hm hs, hn, hd, hq, hr, hc, hf, hi, hp, hm]

/-- A read is a function of the elements of R20. -/
theorem tblRead_congr {s t : State} (h : SameTables s t) (a : TblAddr) : t.tblRead a = s.tblRead a := by
  have e := statusReg_congr h.phase h.fault h.finfo h.ndist h.nnodes h.root h.pqlen h.cur h.node h.inq
  unfold State.tblRead State.nodeWord State.allocated
  rw [h.freq, h.clen, h.cbits, h.node, h.inq, h.nnodes]
  simp only [e]

/-- The host's side of the ports does not matter to a read. -/
theorem tblRead_around (s : State) (q : List HostInput) (tr : List Event) (a : TblAddr) :
    State.tblRead { s with inputs := q, trace := tr } a = s.tblRead a :=
  tblRead_congr ⟨rfl, rfl, rfl, rfl, rfl, rfl, rfl, rfl, rfl, rfl, rfl, rfl, rfl⟩ a

variable (s : State)

theorem addr_toNat {n : Nat} (h : n < 65536) : (BitVec.ofNat 16 n).toNat = n := by
  rw [BitVec.toNat_ofNat]; omega

/-- FREQ region (R62). -/
theorem State.tblRead_freq {a : TblAddr} (h : a.toNat < 0x0100) : s.tblRead a = some (s.freqAt (a.setWidth 8)) := by
  have e : (a.setWidth 8).toNat = a.toNat := by rw [BitVec.toNat_setWidth]; omega
  simp only [State.tblRead, h, if_true, State.freqAt, e]
  exact s.freq.get?_of_lt h

/-- CLEN region (R63). -/
theorem State.tblRead_clen (x : Sym) : s.tblRead (BitVec.ofNat 16 (0x0100 + x.toNat)) = some (clenWord (s.clenAt x)) := by
  have hx := x.isLt
  have h1 : ¬ 0x0100 + x.toNat < 0x0100 := by omega
  have h2 : 0x0100 + x.toNat < 0x0200 := by omega
  simp only [State.tblRead, addr_toNat (n := 0x0100 + x.toNat) (by omega), h1, h2, if_false, if_true,
    Nat.add_sub_cancel_left]
  rw [s.clen.get?_of_lt x.isLt]
  rfl

/-- CBITS region (R64). -/
theorem State.tblRead_cbits (x : Sym) {w : Nat} (hw : w < 8) :
    s.tblRead (BitVec.ofNat 16 (0x0800 + 8 * x.toNat + w)) = some (cbitsWord (s.cbitsAt x) w) := by
  have hx := x.isLt
  obtain ⟨n, hn⟩ : ∃ n, 0x0800 + 8 * x.toNat + w = n := ⟨_, rfl⟩
  have h1 : ¬ n < 0x0100 ∧ ¬ n < 0x0200 ∧ ¬ n < 0x0800 ∧ n < 0x1000 := by omega
  have h2 : (n - 0x0800) / 8 = x.toNat ∧ (n - 0x0800) % 8 = w := by omega
  rw [hn]
  simp only [State.tblRead, addr_toNat (n := n) (by omega), h1, h2, if_false, if_true, s.cbits.get?_of_lt x.isLt]
  rfl

/-- NODE region (R65). -/
theorem State.tblRead_node {i f : Nat} (hi : i < 511) (hf : f < 4) :
    s.tblRead (BitVec.ofNat 16 (0x1000 + 4 * i + f)) = s.nodeWord i f := by
  obtain ⟨n, hn⟩ : ∃ n, 0x1000 + 4 * i + f = n := ⟨_, rfl⟩
  have h1 : ¬ n < 0x0100 ∧ ¬ n < 0x0200 ∧ ¬ n < 0x0800 ∧ ¬ n < 0x1000 ∧ n < 0x17FC := by omega
  have h2 : (n - 0x1000) / 4 = i ∧ (n - 0x1000) % 4 = f := by omega
  rw [hn]
  simp only [State.tblRead, addr_toNat (n := n) (by omega), h1, h2, if_false, if_true]

theorem State.nodeWord_eq {i : Nat} (hi : i < 511) (f : Nat) :
    s.nodeWord i f =
      if f = 0 then some (nodeWord0 (s.nd i)) else if f = 1 then some (nodeWord1 (s.nd i) (s.inQ i) (s.allocated i))
      else if f = 2 then some (nodeWord2 (s.nd i)) else if f = 3 then some (nodeWord3 (s.nd i)) else none := by
  simp only [State.nodeWord, State.nd, State.inQ, Table.get?_of_lt _ hi, Option.getD_some]

/-- Status registers (R66). -/
theorem State.tblRead_status {a : TblAddr} (h : 0x2000 ≤ a.toNat) : s.tblRead a = s.statusReg a.toNat := by
  have above : ∀ b, b ≤ 0x2000 → ¬ a.toNat < b := fun b hb => by omega
  simp only [State.tblRead, above _ (show 0x0100 ≤ 0x2000 by decide), above _ (show 0x0200 ≤ 0x2000 by decide),
    above _ (show 0x0800 ≤ 0x2000 by decide), above _ (show 0x1000 ≤ 0x2000 by decide),
    above _ (show 0x17FC ≤ 0x2000 by decide), above _ (Nat.le_refl _), if_false]

/-- Nine registers and no more (R66). -/
theorem State.statusReg_none_iff {n : Nat} (h : 0x2000 ≤ n) : s.statusReg n = none ↔ 0x2009 ≤ n := by
  constructor
  · intro g
    by_contra c
    obtain ⟨k, hk, rfl⟩ : ∃ k, k < 9 ∧ n = 0x2000 + k := ⟨n - 0x2000, by omega, by omega⟩
    unfold State.statusReg at g
    interval_cases k <;> simp at g
  · intro g
    obtain ⟨k, rfl⟩ : ∃ k, n = 0x2009 + k := ⟨n - 0x2009, by omega⟩
    have beyond : ∀ m, m < 0x2009 → (0x2009 + k = m) = False := fun m hm => eq_false (by omega)
    unfold State.statusReg
    simp (disch := decide) only [beyond, if_false]

end Sys2Proof.Machine
end

