-- ==== Sys2Proof/Laws/Ported.lean ====
section
/-! SUPPORT. The model's own fields, the host's inputs and the trace, do not influence what a command does: every
operation commutes with replacing them (spec/10_state.md R38, R39). -/

namespace Sys2Proof.Machine

/-- The state with other inputs and another trace. -/
def State.ported (s : State) (q : List HostInput) (tr : List Event) : State := { s with inputs := q, trace := tr }

/-- The reply whose new state has other inputs and another trace. -/
def Reply.ported (q : List HostInput) (tr : List Event) : Reply → Reply
  | .done s beats d => .done (s.ported q tr) beats d
  | .raise c v => .raise c v

variable (s : State) (q : List HostInput) (tr : List Event)

theorem State.ported_self : s.ported s.inputs s.trace = s := rfl

theorem setParent_ported (i k : Idx) : (s.ported q tr).setParent i k = (s.setParent i k).ported q tr := by
  unfold State.setParent
  show (match s.nodeAt i with | some n => _ | none => _) = _
  cases s.nodeAt i <;> rfl

theorem pqmin_ported : (s.ported q tr).pqmin = s.pqmin := pqmin_congr rfl rfl

theorem setInq_ported (i : Idx) (b : Bool) : (s.ported q tr).setInq i b = (s.setInq i b).ported q tr := rfl

theorem join_ported (t1 t2 : Idx) (c : Cnt) : (s.ported q tr).join t1 t2 c = (s.join t1 t2 c).ported q tr := by
  unfold State.join
  have e : (s.ported q tr).setNode (s.ported q tr).nnodes (joinNode c t1 t2)
      = (s.setNode s.nnodes (joinNode c t1 t2)).ported q tr := rfl
  simp only [e, setParent_ported, setInq_ported]
  rfl

theorem mergeTwo_ported : (s.ported q tr).mergeTwo = s.mergeTwo.ported q tr := by
  unfold State.mergeTwo
  simp only [pqmin_ported, setInq_ported, join_ported]
  rfl

theorem finaliseIfDone_ported : (s.ported q tr).finaliseIfDone = s.finaliseIfDone.ported q tr := by
  unfold State.finaliseIfDone
  have e : (s.ported q tr).finalise = s.finalise.ported q tr := by
    unfold State.finalise
    simp only [pqmin_ported, setInq_ported]
    rfl
  rw [e]
  show (if s.pqlen.toNat ≤ 1 then _ else _) = _
  split <;> rfl

theorem mstep_ported : (s.ported q tr).mstep = s.mstep.ported q tr := by
  unfold State.mstep
  rw [mergeTwo_ported, finaliseIfDone_ported, finaliseIfDone_ported]
  show (if 2 ≤ s.pqlen.toNat then _ else _) = _
  split <;> rfl

theorem mergeLoop_ported (n : Nat) : mergeLoop n (s.ported q tr) = (mergeLoop n s).ported q tr := by
  induction n generalizing s with
  | zero => rfl
  | succ n ih =>
    simp only [mergeLoop, mstep_ported, ih]
    show (if s.mstep.phase = .tree then _ else _) = _
    split <;> rfl

theorem placeLeaves_ported : ∀ (l : List (Sym × Freq)) (n : Nat) (s : State),
    placeLeaves l n (s.ported q tr) = (placeLeaves l n s).ported q tr
  | [], _, _ => rfl
  | (x, f) :: l, n, s => by
    unfold placeLeaves
    exact placeLeaves_ported l (n + 1) ((s.setNode (BitVec.ofNat 9 n) (leafNode x f)).setInq (BitVec.ofNat 9 n) true)

theorem loadForest_ported : (s.ported q tr).loadForest = s.loadForest.ported q tr := by
  unfold State.loadForest
  have e : (s.ported q tr).present = s.present := rfl
  rw [e, placeLeaves_ported]
  rfl

theorem recordCode_ported (i : Idx) : (s.ported q tr).recordCode i = (s.recordCode i).ported q tr := by
  unfold State.recordCode
  rw [codeOf_congr (s := s) (t := s.ported q tr) rfl rfl i]
  show (match s.nodeAt i with | some n => _ | none => _) = _
  cases s.nodeAt i <;> rfl

theorem recordCodes_ported (m i : Nat) : recordCodes m i (s.ported q tr) = (recordCodes m i s).ported q tr := by
  induction m generalizing i s with
  | zero => rfl
  | succ m ih => simp only [recordCodes, recordCode_ported, ih]

theorem deriveCodes_ported : (s.ported q tr).deriveCodes = s.deriveCodes.ported q tr := by
  unfold State.deriveCodes
  rw [recordCodes_ported]
  by_cases h : s.root = Config.nil
  · simp only [State.ported, h, if_true]
  · simp only [State.ported, h, if_false]

theorem curChild_ported (b : BitVec 1) : (s.ported q tr).curChild b = s.curChild b := rfl

/-- A command's own rule does not depend on the inputs or the trace. -/
theorem ownReply_ported (i : Instr) : ownReply i (s.ported q tr) = (ownReply i s).ported q tr := by
  cases i with
  | nop => rfl
  | clr => rfl
  | sym x =>
    simp only [ownReply, symReply]
    show (if s.freqAt x = Config.freqMax then _ else _) = _
    split <;> rfl
  | ldf x d => rfl
  | forest => simp only [ownReply, loadForest_ported]; rfl
  | merge => simp only [ownReply, mstep_ported]; rfl
  | tree => simp only [ownReply, mergeLoop_ported]; rfl
  | derive => simp only [ownReply, deriveCodes_ported]; rfl
  | enc x =>
    simp only [ownReply, encReply]
    show (if s.clenAt x = 0 then _ else _) = _
    split <;> rfl
  | encend => rfl
  | dec b =>
    simp only [ownReply, decReply, walkReply]
    have e : ∀ i : Idx, (s.ported q tr).nodeAt i = s.nodeAt i := fun _ => rfl
    simp only [e, curChild_ported, show (s.ported q tr).root = s.root from rfl]
    cases s.nodeAt s.root with
    | none => rfl
    | some r =>
      simp only
      split
      · rfl
      · cases s.nodeAt (s.curChild b) with
        | none => rfl
        | some c => simp only; split <;> rfl
  | decend => rfl
  | rd a =>
    simp only [ownReply, rdReply]
    rw [show (s.ported q tr).tblRead a = s.tblRead a from tblRead_around s q tr a]
    cases s.tblRead a <;> rfl

/-- The same command from the same tables does the same, whatever the inputs and the trace (R38, R39). -/
theorem exec_ported {s t : State} {i : Instr} (h : exec i s = .next t) (q : List HostInput) (tr : List Event) :
    exec i (s.ported q tr) = .next (t.ported q (tr ++ eventsSince s t)) := by
  have ev : ∀ {u : State} {es : List Event}, u.trace = s.trace ++ es → eventsSince s u = es := by
    intro u es hu; unfold eventsSince; rw [hu]; simp
  rw [exec_eq_perform] at h ⊢
  rw [ownReply_ported]
  rcases perform_cases s i (ownReply i s) with ⟨h1, h2, h3⟩ | ⟨h1, h2, h3⟩ | ⟨h2, h3⟩
  · rw [h3] at h
    simp only [Host.Outcome.next.injEq] at h
    subst h
    rw [ev rfl, ← ownReply_ported, ← exec_eq_perform]
    exact exec_refused (s := s.ported q tr) h1 h2
  · rw [h3] at h
    simp only [Host.Outcome.next.injEq] at h
    subst h
    rw [ev (s.raise_trace _ _)]
    rcases perform_cases (s.ported q tr) i ((ownReply i s).ported q tr) with ⟨g1, g2, -⟩ | ⟨-, -, g3⟩ | ⟨g2, -⟩
    · rcases h1 with h1 | h1
      · exact absurd h1 g1
      · rw [g2] at h1; exact Bool.noConfusion h1
    · rw [g3]
      by_cases hf : s.fault = 0
      · rw [State.raise_first hf, State.raise_first (s := s.ported q tr) hf]; rfl
      · rw [State.raise_later hf, State.raise_later (s := s.ported q tr) hf]; rfl
    · have := g2.2
      rw [show (s.ported q tr).phase = s.phase from rfl, h2] at this
      exact Bool.noConfusion this
  · rw [h3] at h
    rw [perform_of_passes (s := s.ported q tr) h2]
    rcases answer_next h with ⟨s', beats, d, hr, rfl⟩ | ⟨c, v, hr, rfl⟩
    · have ht := (ownReply_done hr).2.1
      rw [hr, ev (show (s'.emit _).trace = s.trace ++ (beats ++ [.rsp Config.okCode d]) by rw [State.emit_trace, ht])]
      rfl
    · rw [hr, ev (s.raise_trace c v)]
      show Host.Outcome.next ((s.ported q tr).raise c v) = _
      by_cases hf : s.fault = 0
      · rw [State.raise_first hf, State.raise_first (s := s.ported q tr) hf]; rfl
      · rw [State.raise_later hf, State.raise_later (s := s.ported q tr) hf]; rfl

/-- A command leaves the inputs to the host and only appends to the trace. -/
theorem exec_ports {i : Instr} {s t : State} (h : exec i s = .next t) :
    t.inputs = s.inputs ∧ t.trace = s.trace ++ eventsSince s t := by
  have e : ∀ {es : List Event}, t.trace = s.trace ++ es → t.trace = s.trace ++ eventsSince s t := by
    intro es h; unfold eventsSince; rw [h]; simp
  rcases exec_next h with ⟨-, -, rfl⟩ | ⟨c, v, rfl, -⟩ | ⟨-, s', beats, d, hr, rfl⟩
  · exact ⟨rfl, e rfl⟩
  · exact ⟨s.raise_inputs c v, e (s.raise_trace c v)⟩
  · obtain ⟨h1, h2, -⟩ := ownReply_done hr
    exact ⟨h1, e (show (s'.emit _).trace = s.trace ++ _ by rw [State.emit_trace, h2])⟩

theorem runAll_ports {is : List Instr} {s t : State} (h : runAll is s = .next t) :
    t.inputs = s.inputs ∧ t.trace = s.trace ++ eventsSince s t := by
  induction is generalizing s with
  | nil =>
    simp only [runAll, Host.Outcome.next.injEq] at h
    subst h
    exact ⟨rfl, by simp [eventsSince]⟩
  | cons i is ih =>
    rw [runAll] at h
    split at h
    · rename_i u hu
      obtain ⟨a1, a2⟩ := exec_ports hu
      obtain ⟨b1, b2⟩ := ih h
      refine ⟨b1.trans a1, ?_⟩
      have : t.trace = s.trace ++ (eventsSince s u ++ eventsSince u t) := by rw [b2]; rw [a2]; simp
      conv_rhs => unfold eventsSince
      rw [this]; simp
    · exact absurd h (by simp)
    · exact absurd h (by simp)

/-- The events of two consecutive runs. -/
theorem eventsSince_trans {s t u : State} (h1 : t.trace = s.trace ++ eventsSince s t)
    (h2 : u.trace = t.trace ++ eventsSince t u) : eventsSince s u = eventsSince s t ++ eventsSince t u := by
  have : u.trace = s.trace ++ (eventsSince s t ++ eventsSince t u) := by rw [h2]; rw [h1]; simp
  conv_lhs => unfold eventsSince
  rw [this]; simp

/-- The same run from the same tables does the same, whatever the inputs and the trace. -/
theorem runAll_ported {is : List Instr} {s t : State} (h : runAll is s = .next t) (q : List HostInput)
    (tr : List Event) : runAll is (s.ported q tr) = .next (t.ported q (tr ++ eventsSince s t)) := by
  induction is generalizing s tr with
  | nil =>
    simp only [runAll, Host.Outcome.next.injEq] at h
    subst h
    simp [runAll, eventsSince]
  | cons i is ih =>
    rw [runAll] at h
    split at h
    · rename_i u hu
      rw [runAll, exec_ported hu q tr, eventsSince_trans (exec_ports hu).2 (runAll_ports h).2, ← List.append_assoc]
      exact ih h (tr ++ eventsSince s u)
    · exact absurd h (by simp)
    · exact absurd h (by simp)

end Sys2Proof.Machine
end

