-- ==== Sys2Proof/Laws/Streams.lean ====
section
/-! SUPPORT. Streams: what a run of ENC emits, what a run of DEC emits, the code as the table holds it, and the walk of
codes and of padding (spec/43_encoder.md R197, 44_decoder.md R215, 46_properties.md R243, R250). -/

namespace Sys2Proof.Machine

theorem passes_intro {s : State} {i : Instr} (hf : s.fault = 0) (hl : legalIn i s.phase = true) : passes i s :=
  ⟨Or.inl hf, hl⟩

theorem Phase.beq_false {p q : Phase} (h : p ≠ q) : (p == q) = false := by simpa using h

/-! ## Encoding -/

/-- The events of the ENC commands of a sequence that has codes (R197). -/
def State.encEvents (s : State) (xs : List Sym) : List Event :=
  xs.flatMap fun x => (s.codeBits x).map .bit ++ [.rsp 0x00 0]

theorem bitsOf_map_bit (c : Code) : bitsOf (c.map .bit) = c := by
  unfold bitsOf
  induction c with
  | nil => rfl
  | cons b c ih => simp only [List.map_cons, List.filterMap_cons, Event.bitData, ih]

theorem bitsOf_append (a b : List Event) : bitsOf (a ++ b) = bitsOf a ++ bitsOf b := List.filterMap_append

theorem symbolsOf_append (a b : List Event) : symbolsOf (a ++ b) = symbolsOf a ++ symbolsOf b := List.filterMap_append

theorem bitsOf_encEvents (s : State) (xs : List Sym) : bitsOf (s.encEvents xs) = s.encodeBits xs := by
  unfold State.encEvents State.encodeBits
  induction xs with
  | nil => rfl
  | cons x xs ih =>
    rw [List.flatMap_cons, bitsOf_append, bitsOf_append, ih, bitsOf_map_bit, List.flatMap_cons]
    simp [bitsOf, Event.bitData]

/-- ENC of symbols that have codes, one after another. -/
theorem runAll_enc (xs : List Sym) : ∀ {s : State}, s.fault = 0 → s.phase = .ready → (∀ x ∈ xs, s.clenAt x ≠ 0) →
    runAll (xs.map .enc) s = .next (s.emit (s.encEvents xs)) := by
  induction xs with
  | nil => intro s _ _ _; simp [runAll, State.emit, State.encEvents]
  | cons x xs ih =>
    intro s hf hp hx
    have hr : ownReply (.enc x) s = .done s ((s.codeBits x).map .bit) 0 := by
      simp only [ownReply, encReply]; rw [if_neg (hx x (by simp))]
    rw [List.map_cons, runAll_cons_next (exec_done (passes_intro hf (by simp [legalIn, hp])) hr),
      ih (s := s.emit _) hf hp fun y hy => hx y (by simp [hy])]
    simp only [State.emit, State.encEvents, List.flatMap_cons, List.append_assoc]
    rfl

theorem eventsSince_emit (s : State) (es : List Event) : eventsSince s (s.emit es) = es := by
  simp [eventsSince]

theorem codeBits_length (s : State) (x : Sym) : (s.codeBits x).length = (s.clenAt x).toNat := by
  simp [State.codeBits]

/-- What DERIVE records of a code of at most 255 bits reads back as the code (R30, R181). -/
theorem codeBits_of_record {s : State} {x : Sym} {c : Code} (hl : c.length ≤ Config.maxLen)
    (h1 : s.clenAt x = BitVec.ofNat 8 c.length) (h2 : s.cbitsAt x = codeVector c) : s.codeBits x = c := by
  have hc : (BitVec.ofNat 8 c.length).toNat = c.length := by
    rw [BitVec.toNat_ofNat]; simp only [Config.maxLen] at hl; omega
  apply List.ext_getElem
  · rw [codeBits_length, h1, hc]
  · intro k h3 h4
    simp only [State.codeBits, List.getElem_map, List.getElem_range, h2, codeVector, BitVec.getLsbD_setWidth,
      BitVec.getLsbD_ofBoolListLE]
    simp only [Config.maxLen] at hl
    have : k < 255 := by omega
    simp [this, List.getD, List.getElem?_eq_getElem h4]

theorem codeVector_getLsbD (c : Code) (k : Nat) :
    (codeVector c).getLsbD k = (decide (k < 255) && c.getD k false) := by
  simp only [codeVector, BitVec.getLsbD_setWidth, BitVec.getLsbD_ofBoolListLE]

/-! ## Decoding -/

theorem decodeBits_append (s : State) (c : Idx) (as bs : List Bool) :
    (s.decodeBits c (as ++ bs)).1 = (s.decodeBits c as).1 ++ (s.decodeBits (s.decodeBits c as).2 bs).1 ∧
    (s.decodeBits c (as ++ bs)).2 = (s.decodeBits (s.decodeBits c as).2 bs).2 := by
  induction as generalizing c with
  | nil => exact ⟨rfl, rfl⟩
  | cons a as ih =>
    simp only [List.cons_append, State.decodeBits]
    split
    · exact ⟨by simp only [(ih c).1, List.cons_append], (ih c).2⟩
    · split
      · exact ⟨by simp only [(ih s.root).1, List.cons_append], (ih s.root).2⟩
      · exact ih _

theorem decodeBits_congr {s t : State} (h : t.node = s.node) (hr : t.root = s.root) (c : Idx) (bs : List Bool) :
    t.decodeBits c bs = s.decodeBits c bs := by
  induction bs generalizing c with
  | nil => rfl
  | cons b bs ih =>
    have hch : t.childOf c b = s.childOf c b := by simp only [State.childOf, nd_congr h]
    simp only [State.decodeBits, hch, nd_congr h, hr, ih]

/-- A leaf root: one symbol for each bit (R212). -/
theorem decodeBits_leafRoot {s : State} (h : (s.nd s.root.toNat).leaf = true) (c : Idx) (bs : List Bool) :
    s.decodeBits c bs = (List.replicate bs.length (s.nd s.root.toNat).sym, c) := by
  induction bs generalizing c with
  | nil => rfl
  | cons b bs ih => simp only [State.decodeBits, h, if_true, ih, List.length_cons, List.replicate_succ]

/-- What one DEC does on a finished tree that is present (R210, R212, R216). -/
theorem TreeOk.exec_dec {s : State} (h : TreeOk s) (hp : s.phase.treeFinal = true) (hf : s.fault = 0)
    (hr : s.root ≠ Config.nil) (b : Bool) :
    ∃ es, exec (.dec (BitVec.ofBool b)) s =
        .next (State.emit { s with cur := (s.decodeBits s.cur [b]).2 } es) ∧
      symbolsOf es = (s.decodeBits s.cur [b]).1 ∧ bitsOf es = [] := by
  have hps : passes (.dec (BitVec.ofBool b)) s := passes_intro hf (by
    rcases Phase.treeFinal_iff.1 hp with e | e <;> simp [legalIn, e])
  have hroot := (s.nodeAt_eq_some (i := s.root)).2 ⟨hr, rfl⟩
  by_cases hl : (s.nd s.root.toNat).leaf = true
  · rw [decodeBits_leafRoot hl]
    refine ⟨[.symb (s.nd s.root.toNat).sym, .rsp 0 0], exec_done (beats := [.symb (s.nd s.root.toNat).sym]) hps ?_,
      by simp [symbolsOf, Event.symData], by simp [bitsOf, Event.bitData]⟩
    simp only [ownReply, decReply, hroot, hl, if_true]
  · have hl' : s.rootIsLeaf = false := by rw [State.rootIsLeaf_eq]; simpa using hl
    obtain ⟨c1, c2⟩ := h.cur_internal hr hl'
    have hcn : s.cur ≠ Config.nil := idx_lt_511.1 (by have := h.arena.nnodes_le; omega)
    have hlt := h.arena.childOf_lt c1 c2 b
    have hch : s.childOf s.cur b ≠ Config.nil := idx_lt_511.1 (by have := h.arena.nnodes_le; omega)
    have hce : (s.nd s.cur.toNat).child (BitVec.ofBool b) = s.childOf s.cur b := by
      rw [child_eq_childOf]; cases b <;> rfl
    have hw : ownReply (.dec (BitVec.ofBool b)) s = walkReply (BitVec.ofBool b) s := by
      simp only [ownReply, decReply, hroot, hl]; rfl
    rw [walkReply, State.curChild_eq hcn, hce] at hw
    rw [(s.nodeAt_eq_some (i := s.childOf s.cur b)).2 ⟨hch, rfl⟩] at hw
    simp only at hw
    simp only [State.decodeBits, hl]
    by_cases hcl : (s.nd (s.childOf s.cur b).toNat).leaf = true
    · rw [if_pos hcl] at hw
      refine ⟨[.symb (s.nd (s.childOf s.cur b).toNat).sym, .rsp 0 0], ?_, ?_, ?_⟩
      · rw [exec_done hps hw]
        simp only [hcl, if_true]
        rfl
      · simp [hcl, symbolsOf, Event.symData]
      · simp [bitsOf, Event.bitData]
    · rw [if_neg hcl] at hw
      refine ⟨[.rsp 0 0], ?_, ?_, ?_⟩
      · rw [exec_done hps hw]
        simp only [hcl]
        rfl
      · simp [hcl, symbolsOf, Event.symData]
      · simp [bitsOf, Event.bitData]

/-- What a run of DEC does on a finished tree that is present (R215). -/
theorem runAll_dec (bs : List Bool) : ∀ {s : State}, Inv s → s.phase.treeFinal = true → s.fault = 0 →
    s.root ≠ Config.nil →
    ∃ es, runAll (decCommands bs) s = .next (State.emit { s with cur := (s.decodeBits s.cur bs).2 } es) ∧
      symbolsOf es = (s.decodeBits s.cur bs).1 ∧ bitsOf es = [] := by
  induction bs with
  | nil => intro s _ _ _ _; exact ⟨[], by simp [decCommands, runAll, State.emit, State.decodeBits], rfl, rfl⟩
  | cons b bs ih =>
    intro s hi hp hf hr
    obtain ⟨es, h1, h2, h3⟩ := (hi.finished hp).exec_dec hp hf hr b
    have hi' := hi.exec h1
    obtain ⟨fs, g1, g2, g3⟩ := ih hi' hp hf hr
    have a := decodeBits_append s s.cur [b] bs
    have cg : ∀ c bs, State.decodeBits (State.emit { s with cur := (s.decodeBits s.cur [b]).2 } es) c bs
        = s.decodeBits c bs := fun c bs => decodeBits_congr (s := s) (t := State.emit { s with cur := (s.decodeBits s.cur [b]).2 } es) rfl rfl c bs
    refine ⟨es ++ fs, ?_, ?_, ?_⟩
    · show runAll (.dec (BitVec.ofBool b) :: decCommands bs) s = _
      rw [runAll_cons_next h1, g1, cg, show b :: bs = [b] ++ bs from rfl, a.2]
      simp only [State.emit, List.append_assoc]
    · rw [symbolsOf_append, h2, g2, cg, show b :: bs = [b] ++ bs from rfl, a.1]
      rfl
    · rw [bitsOf_append, h3, g3]; rfl

end Sys2Proof.Machine
end

