-- ==== Sys2Proof/Laws/Build.lean ====
section
/-! SUPPORT. Building the tree, in the words of the statements: the present symbols, the least member and the second
least, the merged forest read record by record, and the merge loop beside the MERGE commands it stands for. -/

namespace Sys2Proof.Machine

/-- The present symbols are those of FOREST's list (R21, R150). -/
theorem State.presentSyms_eq (s : State) : s.presentSyms = s.present.map fun p => p.1 := by
  rw [State.present_eq, List.map_map, State.presentSyms, State.presentList, List.filter_map]
  have e : (List.range 256).filter ((fun x => decide (s.freqAt x ≠ 0)) ∘ BitVec.ofNat 8)
      = (List.range 256).filter fun i => decide ((s.freq.entries[i]?).getD 0 ≠ 0) := by
    apply List.filter_congr
    intro i hi
    rw [freq_entry s (List.mem_range.1 hi)]; rfl
  rw [e]; rfl

theorem keyLe_of_not_lt {s : State} {i j : Idx} (h : ¬ Key.Lt ((s.nd j.toNat).cnt, j) ((s.nd i.toNat).cnt, i)) : s.keyLe i.toNat j.toNat := by
  simp only [Key.Lt, BitVec.lt_def, ← BitVec.toNat_inj] at h
  unfold State.keyLe
  omega

theorem inQ_idx {s : State} {i : Nat} (h : s.inQ i = true) : ∃ k : Idx, k.toNat = i ∧ k ≠ Config.nil := by
  have : i < 511 := by
    by_contra c
    rw [s.inQ_of_ge (by omega)] at h; cases h
  refine ⟨BitVec.ofNat 9 i, ?_, ?_⟩
  · rw [BitVec.toNat_ofNat]; omega
  · apply idx_lt_511.1; rw [BitVec.toNat_ofNat]; omega

/-- `pqmin` of a non-empty structure has the least key (R26). -/
theorem pqmin_isLeast {s : State} (h : s.pqmin ≠ Config.nil) : s.isLeast (fun i => s.inQ i = true) s.pqmin.toNat := by
  obtain ⟨h1, h2⟩ := State.pqmin_spec h
  refine ⟨h1, fun j hj => ?_⟩
  obtain ⟨k, rfl, -⟩ := inQ_idx hj
  exact keyLe_of_not_lt (h2 k hj)

theorem isLeast_unique {s : State} {m : Nat → Prop} {i j : Nat} (hi : s.isLeast m i) (hj : s.isLeast m j) : i = j := by
  have a := hi.2 j hj.1
  have b := hj.2 i hi.1
  unfold State.keyLe at a b
  omega

/-- The second removal yields the least of the others (R151). -/
theorem pqmin_second {s : State} {t1 : Idx} (h1 : t1 ≠ Config.nil) (h2 : (s.setInq t1 false).pqmin ≠ Config.nil) :
    s.isLeast (fun i => s.inQ i = true ∧ i ≠ t1.toNat) (s.setInq t1 false).pqmin.toNat := by
  have h := pqmin_isLeast h2
  have q : ∀ i, (s.setInq t1 false).inQ i = true ↔ s.inQ i = true ∧ i ≠ t1.toNat := by
    intro i; rw [s.inQ_remove h1]
    by_cases e : t1.toNat = i
    · simp [e]
    · simp [e, Ne.symm e]
  refine ⟨(q _).1 h.1, fun j hj => ?_⟩
  exact h.2 j ((q j).2 hj)

/-- The forest after the first part of a merge step, record by record (R152). -/
theorem ForestOk.mergeTwo_reads {s : State} (h : ForestOk s) (h2 : 2 ≤ s.pqlen.toNat) :
    ∃ a b : Idx, s.isLeast (fun i => s.inQ i = true) a.toNat ∧
      s.isLeast (fun i => s.inQ i = true ∧ i ≠ a.toNat) b.toNat ∧
      a.toNat < s.nnodes.toNat ∧ b.toNat < s.nnodes.toNat ∧ s.nnodes.toNat < 511 ∧
      ((s.nd a.toNat).cnt + (s.nd b.toNat).cnt).toNat = (s.nd a.toNat).cnt.toNat + (s.nd b.toNat).cnt.toNat ∧
      s.mergeTwo = ((s.setInq a false).setInq b false).join a b ((s.nd a.toNat).cnt + (s.nd b.toNat).cnt) ∧
      (∀ i, s.mergeTwo.nd i =
        if i = s.nnodes.toNat then joinNode ((s.nd a.toNat).cnt + (s.nd b.toNat).cnt) a b
        else if i = a.toNat ∨ i = b.toNat then { s.nd i with parent := s.nnodes } else s.nd i) ∧
      (∀ i, s.mergeTwo.inQ i = true ↔ i = s.nnodes.toNat ∨ (s.inQ i = true ∧ i ≠ a.toNat ∧ i ≠ b.toNat)) := by
  obtain ⟨a, b, e1, e2, hne, q1, q2, b1, b2, hk, hc⟩ := h.two_least h2
  have n1 : a ≠ Config.nil := idx_lt_511.1 (by omega)
  have n2 : b ≠ Config.nil := idx_lt_511.1 (by omega)
  have k1 : a ≠ s.nnodes := fun e => by rw [e] at b1; omega
  have k2 : b ≠ s.nnodes := fun e => by rw [e] at b2; omega
  have hj := State.mergeTwo_eq e1 e2 n1 n2 hc
  refine ⟨a, b, ?_, ?_, b1, b2, hk, ?_, hj, ?_, ?_⟩
  · have := pqmin_isLeast (s := s) (by rw [e1]; exact n1); rw [e1] at this; exact this
  · have := pqmin_second (s := s) n1 (by rw [e2]; exact n2); rw [e2] at this; exact this
  · rw [BitVec.toNat_add]; simp only [Config.cntLimit] at hc; omega
  · intro i; rw [hj, State.nd_join ((s.setInq a false).setInq b false) _ hk k1 k2 n1 n2]; rfl
  · intro i
    rw [hj, State.inQ_join ((s.setInq a false).setInq b false) a b _ hk]
    show (if i = s.nnodes.toNat then true else _) = true ↔ _
    by_cases c : i = s.nnodes.toNat
    · simp [c]
    · rw [if_neg c, State.inQ_remove _ n2, State.inQ_remove _ n1]
      simp only [eq_comm (a := a.toNat), eq_comm (a := b.toNat)]
      by_cases c1 : i = a.toNat <;> by_cases c2 : i = b.toNat <;> simp [c, c1, c2]
      all_goals omega

/-- MERGE, where it is legal (R153). -/
theorem exec_merge {s : State} (hf : s.fault = 0) (hp : s.phase = .forest) :
    exec .merge s = .next (s.mstep.emit [.rsp 0x00 0]) :=
  exec_done (beats := []) (passes_intro hf (by simp [legalIn, hp])) rfl

/-- The loop of TREE beside the MERGE commands it stands for (R154, R158). -/
theorem mergeLoop_runAll (n : Nat) : ∀ {s : State}, s.pqlen.toNat ≤ n → 0 < n → s.fault = 0 → s.phase = .forest →
    runAll (List.replicate (max (s.pqlen.toNat - 1) 1) .merge) s =
      .next ((mergeLoop n s).ported s.inputs
        (s.trace ++ List.replicate (max (s.pqlen.toNat - 1) 1) (.rsp 0x00 0))) := by
  induction n with
  | zero => intro s _ h0; omega
  | succ n ih =>
    intro s hn h0 hf hp
    have hx := exec_merge hf hp
    have F := s.mstep_frame
    generalize hu : s.mstep = u at hx F
    have hport : u.emit [.rsp 0x00 0] = u.ported s.inputs (s.trace ++ [.rsp 0x00 0]) := by
      rw [← F.inputs, ← F.trace]; rfl
    simp only [mergeLoop, hu]
    have hph := s.mstep_phase
    rw [hu] at hph
    rcases hph with ⟨g1, g2, -⟩ | ⟨g1, g2, g3⟩
    · rw [if_pos g2, show max (s.pqlen.toNat - 1) 1 = 1 by omega]
      exact (runAll_one hx).trans (congrArg _ hport)
    · have hup : u.phase = .forest := g2.trans hp
      have t3 := ih (s := u) (by omega) (by omega) (F.fault.trans hf) hup
      rw [if_neg (by rw [hup]; decide), show max (s.pqlen.toNat - 1) 1 = max (u.pqlen.toNat - 1) 1 + 1 by omega,
        List.replicate_succ, runAll_cons_next hx, hport, runAll_ported t3 s.inputs (s.trace ++ [Event.rsp 0x00 0])]
      generalize mergeLoop n u = t at t3 ⊢
      have ev : eventsSince u (t.ported u.inputs (u.trace ++ List.replicate (max (u.pqlen.toNat - 1) 1) (.rsp 0x00 0)))
          = List.replicate (max (u.pqlen.toNat - 1) 1) (Event.rsp 0x00 0) := by
        simp [eventsSince, State.ported]
      rw [ev, List.replicate_succ, List.append_assoc]
      rfl

end Sys2Proof.Machine
end

