-- ==== Sys2Proof/Laws/Unique.lean ====
section
/-! SUPPORT. Codes are read back from the table: the bit-string that leads from ROOT to a node is `path` of it, and the
walk of a leaf's code emits its symbol at the last bit and not before (spec/42_code_table.md R180, 46_properties.md
R243, R244). -/

namespace Sys2Proof.Machine

/-- `path` is the bit-string that leads there (R180). -/
theorem TreeOk.path_of_follow {s : State} (h : TreeOk s) {i : Idx} {c : Code} (hnd : s.ndist ≠ 0)
    (hc : s.follow s.root c = some i) : s.path i = some c := by
  obtain ⟨hn, hr, -, -⟩ := h.present hnd
  obtain ⟨h1, -⟩ := h.arena.follow_spec (by omega) hc
  obtain ⟨d, hd, hf, -⟩ := h.path_spec h1
  rw [hd, h.follow_unique hnd hf hc]

/-- `path` leads there. -/
theorem TreeOk.follow_of_path {s : State} (h : TreeOk s) {i : Idx} {c : Code} (hi : i.toNat < s.nnodes.toNat)
    (hc : s.path i = some c) : s.follow s.root c = some i := by
  obtain ⟨d, hd, hf, -⟩ := h.path_spec hi
  rw [hc] at hd
  rw [Option.some.inj hd]; exact hf

/-- A code that leads from an internal node to a leaf, walked: nothing before the last bit, then the symbol (R244). -/
theorem ArenaOk.walk_leaf {s : State} (h : ArenaOk s) (hl : (s.nd s.root.toNat).leaf = false) {i : Idx}
    (hi : (s.nd i.toNat).leaf = true) (rest : List Bool) : ∀ (c : Code) {k : Idx}, s.ndist.toNat ≤ k.toNat →
    k.toNat < s.nnodes.toNat → s.follow k c = some i →
    s.decodeBits k (c ++ rest) = ((s.nd i.toNat).sym :: (s.decodeBits s.root rest).1, (s.decodeBits s.root rest).2) := by
  intro c
  induction c with
  | nil =>
    intro k hk hk' hf
    simp only [State.follow, Option.some.injEq] at hf
    subst hf
    rw [(h.internals _ hk hk').1] at hi
    exact Bool.noConfusion hi
  | cons b c ih =>
    intro k hk hk' hf
    simp only [State.follow] at hf
    split at hf
    · exact absurd hf (by simp)
    · have hlt := h.childOf_lt hk hk' b
      simp only [List.cons_append, State.decodeBits, hl, Bool.false_eq_true, if_false]
      by_cases hc : (s.nd (s.childOf k b).toNat).leaf = true
      · rw [if_pos hc]
        cases c with
        | nil =>
          simp only [State.follow, Option.some.injEq] at hf
          rw [hf, List.nil_append]
        | cons b' c =>
          rw [State.follow, if_pos (Or.inr hc)] at hf
          exact absurd hf (by simp)
      · rw [if_neg hc]
        have hd : s.ndist.toNat ≤ (s.childOf k b).toNat := by
          by_contra hx
          exact hc ((h.leaf_iff (by omega)).2 (by omega))
        exact ih hd (by omega) hf

/-- The table holds, for a symbol with an entry, the code of its leaf (R181, R184). -/
theorem CodesOk.entry {s : State} (h : CodesOk s) (a : ArenaOk s) {x : Sym} (hx : s.clenAt x ≠ 0) :
    ∃ i, i < s.ndist.toNat ∧ (s.nd i).sym = x ∧ s.codeOf (BitVec.ofNat 9 i) = some (s.codeBits x) ∧
      1 ≤ (s.codeBits x).length ∧ (s.codeBits x).length ≤ 255 ∧ s.cbitsAt x = codeVector (s.codeBits x) := by
  have hp : s.isPresent x := fun h0 => hx (h.absent x fun c => c h0).1
  obtain ⟨i, hi, rfl⟩ := a.complete x hp
  obtain ⟨c, c1, c2, c3, c4, c5⟩ := h.leaves i hi
  have e := codeBits_of_record c3 c4 c5
  exact ⟨i, hi, rfl, by rw [e]; exact c1, by rw [e]; exact c2, by rw [e]; exact c3, by rw [e]; exact c5⟩

/-- Every leaf's symbol has an entry. -/
theorem CodesOk.leaf_entry {s : State} (h : CodesOk s) {i : Nat} (hi : i < s.ndist.toNat) :
    s.codeOf (BitVec.ofNat 9 i) = some (s.codeBits (s.nd i).sym) ∧ s.clenAt (s.nd i).sym ≠ 0 ∧
      (s.clenAt (s.nd i).sym).toNat = (s.codeBits (s.nd i).sym).length := by
  obtain ⟨c, c1, c2, c3, c4, c5⟩ := h.leaves i hi
  have e := codeBits_of_record c3 c4 c5
  refine ⟨by rw [e]; exact c1, ?_, (codeBits_length s _).symm⟩
  intro hz
  have hl := codeBits_length s (s.nd i).sym
  rw [e, hz] at hl
  simp at hl
  rw [hl] at c2
  simp at c2

/-- In a tree whose root is internal, a leaf's entry is its path, and leads to it. -/
theorem TreeOk.leaf_follow {s : State} (h : TreeOk s) (k : CodesOk s) (hl : (s.nd s.root.toNat).leaf = false) {i : Nat}
    (hi : i < s.ndist.toNat) : s.follow s.root (s.codeBits (s.nd i).sym) = some (BitVec.ofNat 9 i) := by
  have hc := (k.leaf_entry hi).1
  have hle := h.arena.dist_le_nodes
  have h256 := h.arena.dist_le_256
  have e : (BitVec.ofNat 9 i).toNat = i := by rw [BitVec.toNat_ofNat]; omega
  rw [State.codeOf, State.rootIsLeaf_eq, hl] at hc
  exact h.follow_of_path (by rw [e]; omega) (by simpa using hc)

/-- A finished tree with two or more symbols has an internal root; with one, a leaf. -/
theorem TreeOk.root_leaf_iff {s : State} (h : TreeOk s) (hnd : s.ndist ≠ 0) :
    (s.nd s.root.toNat).leaf = true ↔ s.ndist.toNat = 1 := by
  obtain ⟨hn, hr, -, -⟩ := h.present hnd
  have : s.ndist.toNat ≠ 0 := fun e => hnd (BitVec.toNat_inj.1 e)
  rw [h.arena.leaf_iff (by omega)]
  omega

/-- The walk of one code, then more (R244). -/
theorem TreeOk.walk_code {s : State} (h : TreeOk s) (k : CodesOk s) {x : Sym} (hx : s.clenAt x ≠ 0)
    (rest : List Bool) :
    s.decodeBits s.root (s.codeBits x ++ rest)
      = (x :: (s.decodeBits s.root rest).1, (s.decodeBits s.root rest).2) := by
  obtain ⟨i, hi, hs, hc, h1, -, -⟩ := k.entry h.arena hx
  have hnd : s.ndist ≠ 0 := by rintro e; rw [e] at hi; simp at hi
  have h256 := h.arena.dist_le_256
  have hle := h.arena.dist_le_nodes
  have e : (BitVec.ofNat 9 i).toNat = i := by rw [BitVec.toNat_ofNat]; omega
  obtain ⟨hn, hr, -, -⟩ := h.present hnd
  by_cases hl : (s.nd s.root.toNat).leaf = true
  · have d1 := (h.root_leaf_iff hnd).1 hl
    have hri : s.root = BitVec.ofNat 9 i := BitVec.toNat_inj.1 (by omega)
    rw [State.codeOf, State.rootIsLeaf_eq, if_pos hl, if_pos hri.symm] at hc
    rw [← Option.some.inj hc]
    rw [hri, e] at hl
    simp only [List.cons_append, List.nil_append, State.decodeBits, hri, e, hl, if_true, hs]
  · have hl' : (s.nd s.root.toNat).leaf = false := by simpa using hl
    have hf := h.leaf_follow k hl' hi
    rw [hs] at hf
    have hroot : s.ndist.toNat ≤ s.root.toNat := by
      by_contra c
      exact hl ((h.arena.leaf_iff (by omega)).2 (by omega))
    rw [h.arena.walk_leaf hl' (i := BitVec.ofNat 9 i) (by rw [e]; exact (h.arena.leaves i hi).1) rest (s.codeBits x)
      hroot (by omega) hf, e, hs]

/-- The walk of the codes of a sequence, then more (R244, R250). -/
theorem TreeOk.walk_codes {s : State} (h : TreeOk s) (k : CodesOk s) (xs : List Sym) (hx : ∀ x ∈ xs, s.clenAt x ≠ 0)
    (rest : List Bool) :
    s.decodeBits s.root (s.encodeBits xs ++ rest)
      = (xs ++ (s.decodeBits s.root rest).1, (s.decodeBits s.root rest).2) := by
  induction xs with
  | nil => rfl
  | cons x xs ih =>
    rw [State.encodeBits, List.flatMap_cons, List.append_assoc, h.walk_code k (hx x (by simp))]
    have := ih fun y hy => hx y (by simp [hy])
    rw [State.encodeBits] at this
    rw [this]
    rfl

end Sys2Proof.Machine
end

