-- ==== Sys2Proof/Laws/Sums.lean ====
section
/-! SUPPORT. Sums over a finished tree: every node but the root is the child of exactly one internal node, so a sum over
the children of the internal nodes is a sum over all nodes but the root (spec/46_properties.md R242, R251, R252); and a
sum over the leaves is a sum over the symbols. -/

namespace Sys2Proof.Machine

/-- The children of the internal nodes are all nodes but the root, each once (R240). -/
theorem TreeOk.sum_children {s : State} (h : TreeOk s) (hnd : s.ndist ≠ 0) (f : Nat → Nat) :
    (∑ k ∈ Finset.Ico s.ndist.toNat s.nnodes.toNat,
      (f (s.nd k).left.toNat + f (s.nd k).right.toNat)) + f s.root.toNat = ∑ i ∈ Finset.range s.nnodes.toNat, f i := by
  obtain ⟨hn, hr, hp, -⟩ := h.present hnd
  have hroot : s.root.toNat ∈ Finset.range s.nnodes.toNat := Finset.mem_range.2 (by omega)
  rw [← Finset.sum_erase_add _ _ hroot]
  congr 1
  have maps : ∀ i ∈ (Finset.range s.nnodes.toNat).erase s.root.toNat,
      (s.nd i).parent.toNat ∈ Finset.Ico s.ndist.toNat s.nnodes.toNat := by
    intro i hi
    obtain ⟨h1, h2⟩ := Finset.mem_erase.1 hi
    have h2 := Finset.mem_range.1 h2
    rcases h.arena.parents i h2 with e | ⟨a, b, -⟩
    · exact absurd ((hp i h2).1 e) h1
    · exact Finset.mem_Ico.2 ⟨a, b⟩
  rw [← Finset.sum_fiberwise_of_maps_to maps]
  apply Finset.sum_congr rfl
  intro k hk
  obtain ⟨k1, k2⟩ := Finset.mem_Ico.1 hk
  obtain ⟨-, -, h3, h4, h5, h6, h7, -⟩ := h.arena.internals k k1 k2
  have hne : (s.nd k).left.toNat ≠ (s.nd k).right.toNat := fun e => h5 (BitVec.toNat_inj.1 e)
  have fib : ((Finset.range s.nnodes.toNat).erase s.root.toNat).filter (fun i => (s.nd i).parent.toNat = k)
      = {(s.nd k).left.toNat, (s.nd k).right.toNat} := by
    ext i
    simp only [Finset.mem_filter, Finset.mem_erase, Finset.mem_range, Finset.mem_insert, Finset.mem_singleton]
    constructor
    · rintro ⟨⟨i1, i2⟩, i3⟩
      rcases h.arena.parents i i2 with e | ⟨-, -, e⟩
      · exact absurd ((hp i i2).1 e) i1
      · rw [i3] at e; rcases e with e | e
        · exact Or.inl e.symm
        · exact Or.inr e.symm
    · rintro (rfl | rfl)
      · exact ⟨⟨by omega, by omega⟩, h6⟩
      · exact ⟨⟨by omega, by omega⟩, h7⟩
  rw [fib, Finset.sum_pair hne]

/-- A sum over all nodes is one over the leaves and one over the internal nodes. -/
theorem ArenaOk.sum_split {s : State} (h : ArenaOk s) (f : Nat → Nat) :
    ∑ i ∈ Finset.range s.nnodes.toNat, f i =
      (∑ i ∈ Finset.range s.ndist.toNat, f i) + ∑ k ∈ Finset.Ico s.ndist.toNat s.nnodes.toNat, f k := by
  rw [Finset.sum_range_add_sum_Ico _ h.dist_le_nodes]

/-- A sum over the leaves is a sum over the symbols, for a function that vanishes on the absent ones (R21, R240). -/
theorem ArenaOk.sum_leaves {s : State} (h : ArenaOk s) (g : Sym → Nat) (hg : ∀ x, ¬ s.isPresent x → g x = 0) :
    ∑ i ∈ Finset.range s.ndist.toNat, g (s.nd i).sym = ∑ x : Sym, g x := by
  have inj : Set.InjOn (fun i => (s.nd i).sym) (Finset.range s.ndist.toNat : Set Nat) := by
    intro i hi j hj e
    have hi := Finset.mem_range.1 (Finset.mem_coe.1 hi)
    have hj := Finset.mem_range.1 (Finset.mem_coe.1 hj)
    simp only at e
    rcases Nat.lt_trichotomy i j with c | c | c
    · have := h.ascending i j c hj; rw [e] at this; omega
    · exact c
    · have := h.ascending j i c hi; rw [e] at this; omega
  rw [← Finset.sum_image (f := g) inj]
  apply Finset.sum_subset (Finset.subset_univ _)
  intro x _ hx
  apply hg
  intro hp
  obtain ⟨i, hi, rfl⟩ := h.complete x hp
  exact hx (Finset.mem_image.2 ⟨i, Finset.mem_range.2 hi, rfl⟩)

/-- FREQ summed over the symbols. -/
theorem State.freqSum_eq (s : State) : s.freqSum = ∑ x : Sym, (s.freqAt x).toNat := by
  have h1 : s.freqSum = ∑ i ∈ Finset.range 256, (s.freqAt (BitVec.ofNat 8 i)).toNat := by
    unfold State.freqSum
    have hl : s.freq.entries.map BitVec.toNat = (List.range 256).map fun i => (s.freqAt (BitVec.ofNat 8 i)).toNat := by
      apply List.ext_getElem
      · simp [s.freq.size_eq]
      · intro i h2 h3
        simp only [List.length_map, List.length_range] at h3
        have e := freq_entry s h3
        rw [List.getElem?_eq_getElem (by rw [s.freq.size_eq]; exact h3), Option.getD_some] at e
        simp only [List.getElem_map, List.getElem_range, e]
    rw [hl]
    rfl
  rw [h1]
  apply Finset.sum_bij (fun i _ => BitVec.ofNat 8 i)
  · intro i _; exact Finset.mem_univ _
  · intro i hi j hj e
    have hi := Finset.mem_range.1 hi
    have hj := Finset.mem_range.1 hj
    have := congrArg BitVec.toNat e
    simp only [BitVec.toNat_ofNat] at this
    omega
  · intro x _
    exact ⟨x.toNat, Finset.mem_range.2 x.isLt, by simp⟩
  · intro i _; rfl

/-- The depth of a node of a finished tree: the length of its path (R180). -/
def State.depth (s : State) (i : Nat) : Nat := ((s.path (BitVec.ofNat 9 i)).getD []).length

/-- Depths along an edge. -/
theorem TreeOk.depth_child {s : State} (h : TreeOk s) (hnd : s.ndist ≠ 0) {k : Nat} (hk : s.ndist.toNat ≤ k)
    (hk' : k < s.nnodes.toNat) :
    s.depth (s.nd k).left.toNat = s.depth k + 1 ∧ s.depth (s.nd k).right.toNat = s.depth k + 1 := by
  have hnn := h.arena.nnodes_le
  have e : (BitVec.ofNat 9 k).toNat = k := by rw [BitVec.toNat_ofNat]; omega
  obtain ⟨c, hc, hf, -⟩ := h.path_spec (i := BitVec.ofNat 9 k) (by rw [e]; exact hk')
  have step : ∀ b : Bool, s.path (s.childOf (BitVec.ofNat 9 k) b) = some (c ++ [b]) := by
    intro b
    apply h.path_of_follow hnd
    rw [State.follow_append, hf]
    simp only [Option.bind_some]
    exact h.arena.follow_one (by rw [e]; exact hk) (by rw [e]; exact hk') b
  have l := step false
  have r := step true
  simp only [State.childOf, Bool.false_eq_true, if_false, if_true, e] at l r
  unfold State.depth
  simp only [hc, Option.getD_some]
  constructor
  · simp [l]
  · simp [r]

theorem TreeOk.depth_root {s : State} (h : TreeOk s) (hnd : s.ndist ≠ 0) : s.depth s.root.toNat = 0 := by
  have : s.path s.root = some [] := h.path_of_follow hnd rfl
  simp [State.depth, this]

theorem TreeOk.depth_le {s : State} (h : TreeOk s) {i : Nat} (hi : i < s.nnodes.toNat) : s.depth i ≤ 255 := by
  have hnn := h.arena.nnodes_le
  have h256 := h.arena.dist_le_256
  have e : (BitVec.ofNat 9 i).toNat = i := by rw [BitVec.toNat_ofNat]; omega
  obtain ⟨c, hc, -, hb⟩ := h.path_spec (i := BitVec.ofNat 9 i) (by rw [e]; exact hi)
  simp only [State.depth, hc, Option.getD_some]
  omega

/-- In a tree whose root is internal the entry of a leaf's symbol has the length of the leaf's depth (R181). -/
theorem TreeOk.clen_depth {s : State} (_h : TreeOk s) (k : CodesOk s) (hl : (s.nd s.root.toNat).leaf = false) {i : Nat}
    (hi : i < s.ndist.toNat) : (s.clenAt (s.nd i).sym).toNat = s.depth i := by
  have hc := (k.leaf_entry hi).1
  rw [State.codeOf, State.rootIsLeaf_eq, hl] at hc
  simp only [Bool.false_eq_true, if_false] at hc
  rw [(k.leaf_entry hi).2.2, State.depth, hc]
  rfl

end Sys2Proof.Machine
end

