-- ==== Sys2Proof/Laws/Cases.lean ====
section
/-! SUPPORT. Case analyses that several statements share: what a command's own fault can be, what a step of `exec` comes
to, what a merge step does to ROOT, runs of one command, one counter seen through table space, and counts of a finished
arena. -/

namespace Sys2Proof.Machine

/-- The faults of the commands' own rules (60_exceptions.md R263, R264, R266, R267). -/
theorem own_raise {i : Instr} {s : State} {c : Cause} {v : TblWord} (h : ownReply i s = .raise c v) :
    (∃ x, i = .sym x ∧ c = .freqOvf ∧ s.freqAt x = 0xFFFFFFFF ∧ v = x.setWidth 32) ∨
    (∃ x, i = .enc x ∧ c = .noSym ∧ s.clenAt x = 0 ∧ v = x.setWidth 32) ∨
    (∃ b, i = .dec b ∧ c = .malformed ∧ v = b.setWidth 32) ∨
    (∃ a, i = .rd a ∧ c = .badAddr ∧ s.tblRead a = none ∧ v = a.setWidth 32) := by
  cases i with
  | sym x =>
    simp only [ownReply, symReply] at h
    split at h
    · rename_i hx
      simp only [Reply.raise.injEq] at h
      exact Or.inl ⟨x, rfl, h.1.symm, hx, h.2.symm⟩
    · simp at h
  | enc x =>
    simp only [ownReply, encReply] at h
    split at h
    · rename_i hx
      simp only [Reply.raise.injEq] at h
      exact Or.inr (Or.inl ⟨x, rfl, h.1.symm, hx, h.2.symm⟩)
    · simp at h
  | dec b =>
    simp only [ownReply, decReply, walkReply] at h
    refine Or.inr (Or.inr (Or.inl ⟨b, rfl, ?_⟩))
    split at h
    · simp only [Reply.raise.injEq] at h; exact ⟨h.1.symm, h.2.symm⟩
    · split at h
      · simp at h
      · split at h
        · simp only [Reply.raise.injEq] at h; exact ⟨h.1.symm, h.2.symm⟩
        · split at h <;> simp at h
  | rd a =>
    simp only [ownReply, rdReply] at h
    split at h
    · simp at h
    · rename_i hx
      simp only [Reply.raise.injEq] at h
      exact Or.inr (Or.inr (Or.inr ⟨a, rfl, h.1.symm, hx, h.2.symm⟩))
  | _ => simp [ownReply] at h

/-- What a step of `exec` comes to: refused, out of phase, its own fault, or done (R272). -/
theorem exec_cases {i : Instr} {s t : State} (h : exec i s = .next t) :
    (s.fault ≠ 0 ∧ performedWhileHalted i = false ∧ t = s.refuseHalted) ∨
    ((s.fault = 0 ∨ performedWhileHalted i = true) ∧ legalIn i s.phase = false ∧ t = s.raise .seq (opInfo i)) ∨
    (passes i s ∧ ∃ c info, ownReply i s = .raise c info ∧ t = s.raise c info) ∨
    (passes i s ∧ ∃ s' beats d, ownReply i s = .done s' beats d ∧ t = s'.emit (beats ++ [.rsp 0x00 d])) := by
  rw [exec_eq_perform] at h
  rcases perform_cases s i (ownReply i s) with ⟨h1, h2, h3⟩ | ⟨h1, h2, h3⟩ | ⟨h2, h3⟩
  · rw [h3] at h; simp only [Host.Outcome.next.injEq] at h; exact Or.inl ⟨h1, h2, h.symm⟩
  · rw [h3] at h; simp only [Host.Outcome.next.injEq] at h; exact Or.inr (Or.inl ⟨h1, h2, h.symm⟩)
  · rw [h3] at h
    rcases answer_next h with ⟨s', beats, d, hr, ht⟩ | ⟨c, info, hr, ht⟩
    · exact Or.inr (Or.inr (Or.inr ⟨h2, s', beats, d, hr, ht⟩))
    · exact Or.inr (Or.inr (Or.inl ⟨h2, c, info, hr, ht⟩))

theorem getLast_append_one {l : List Event} {e e' : Event} (h : (l ++ [e]).getLast? = some e') : e = e' := by simpa using h

/-- Table R280, a row for each command. -/
theorem legal_table (i : Instr) (p : Phase) : legalIn i p = false ↔
      match i with
      | .nop => False
      | .clr => False
      | .rd _ => False
      | .sym _ => p ≠ .count
      | .ldf _ _ => p ≠ .count
      | .forest => p ≠ .count
      | .merge => p ≠ .forest
      | .tree => p ≠ .forest
      | .derive => p ≠ .tree
      | .enc _ => p ≠ .ready
      | .encend => p ≠ .ready
      | .dec _ => p ≠ .tree ∧ p ≠ .ready
      | .decend => p ≠ .tree ∧ p ≠ .ready := by
  cases i <;> cases p <;> simp [legalIn]

theorem done_trace {i : Instr} {s s' : State} {beats : List Event} {d : TblWord}
    (h : ownReply i s = .done s' beats d) : (s'.emit (beats ++ [.rsp 0x00 d])).trace = (s.trace ++ beats) ++ [.rsp 0 d] := by
  obtain ⟨-, h2, -⟩ := ownReply_done h
  simp [h2]

/-- ROOT and CUR move only where the step finalises (R152). -/
theorem mstep_root (s : State) :
    (s.mstep.root = s.root ∧ s.mstep.cur = s.cur ∧ s.mstep.phase = s.phase) ∨ s.mstep.phase = .tree := by
  rcases s.mstep_cases with ⟨-, e⟩ | ⟨-, e⟩ <;> rw [e]
  · unfold State.finaliseIfDone; split
    · right; rfl
    · left; exact ⟨s.mergeTwo_root, s.mergeTwo_cur, s.mergeTwo_phase⟩
  · right; rfl

/-- A halted HCE refuses every ENC (R268). -/
theorem runAll_enc_refused : ∀ (ys : List Sym) (v : State), v.fault ≠ 0 → runAll (ys.map .enc) v = .next (v.emit (List.replicate ys.length (.rsp 7 0))) := by
  intro ys
  induction ys with
  | nil => intro v _; simp [runAll, State.emit]
  | cons y ys ih =>
    intro v hv
    rw [List.map_cons, runAll_cons_next (exec_refused hv rfl), ih v.refuseHalted hv]
    simp [State.refuseHalted, State.emit, List.replicate_succ, Config.haltedCode]

/-- One counter seen through table space (R61, R62). -/
theorem tblRead_setFreq (s : State) (x : Sym) (d : Freq) (tr : List Event) :
    ∀ t : State, t = { s.setFreq x d with trace := tr } → t.tblRead (x.setWidth 16) = some d ∧ ∀ a, a ≠ x.setWidth 16 → t.tblRead a = s.tblRead a := by
  rintro t rfl
  have hn : (x.setWidth 16).toNat = x.toNat := by rw [BitVec.toNat_setWidth]; have := x.isLt; omega
  have fr : ∀ y, State.freqAt { s.setFreq x d with trace := tr } y = if x = y then d else s.freqAt y :=
    fun y => State.freqAt_setFreq s x y d
  constructor
  · rw [State.tblRead_freq _ (by rw [hn]; have := x.isLt; omega), fr, if_pos]
    rw [← BitVec.toNat_inj, BitVec.toNat_setWidth, hn]; have := x.isLt; omega
  · intro a ha
    by_cases hl : a.toNat < 0x0100
    · rw [State.tblRead_freq _ hl, State.tblRead_freq _ hl, fr, if_neg]
      intro e
      apply ha
      rw [← BitVec.toNat_inj, hn, e, BitVec.toNat_setWidth]
      omega
    · unfold State.tblRead
      rw [if_neg hl, if_neg hl]
      rfl

/-- A leaf holds its symbol's count. -/
theorem ArenaOk.leaf_cnt {s : State} (A : ArenaOk s) {i : Nat} (hi : i < s.ndist.toNat) : (s.nd i).cnt.toNat = (s.freqAt (s.nd i).sym).toNat := by
  rw [(A.leaves i hi).2.2.2.1, freqCount, BitVec.toNat_setWidth]
  have := (s.freqAt (s.nd i).sym).isLt
  omega

/-- Every count is at least 1 (46_properties.md R240). -/
theorem ArenaOk.cnt_pos {s : State} (A : ArenaOk s) : ∀ i, i < s.nnodes.toNat → 1 ≤ (s.nd i).cnt.toNat := by
  intro i
  induction i using Nat.strong_induction_on with
  | _ i ih =>
    intro hi
    by_cases h : i < s.ndist.toNat
    · rw [ArenaOk.leaf_cnt A h]
      have := (A.leaves i h).2.2.2.2
      have : (s.freqAt (s.nd i).sym).toNat ≠ 0 := fun e => this (BitVec.toNat_inj.1 e)
      omega
    · obtain ⟨-, -, h3, h4, -, -, -, h8⟩ := A.internals i (by omega) hi
      have := ih _ h3 (by omega)
      omega

/-- NDIST is the number of present symbols (10_state.md R24). -/
theorem ArenaOk.presentSyms_length {s : State} (A : ArenaOk s) : s.ndist.toNat = s.presentSyms.length := by
  have nod : s.presentSyms.Nodup := by
    apply List.Nodup.filter
    apply List.Nodup.map_on _ List.nodup_range
    intro i hi j hj e
    have := congrArg BitVec.toNat e
    simp only [BitVec.toNat_ofNat, List.mem_range] at this hi hj
    omega
  have h1 := A.sum_leaves (fun x => if s.freqAt x = 0 then 0 else 1) (fun x hx => by simp [Decidable.not_not.1 hx])
  have h2 : ∑ i ∈ Finset.range s.ndist.toNat, (if s.freqAt (s.nd i).sym = 0 then 0 else 1) = s.ndist.toNat := by
    rw [Finset.sum_congr rfl (g := fun _ => 1)]
    · simp
    · intro i hi
      have := (A.leaves i (Finset.mem_range.1 hi)).2.2.2.2
      rw [if_neg this]
  rw [h2] at h1
  rw [h1, ← List.toFinset_card_of_nodup nod, Finset.card_eq_sum_ones]
  rw [Finset.sum_ite, Finset.sum_const_zero, zero_add]
  congr 1
  ext x
  simp only [Finset.mem_filter, Finset.mem_univ, true_and, List.mem_toFinset, State.presentSyms, List.mem_filter, List.mem_map, List.mem_range]
  constructor
  · intro h; exact ⟨⟨x.toNat, x.isLt, by simp⟩, by simpa using h⟩
  · rintro ⟨-, h⟩; simpa using h

/-- A fault-free run of SYM: every counter grows by the occurrences of its symbol (R133). -/
theorem runAll_sym_counts : ∀ (xs : List Sym) (s t : State), s.phase = .count → runAll (xs.map .sym) s = .next t → t.fault = 0 →
    s.fault = 0 ∧ ∀ x, (t.freqAt x).toNat = (s.freqAt x).toNat + xs.count x := by
  have fl : ∀ (xs : List Sym) (s t : State), s.fault ≠ 0 → runAll (xs.map .sym) s = .next t → t.fault ≠ 0 := by
    intro xs
    induction xs with
    | nil => intro s t hs h; simp only [List.map_nil, runAll, Host.Outcome.next.injEq] at h; rw [← h]; exact hs
    | cons x xs ih =>
      intro s t hs h
      rw [List.map_cons, runAll_cons_next (exec_refused hs rfl)] at h
      exact ih s.refuseHalted t hs h
  intro xs
  induction xs with
  | nil => intro s t _ h hf; simp only [List.map_nil, runAll, Host.Outcome.next.injEq] at h; subst h; exact ⟨hf, by simp⟩
  | cons x xs ih =>
    intro s t hp h hf
    have hs : s.fault = 0 := by
      by_contra c; exact fl (x :: xs) s t c h hf
    refine ⟨hs, ?_⟩
    have ps : passes (.sym x) s := passes_intro hs (by simp [legalIn, hp])
    by_cases hx : s.freqAt x = Config.freqMax
    · have e := exec_raise ps (c := .freqOvf) (v := symInfo x) (by simp only [ownReply, symReply]; rw [if_pos hx])
      rw [State.raise_first hs] at e
      rw [List.map_cons, runAll_cons_next e] at h
      exact absurd hf (fl xs _ t (by simp [State.firstFault, Cause.code]) h)
    · have e := exec_done ps (by simp only [ownReply, symReply]; rw [if_neg hx])
      rw [List.map_cons, runAll_cons_next e] at h
      obtain ⟨-, g⟩ := ih ((s.setFreq x (s.freqAt x + 1)).emit _) t hp h hf
      intro y
      rw [g y, List.count_cons]
      show ((s.setFreq x (s.freqAt x + 1)).freqAt y).toNat + _ = _
      rw [State.freqAt_setFreq]
      by_cases hxy : x = y
      · subst hxy
        rw [if_pos rfl, BitVec.toNat_add]
        have : (s.freqAt x).toNat ≠ 0xFFFFFFFF := fun e => hx (BitVec.toNat_inj.1 e)
        have := (s.freqAt x).isLt
        have : (1 : BitVec 32).toNat = 1 := rfl
        simp
        omega
      · simp [hxy]

end Sys2Proof.Machine
end

