-- ==== Sys2Proof/Laws/PerInstr.lean ====
section
/-! SUPPORT. What holds of every command as syntax, one lemma for each constructor. -/

namespace Sys2Proof.Laws.WordFields

open Sys2Proof

/-- The fields of a command's word: its OP, RSV = 0, its A and its D (30_encoding.md R90, R91, R108). -/
def Statement (i : Instr) : Prop :=
  (encode i).op = i.opcode ∧ (encode i).rsv = 0 ∧ (encode i).a = i.fieldA ∧ (encode i).d = i.fieldD

theorem of_packWord (i : Instr) : Statement i :=
  ⟨packWord_op _ _ _, packWord_rsv _ _ _, packWord_a _ _ _, packWord_d _ _ _⟩

theorem nop : Statement (.nop) := of_packWord _
theorem clr : Statement (.clr) := of_packWord _
theorem sym (s : Sym) : Statement (.sym s) := of_packWord _
theorem ldf (s : Sym) (d : Freq) : Statement (.ldf s d) := of_packWord _
theorem forest : Statement (.forest) := of_packWord _
theorem merge : Statement (.merge) := of_packWord _
theorem tree : Statement (.tree) := of_packWord _
theorem derive : Statement (.derive) := of_packWord _
theorem enc (s : Sym) : Statement (.enc s) := of_packWord _
theorem encend : Statement (.encend) := of_packWord _
theorem dec (b : BitVec 1) : Statement (.dec b) := of_packWord _
theorem decend : Statement (.decend) := of_packWord _
theorem rd (a : TblAddr) : Statement (.rd a) := of_packWord _

end Sys2Proof.Laws.WordFields
end

