-- ==== Sys2Proof/Laws/Pipeline.lean ====
section
/-! SUPPORT. The pipeline FOREST, TREE, DERIVE from P_COUNT (spec/30_encoding.md R104, 70_reset_and_hazards.md R305): it
completes, and what it leaves is a function of the tables it started from. -/

namespace Sys2Proof.Machine

/-- A merge step that finalises leaves CUR at ROOT (R152). -/
theorem mstep_cur {s : State} (ht : s.mstep.phase = .tree) (hs : s.phase ≠ .tree) : s.mstep.cur = s.mstep.root := by
  rcases s.mstep_cases with ⟨-, e⟩ | ⟨-, e⟩ <;> rw [e] at ht ⊢
  · unfold State.finaliseIfDone at ht ⊢
    split
    · rfl
    · rename_i c
      rw [if_neg c, State.mergeTwo_phase] at ht
      exact absurd ht hs
  · rfl

/-- TREE leaves CUR at ROOT. -/
theorem mergeLoop_cur {n : Nat} : ∀ {s : State}, (mergeLoop n s).phase = .tree → s.phase ≠ .tree →
    (mergeLoop n s).cur = (mergeLoop n s).root := by
  induction n with
  | zero => intro s ht hs; exact absurd ht hs
  | succ n ih =>
    intro s ht hs
    unfold mergeLoop at ht ⊢
    split at ht
    · rename_i hp; rw [if_pos hp]; exact mstep_cur hp hs
    · rename_i hp; rw [if_neg hp]; exact ih ht hp

/-- The state after FOREST, TREE, DERIVE. -/
structure Built (s t : State) : Prop where
  inv : Inv t
  phase : t.phase = .ready
  fault : t.fault = 0
  freq : t.freq = s.freq
  cur : t.cur = t.root
  inputs : t.inputs = s.inputs
  trace : t.trace = s.trace ++ [.rsp 0x00 0, .rsp 0x00 0, .rsp 0x00 0]

/-- FOREST, TREE, DERIVE from P_COUNT, command by command. -/
theorem Inv.build {s : State} (h : Inv s) (hf : s.fault = 0) (hp : s.phase = .count) :
    ∃ u t, mergeLoop Config.nodeMax s.loadForest = u ∧ u.deriveCodes = t ∧ u.phase = .tree ∧ TreeOk u ∧
      Machine.runAll [.forest, .tree, .derive] s =
        .next (t.emit [.rsp 0x00 0, .rsp 0x00 0, .rsp 0x00 0]) ∧
      Built s (t.emit [.rsp 0x00 0, .rsp 0x00 0, .rsp 0x00 0]) := by
  obtain ⟨a, b⟩ := h.countOk hp
  have W := a.loadForest
  have F := s.loadForest_frame
  have lp : s.loadForest.phase = .forest := rfl
  have hn : s.loadForest.pqlen.toNat ≤ Config.nodeMax := by
    have := s.loadForest.pqlen.isLt; simp [Config.nodeMax]; omega
  have T := W.mergeLoop hn (by decide) lp
  have hut := mergeLoop_phase hn (by decide)
  have huc := mergeLoop_cur hut (by rw [lp]; simp)
  have G := mergeLoop_frame Config.nodeMax s.loadForest
  generalize hu : mergeLoop Config.nodeMax s.loadForest = u at T hut huc G
  obtain ⟨D, hq⟩ := u.deriveCodes_frame
  generalize ht : u.deriveCodes = t at D hq
  have r1 : Machine.exec .forest s = .next (s.loadForest.emit [.rsp 0x00 0]) :=
    exec_done (beats := []) (passes_intro hf (by simp [legalIn, hp])) rfl
  have fu : u.fault = 0 := G.fault.trans (F.fault.trans hf)
  have r2 : Machine.exec .tree (s.loadForest.emit [.rsp 0x00 0]) = .next (u.emit [.rsp 0x00 0, .rsp 0x00 0]) := by
    have e : s.loadForest.emit [.rsp 0x00 0] = s.loadForest.ported s.loadForest.inputs (s.loadForest.trace ++ [.rsp 0x00 0]) := rfl
    have hr : Machine.ownReply .tree (s.loadForest.emit [.rsp 0x00 0])
        = .done (u.ported s.loadForest.inputs (s.loadForest.trace ++ [.rsp 0x00 0])) [] 0 := by
      rw [e, ownReply_ported]
      simp only [Machine.ownReply, hu]; rfl
    rw [exec_done (s := s.loadForest.emit [.rsp 0x00 0]) (passes_intro (F.fault.trans hf) (by simp [legalIn, lp])) hr]
    simp only [State.emit, State.ported, ← G.inputs, ← G.trace, List.append_assoc]
    rfl
  have r3 : Machine.exec .derive (u.emit [.rsp 0x00 0, .rsp 0x00 0])
      = .next (t.emit [.rsp 0x00 0, .rsp 0x00 0, .rsp 0x00 0]) := by
    have e : u.emit [.rsp 0x00 0, .rsp 0x00 0] = u.ported u.inputs (u.trace ++ [.rsp 0x00 0, .rsp 0x00 0]) := rfl
    have hr : Machine.ownReply .derive (u.emit [.rsp 0x00 0, .rsp 0x00 0])
        = .done (t.ported u.inputs (u.trace ++ [.rsp 0x00 0, .rsp 0x00 0])) [] 0 := by
      rw [e, ownReply_ported]
      simp only [Machine.ownReply, ht]; rfl
    rw [exec_done (s := u.emit [.rsp 0x00 0, .rsp 0x00 0]) (passes_intro fu (by simp [legalIn, hut])) hr]
    simp only [State.emit, State.ported, ← D.inputs, ← D.trace, List.append_assoc]
    rfl
  have run : Machine.runAll [.forest, .tree, .derive] s = .next (t.emit [.rsp 0x00 0, .rsp 0x00 0, .rsp 0x00 0]) := by
    rw [runAll_cons_next r1, runAll_cons_next r2]
    exact runAll_one r3
  refine ⟨u, t, rfl, ht, hut, T, run, h.runAll run, hq, D.fault.trans fu, D.freq.trans (G.freq.trans F.freq), ?_,
    D.inputs.trans (G.inputs.trans F.inputs), ?_⟩
  · show t.cur = t.root
    rw [D.cur, D.root]
    exact huc
  · show t.trace ++ _ = _
    rw [D.trace, G.trace, F.trace]

/-- After the pipeline every symbol that was present has an entry. -/
theorem Built.entry {s t : State} (h : Built s t) {x : Sym} (hx : s.isPresent x) : t.clenAt x ≠ 0 := by
  obtain ⟨T, C⟩ := h.inv.readyOk h.phase
  have : t.isPresent x := by rw [State.isPresent, freqAt_congr h.freq]; exact hx
  obtain ⟨i, hi, rfl⟩ := T.arena.complete x this
  exact (C.leaf_entry hi).2.1

end Sys2Proof.Machine
end

