-- ==== Sys2Proof/Laws/Rows.lean ====
section
/-! SUPPORT. A row of the opcode map (30_encoding.md R93), field by field: what `w & mask = pattern` says of OP, RSV, A and D,
and the same for each of the five formats of R91. -/

namespace Sys2Proof

/-- A row whose mask covers OP and RSV, and `ma`, `md` of the operand fields. -/
theorem row_fields (m : String) (o : BitVec 8) (ma : BitVec 16) (md : BitVec 32) (p k : CmdWord)
    (hp : p = packWord o 0 0) (h1 : k.op = 0xFF) (h2 : k.rsv = 0xFF) (h3 : k.a = ma) (h4 : k.d = md) (w : CmdWord) :
    w &&& k = p ↔ w.op = o ∧ w.rsv = 0 ∧ w.a &&& ma = 0 ∧ w.d &&& md = 0 := by
  have := row_matches_iff { mnemonic := m, pattern := p, mask := k } w
  simp only [OpcodeRow.matches, beq_iff_eq, h1, h2, h3, h4, and_full8, hp, packWord_op, packWord_rsv, packWord_a, packWord_d] at this
  rw [hp]; exact this

theorem row_formatN {w : CmdWord} {o : BitVec 8} : (w.op = o ∧ w.rsv = 0 ∧ w.a &&& 0xFFFF = 0 ∧ w.d &&& 0xFFFFFFFF = 0) ↔ w.rsv = 0 ∧ w.op = o ∧ w.a = 0 ∧ w.d = 0 := by
  rw [and_full16, and_full32]; tauto

theorem row_formatS {w : CmdWord} {o : BitVec 8} : (w.op = o ∧ w.rsv = 0 ∧ w.a &&& 0xFF00 = 0 ∧ w.d &&& 0xFFFFFFFF = 0) ↔ ∃ x : Sym, w.rsv = 0 ∧ w.op = o ∧ w.a = x.setWidth 16 ∧ w.d = 0 := by
  rw [high_byte_zero, and_full32]
  simp only [high_byte_zero_iff]
  constructor
  · rintro ⟨h1, h2, h3, h4⟩; exact ⟨_, h2, h1, ⟨h3, rfl⟩, h4⟩
  · rintro ⟨x, h2, h1, ⟨h3, -⟩, h4⟩; exact ⟨h1, h2, h3, h4⟩

theorem row_formatSD {w : CmdWord} {o : BitVec 8} : (w.op = o ∧ w.rsv = 0 ∧ w.a &&& 0xFF00 = 0 ∧ w.d &&& 0 = 0) ↔ ∃ (x : Sym) (d : Freq), w.rsv = 0 ∧ w.op = o ∧ w.a = x.setWidth 16 ∧ w.d = d := by
  rw [high_byte_zero]
  simp only [high_byte_zero_iff]
  constructor
  · rintro ⟨h1, h2, h3, h4⟩; exact ⟨_, _, h2, h1, ⟨h3, rfl⟩, rfl⟩
  · rintro ⟨x, d, h2, h1, ⟨h3, -⟩, h4⟩; exact ⟨h1, h2, h3, BitVec.and_zero⟩

theorem row_formatB {w : CmdWord} {o : BitVec 8} : (w.op = o ∧ w.rsv = 0 ∧ w.a &&& 0xFFFE = 0 ∧ w.d &&& 0xFFFFFFFF = 0) ↔ ∃ x : BitVec 1, w.rsv = 0 ∧ w.op = o ∧ w.a = x.setWidth 16 ∧ w.d = 0 := by
  rw [high_bits_zero, and_full32]
  simp only [high_bits_zero_iff]
  constructor
  · rintro ⟨h1, h2, h3, h4⟩; exact ⟨_, h2, h1, ⟨h3, rfl⟩, h4⟩
  · rintro ⟨x, h2, h1, ⟨h3, -⟩, h4⟩; exact ⟨h1, h2, h3, h4⟩

theorem row_formatA {w : CmdWord} {o : BitVec 8} : (w.op = o ∧ w.rsv = 0 ∧ w.a &&& 0 = 0 ∧ w.d &&& 0xFFFFFFFF = 0) ↔ ∃ a : TblAddr, w.rsv = 0 ∧ w.op = o ∧ w.a = a ∧ w.d = 0 := by
  rw [and_full32]
  constructor
  · rintro ⟨h1, h2, h3, h4⟩; exact ⟨_, h2, h1, rfl, h4⟩
  · rintro ⟨x, h2, h1, -, h4⟩; exact ⟨h1, h2, BitVec.and_zero, h4⟩

end Sys2Proof
end

