-- ==== Sys2Proof/Tests/Slice0.lean ====
section
/-! SUPPORT. Tests. Every expected value is copied from spec/: the worked encodings (30_encoding.md R97), the vectors of
95_test_vectors.md (named T<n>, V<n>) and the examples of the command rules. After them, one witness for each statement
with hypotheses: a state and operands that meet all of them. -/

namespace Sys2Proof.Tests

open Sys2Proof Sys2Proof.Machine

/-! ## Helpers -/

/-- The state after a step that completes. -/
def after : Outcome → State
  | .next t => t
  | .fault _ => State.reset
  | .refused _ => State.reset

/-- The step completes. -/
def completes : Outcome → Bool
  | .next _ => true
  | .fault _ => false
  | .refused _ => false

/-- The state after some commands from reset. -/
def runOf (is : List Instr) : State := after (runAll is State.reset)

/-- A state with the given node records, the first at index 0, and the given members. -/
def withNodes (s : State) (ns : List Node) (members : List Nat) : State :=
  { s with
    node := (ns.zipIdx).foldl (fun t p => t.set p.2 p.1) s.node
    inq := members.foldl (fun t i => t.set i true) s.inq }

/-- A leaf {1, SYM, CNT, -, -, PARENT}. -/
def leaf (x : Sym) (c : Cnt) (p : Idx) : Node :=
  { leaf := true, sym := x, cnt := c, left := 0x1FF, right := 0x1FF, parent := p }

/-- An internal node {0, 0, CNT, LEFT, RIGHT, PARENT}. -/
def inner (c : Cnt) (l r p : Idx) : Node :=
  { leaf := false, sym := 0, cnt := c, left := l, right := r, parent := p }

/-- T3 "abracadabra" after two MERGE, written from the table of T3. -/
def t3Forest : State :=
  withNodes { State.reset with nnodes := 7, ndist := 5, pqlen := 3, phase := .forest }
    [leaf 0x61 5 0x1FF, leaf 0x62 2 6, leaf 0x63 1 5, leaf 0x64 1 5, leaf 0x72 2 6, inner 2 2 3 0x1FF,
     inner 4 1 4 0x1FF] [0, 5, 6]

/-- T3, the final tree, written from the table of T3. -/
def t3Tree : State :=
  withNodes { State.reset with nnodes := 9, ndist := 5, root := 8, cur := 8, phase := .tree }
    [leaf 0x61 5 8, leaf 0x62 2 6, leaf 0x63 1 5, leaf 0x64 1 5, leaf 0x72 2 6, inner 2 2 3 7, inner 4 1 4 7,
     inner 6 5 6 8, inner 11 0 7 0x1FF] []

/-- T3 with the entry of 'b', code "110", written from the code table of T3. -/
def t3Ready : State := State.setCode { t3Tree with phase := .ready } 0x62 3 3

/-- The invariant holds in every state that some commands from reset reach. -/
theorem inv_runOf (is : List Instr) : Inv (runOf is) := by
  unfold runOf
  cases h : runAll is State.reset with
  | next t => exact Inv.runAll (Inv.cleared State.reset) h
  | fault _ => exact Inv.cleared State.reset
  | refused _ => exact Inv.cleared State.reset

/-- A step that completes gives a next state. -/
theorem next_of {o : Outcome} (h : completes o = true) : ∃ t, o = .next t := by
  cases o with
  | next t => exact ⟨t, rfl⟩
  | fault _ => cases h
  | refused _ => cases h

/-- A word whose decoding is an error decodes to no command. -/
theorem illegal_of {w : CmdWord} {e : IllegalWord} (h : decode w = .error e) : ∀ i, decode w ≠ .ok i := by
  intro i hi; rw [h] at hi; cases hi

/-! ## Well-formedness: one ill-formed line for each check (R103 to R107) -/

theorem test_wf_sym : (AsmLine.sym 256).wellFormed = false ∧ (AsmLine.sym 255).wellFormed = true := by decide
theorem test_wf_ldf_symbol :
    (AsmLine.ldf 256 0).wellFormed = false ∧ (AsmLine.ldf 255 0xFFFFFFFF).wellFormed = true := by decide
theorem test_wf_ldf_count : (AsmLine.ldf 0 0x100000000).wellFormed = false := by decide
theorem test_wf_enc : (AsmLine.enc 256).wellFormed = false ∧ (AsmLine.enc 255).wellFormed = true := by decide
theorem test_wf_dec : (AsmLine.dec 2).wellFormed = false ∧ (AsmLine.dec 1).wellFormed = true := by decide
theorem test_wf_rd : (AsmLine.rd 0x10000).wellFormed = false ∧ (AsmLine.rd 0xFFFF).wellFormed = true := by decide
theorem test_wf_count : (AsmLine.count [0x61, 128]).wellFormed = false := by decide
theorem test_wf_encs : (AsmLine.encs [128, 0x61]).wellFormed = false := by decide
theorem test_wf_decb : (AsmLine.decb [0, 1, 2]).wellFormed = false := by decide

/-! ## Decoding: words written field by field, OP RSV A D (R90 to R93) -/

theorem test_decode_format_n :
    decode (0x00#8 ++ 0x00#8 ++ 0x0000#16 ++ 0x00000000#32) = .ok .nop ∧
    decode (0x01#8 ++ 0x00#8 ++ 0x0000#16 ++ 0x00000000#32) = .ok .clr ∧
    decode (0x10#8 ++ 0x00#8 ++ 0x0000#16 ++ 0x00000000#32) = .ok .forest ∧
    decode (0x11#8 ++ 0x00#8 ++ 0x0000#16 ++ 0x00000000#32) = .ok .merge ∧
    decode (0x12#8 ++ 0x00#8 ++ 0x0000#16 ++ 0x00000000#32) = .ok .tree ∧
    decode (0x20#8 ++ 0x00#8 ++ 0x0000#16 ++ 0x00000000#32) = .ok .derive ∧
    decode (0x31#8 ++ 0x00#8 ++ 0x0000#16 ++ 0x00000000#32) = .ok .encend ∧
    decode (0x41#8 ++ 0x00#8 ++ 0x0000#16 ++ 0x00000000#32) = .ok .decend := ⟨rfl, rfl, rfl, rfl, rfl, rfl, rfl, rfl⟩

theorem test_decode_format_s :
    decode (0x02#8 ++ 0x00#8 ++ 0x00#8 ++ 0b01001000#8 ++ 0x00000000#32) = .ok (.sym 0x48) ∧
    decode (0x30#8 ++ 0x00#8 ++ 0x00#8 ++ 0b01100001#8 ++ 0x00000000#32) = .ok (.enc 0x61) := ⟨rfl, rfl⟩

theorem test_decode_format_sd :
    decode (0x03#8 ++ 0x00#8 ++ 0x00#8 ++ 0b01100001#8 ++ 0x00000005#32) = .ok (.ldf 0x61 5) ∧
    decode 0x030000FFFFFFFFFF = .ok (.ldf 0xFF 0xFFFFFFFF) ∧
    decode 0x0300002706197ECB = .ok (.ldf 0x27 102334155) := ⟨rfl, rfl, rfl⟩

theorem test_decode_format_b :
    decode (0x40#8 ++ 0x00#8 ++ 0b000000000000000#15 ++ 0b0#1 ++ 0x00000000#32) = .ok (.dec 0) ∧
    decode (0x40#8 ++ 0x00#8 ++ 0b000000000000000#15 ++ 0b1#1 ++ 0x00000000#32) = .ok (.dec 1) := ⟨rfl, rfl⟩

theorem test_decode_format_a :
    decode (0x50#8 ++ 0x00#8 ++ 0x2005#16 ++ 0x00000000#32) = .ok (.rd 0x2005) ∧
    decode 0x5000020000000000 = .ok (.rd 0x0200) := ⟨rfl, rfl⟩

theorem test_decode_illegal :
    decode 0x0200014800000000 = .error .unusedOperandBit ∧ decode 0x4000000200000000 = .error .unusedOperandBit ∧
    decode 0x0001000000000000 = .error .reservedSet ∧ decode 0x0000000000000001 = .error .unusedOperandBit ∧
    decode 0x0400000000000000 = .error .unassignedOpcode := ⟨rfl, rfl, rfl, rfl, rfl⟩

theorem test_encode_words :
    encode (.sym 0x48) = 0x0200004800000000 ∧ encode (.ldf 0x61 5) = 0x0300006100000005 ∧
    encode (.dec 1) = 0x4000000100000000 ∧ encode (.rd 0x2005) = 0x5000200500000000 := ⟨rfl, rfl, rfl, rfl⟩

theorem test_table_word : decodeTableWord 64 0x0200004800000000 = some (.sym 0x48) ∧
    decodeTableWord 64 0x0400000000000000 = none := by decide +kernel

/-- The placed word is the one that the next step runs (V40.2). -/
theorem test_placed_word :
    (after (step (State.reset.withFetchWord 64 0x0200000000000000))).freqAt 0 = 1 := by decide +kernel

/-! ## The assembler (R103 to R107) -/

theorem test_assemble_char : assembleText ['S', 'Y', 'M', ' ', '\'', 'H', '\''] = some [0x0200004800000000] := by
  decide +kernel
theorem test_assemble_hex :
    assembleText ['R', 'D', ' ', '0', 'x', '2', '0', '0', '5', ' ', ';', 'r'] = some [0x5000200500000000] := by
  decide +kernel
theorem test_assemble_pseudo :
    assembleText ['D', 'E', 'C', 'B', ' ', '"', '0', '1', '"'] =
      some [0x4000000000000000, 0x4000000100000000] ∧
    assembleText ['B', 'U', 'I', 'L', 'D'] =
      some [0x1000000000000000, 0x1200000000000000, 0x2000000000000000] ∧
    assembleText ['C', 'O', 'U', 'N', 'T', ' ', '"', '"'] = some [] := by decide +kernel
theorem test_assemble_range : assembleText ['S', 'Y', 'M', ' ', '2', '5', '6'] = none := by decide +kernel

/-! ## One step of each command -/

/-- V40.1, and NOP while halted (R131). -/
theorem test_nop : (after (exec .nop State.reset)).trace = [.rsp 0 0] ∧
    (after (exec .nop { State.reset with fault := 4 })).fault = 4 := by decide +kernel

/-- R132's example: FAULT = 0x04 and a tree before, the reset state after. -/
theorem test_clr :
    let t := after (exec .clr { t3Ready with fault := 4, finfo := 9 })
    t.trace = [.rsp 0 0] ∧ t.fault = 0 ∧ t.finfo = 0 ∧ t.phase = .count ∧ t.root = 0x1FF ∧ t.cur = 0x1FF ∧
      t.nnodes = 0 ∧ t.nd 8 = Node.reset ∧ t.clenAt 0x62 = 0 ∧ t.cbitsAt 0x62 = 0 ∧ t.tblRead 0x2000 = some 0 := by
  decide +kernel

/-- V40.4. -/
theorem test_sym : (after (exec (.sym 0x48) (State.reset.setFreq 0x48 10))).freqAt 0x48 = 11 := by decide +kernel

/-- V40.9. -/
theorem test_sym_overflow :
    let t := after (exec (.sym 0x41) (State.reset.setFreq 0x41 0xFFFFFFFF))
    t.freqAt 0x41 = 0xFFFFFFFF ∧ t.trace = [.rsp 0x03 0x41] ∧ t.fault = 0x03 ∧ t.finfo = 0x41 ∧
      t.tblRead 0x2000 = some 0x00000004 := by decide +kernel

/-- V40.6. -/
theorem test_ldf : (after (exec (.ldf 0x61 0) (State.reset.setFreq 0x61 5))).freqAt 0x61 = 0 := by decide +kernel

/-- V40.13. -/
theorem test_ldf_phase :
    let t := after (exec (.ldf 0 1) { State.reset with phase := .forest })
    t.trace = [.rsp 0x02 0x00000003] ∧ t.freqAt 0 = 0 ∧ t.finfo = 3 := by decide +kernel

/-- R150's example, and the node words of the freshly loaded leaf 1 (T3: LEAF, INQ and ALLOC set). -/
theorem test_forest :
    let t := after (exec .forest ((State.reset.setFreq 0x61 1).setFreq 0x62 5))
    t.nd 0 = leaf 0x61 1 0x1FF ∧ t.nd 1 = leaf 0x62 5 0x1FF ∧ t.nnodes = 2 ∧ t.pqlen = 2 ∧ t.pqmin = 0 ∧
      t.tblRead 0x1005 = some 0x00076200 ∧ t.phase = .forest := by decide +kernel

/-- T3, third MERGE: 5 (2) and 6 (4) join under NODE[7], 0 and 7 stay. -/
theorem test_merge :
    let t := after (exec .merge t3Forest)
    t.nd 7 = inner 6 5 6 0x1FF ∧ (t.nd 5).parent = 7 ∧ t.pqlen = 2 ∧ t.pqmin = 0 ∧
      t.tblRead 0x101D = some 0x00060000 ∧ t.phase = .forest := by decide +kernel

/-- R153's example: a MERGE that joins and finalises. -/
theorem test_merge_last :
    let t := after (exec .merge (withNodes { State.reset with nnodes := 2, ndist := 2, pqlen := 2, phase := .forest }
      [leaf 0x61 1 0x1FF, leaf 0x62 5 0x1FF] [0, 1]))
    t.nd 2 = inner 6 0 1 0x1FF ∧ t.root = 2 ∧ t.cur = 2 ∧ t.pqlen = 0 ∧ t.nnodes = 3 ∧ t.phase = .tree ∧
      t.inQ 2 = false := by decide +kernel

/-- T11: a count beyond 32 bits, by the last merge. -/
theorem test_merge_wide :
    let t := after (exec .merge (withNodes { State.reset with nnodes := 4, ndist := 3, pqlen := 2, phase := .forest }
      [leaf 0 0xFFFFFFFF 3, leaf 1 0xFFFFFFFF 3, leaf 2 0xFFFFFFFF 0x1FF, inner 0x1FFFFFFFE 0 1 0x1FF] [2, 3]))
    t.nd 4 = inner 0x2FFFFFFFD 2 3 0x1FF ∧ t.tblRead 0x1010 = some 0xFFFFFFFD ∧
      t.tblRead 0x1011 = some 0x00040002 := by decide +kernel

/-- T3: TREE continues from the forest after two MERGE. -/
theorem test_tree :
    let t := after (exec .tree t3Forest)
    t.nd 8 = inner 11 0 7 0x1FF ∧ t.nd 7 = inner 6 5 6 8 ∧ t.root = 8 ∧ t.cur = 8 ∧ t.trace = [.rsp 0 0] := by
  decide +kernel

/-- T8: the empty forest; STATUS reads NOTREE. -/
theorem test_tree_empty :
    let t := after (exec .tree { State.reset with phase := .forest })
    t.root = 0x1FF ∧ t.tblRead 0x2000 = some 0x0000000A := by decide +kernel

/-- The code table of T3. -/
theorem test_derive :
    let t := after (exec .derive t3Tree)
    t.clenAt 0x61 = 1 ∧ t.clenAt 0x62 = 3 ∧ t.clenAt 0x63 = 3 ∧ t.tblRead 0x0B08 = some 0 ∧
      t.tblRead 0x0B10 = some 3 ∧ t.tblRead 0x0B18 = some 1 ∧ t.tblRead 0x0B20 = some 5 ∧
      t.tblRead 0x0B90 = some 7 ∧ t.clenAt 0x65 = 0 ∧ t.phase = .ready := by decide +kernel

/-- T1: the root is a leaf, the code is "0". -/
theorem test_derive_single :
    let t := after (exec .derive (withNodes { State.reset with nnodes := 1, ndist := 1, root := 0, cur := 0, phase := .tree }
      [leaf 0x48 11 0x1FF] []))
    t.clenAt 0x48 = 1 ∧ t.cbitsAt 0x48 = 0 ∧ t.tblRead 0x2000 = some 0x00000013 := by decide +kernel

/-- V43.2. -/
theorem test_enc : (after (exec (.enc 0x62) t3Ready)).trace = [.bit true, .bit true, .bit false, .rsp 0 0] := by
  decide +kernel

/-- V43.4, V43.6. -/
theorem test_enc_faults : (after (exec (.enc 0x65) t3Ready)).trace = [.rsp 0x04 0x65] ∧
    (after (exec (.enc 0x61) t3Tree)).trace = [.rsp 0x02 0x30] := by decide +kernel

/-- V43.5. -/
theorem test_encend : (after (exec .encend t3Ready)).trace = [.biteos, .rsp 0 0] := by decide +kernel

/-- The walk of T3: bit 0 at CUR = 6 reaches leaf 'b', bit 1 at CUR = 8 moves to 7. -/
theorem test_dec :
    let t := after (exec (.dec 0) { t3Tree with cur := 6 })
    let u := after (exec (.dec 1) t3Tree)
    t.trace = [.symb 0x62, .rsp 0 0] ∧ t.cur = 8 ∧ u.trace = [.rsp 0 0] ∧ u.cur = 7 := by decide +kernel

/-- T8: DEC with an absent tree. -/
theorem test_dec_absent :
    let t := after (exec (.dec 0) { State.reset with phase := .ready })
    t.trace = [.rsp 0x05 0] ∧ t.fault = 5 ∧ t.tblRead 0x2000 = some 0x0000000F := by decide +kernel

/-- R211's example. -/
theorem test_decend :
    let t := after (exec .decend { t3Tree with cur := 7 })
    t.trace = [.symeos, .rsp 0 0] ∧ t.cur = 8 := by decide +kernel

/-- The final table of T3, and the reset words of an unallocated record (R65). -/
theorem test_rd :
    (after (exec (.rd 0x1016) t3Tree)).trace = [.rsp 0 0x00030002] ∧
    (after (exec (.rd 0x1021) t3Tree)).trace = [.rsp 0 0x00040000] ∧
    (after (exec (.rd 0x17FA) t3Tree)).trace = [.rsp 0 0x01FF01FF] := by decide +kernel

/-- R230's example. -/
theorem test_rd_unmapped :
    let t := after (exec (.rd 0x0200) State.reset)
    t.trace = [.rsp 0x06 0x00000200] ∧ t.fault = 0x06 ∧ t.finfo = 0x200 := by decide +kernel

/-- R272's examples: the order of the checks for an ENC word while halted in P_COUNT, and not halted. -/
theorem test_order_of_checks :
    (after (takeWord 0x3001006100000000 { State.reset with fault := 4 })).trace = [.rsp 0x01 0x30010061] ∧
    (after (takeWord 0x3000006100000000 { State.reset with fault := 4 })).trace = [.rsp 0x07 0] ∧
    (after (takeWord 0x3000006100000000 State.reset)).trace = [.rsp 0x02 0x30] := by decide +kernel

/-- R300: reset after one of the three beats of an ENC. -/
theorem test_cut :
    let t := after (step { t3Ready with inputs := [.resetDuring 0x3000006200000000 1] })
    t.trace = [.bit true] ∧ t.phase = .count ∧ t.clenAt 0x62 = 0 := by decide +kernel

/-! ## Witnesses: for each statement with hypotheses, states and operands that meet them

`wCount n` to `wReady n` are a run that counted no symbol, one, two or three, as far as the named phase. -/

/-- Commands that count `n` distinct symbols. -/
def load : Nat → List Instr
  | 0 => []
  | 1 => [.ldf 0x48 11]
  | 2 => [.ldf 0x61 1, .ldf 0x62 5]
  | _ => [.ldf 0x78 1, .ldf 0x79 1, .ldf 0x7A 1]

def wCount (n : Nat) : State := runOf (load n)
def wForest (n : Nat) : State := runOf (load n ++ [.forest])
def wTree (n : Nat) : State := runOf (load n ++ [.forest, .tree])
def wReady (n : Nat) : State := runOf (load n ++ [.forest, .tree, .derive])
def wHalted : State := runOf [.enc 0]

theorem inv_wCount (n : Nat) : Inv (wCount n) := inv_runOf _
theorem inv_wForest (n : Nat) : Inv (wForest n) := inv_runOf _
theorem inv_wTree (n : Nat) : Inv (wTree n) := inv_runOf _
theorem inv_wReady (n : Nat) : Inv (wReady n) := inv_runOf _

theorem phases_w : (wCount 2).phase = .count ∧ (wForest 2).phase = .forest ∧ (wTree 2).phase = .tree ∧
    (wReady 2).phase = .ready ∧ (wCount 2).fault = 0 ∧ (wForest 2).fault = 0 ∧ (wTree 2).fault = 0 ∧
    (wReady 2).fault = 0 ∧ wHalted.fault ≠ 0 := by decide +kernel

theorem test_witness_ResetStateIsAsListed :
    ({ wReady 2 with inputs := [.reset] } : State).inputs = [HostInput.reset] := rfl

theorem test_witness_StepRunsDecodedCommand :
    let s : State := { wCount 2 with inputs := [.command 0x0200004800000000] }
    s.inputs = [.command 0x0200004800000000] ∧ decode 0x0200004800000000 = .ok (.sym 0x48) := ⟨rfl, rfl⟩

theorem test_witness_StepRaisesIllegal :
    let s : State := { wCount 2 with inputs := [.command 0x0200014800000000] }
    let u : State := { wHalted with inputs := [.command 0x0200014800000000] }
    s.inputs = [.command 0x0200014800000000] ∧ u.inputs = [.command 0x0200014800000000] ∧
      (∀ i, decode 0x0200014800000000 ≠ .ok i) ∧ s.fault = 0 ∧ u.fault ≠ 0 :=
  ⟨rfl, rfl, illegal_of (e := .unusedOperandBit) rfl, by decide +kernel, by decide +kernel⟩

theorem test_witness_StepIdlesOrResets :
    (wReady 2).inputs = [] ∧ ({ wReady 2 with inputs := [.reset] } : State).inputs = [HostInput.reset] :=
  ⟨by decide +kernel, rfl⟩

theorem test_witness_ResetCutsCommand :
    let s : State := { wReady 2 with inputs := [.resetDuring 0x3000006200000000 1] }
    s.inputs = [.resetDuring 0x3000006200000000 1] ∧
      ∃ t, step { s with inputs := [.command 0x3000006200000000] } = .next t :=
  ⟨rfl, next_of (by decide +kernel)⟩

theorem test_witness_EncodeAndDecodeAreInverse : decode 0x030000FFFFFFFFFF = .ok (.ldf 0xFF 0xFFFFFFFF) := rfl

theorem test_witness_DecodeAgreesWithOpcodeMap :
    let r : OpcodeRow := { mnemonic := "RD", pattern := 0x5000000000000000, mask := 0xFFFF0000FFFFFFFF }
    r ∈ opcodeRows ∧ (0x5000200500000000 : CmdWord) &&& r.mask = r.pattern := by decide +kernel

theorem test_witness_OperandsAsTheyStand :
    decode 0x020000FF00000000 = .ok (.sym 0xFF) ∧ decode 0x030000FFFFFFFFFF = .ok (.ldf 0xFF 0xFFFFFFFF) ∧
    decode 0x300000FF00000000 = .ok (.enc 0xFF) ∧ decode 0x4000000100000000 = .ok (.dec 1) ∧
    decode 0x5000FFFF00000000 = .ok (.rd 0xFFFF) := ⟨rfl, rfl, rfl, rfl, rfl⟩

theorem test_witness_HaltedRefuses :
    let s : State := { wHalted with inputs := [.command 0x0001000000000000] }
    wHalted.fault ≠ 0 ∧ Instr.forest ≠ .nop ∧ Instr.forest ≠ .clr ∧ (∀ a, Instr.forest ≠ .rd a) ∧
      wHalted.tblRead 0x2008 = some 0x1FF ∧ s.inputs = [.command 0x0001000000000000] ∧
      (∀ i, decode 0x0001000000000000 ≠ .ok i) :=
  ⟨phases_w.2.2.2.2.2.2.2.2, by decide, by decide, by simp, by decide +kernel, rfl,
    illegal_of (e := .reservedSet) rfl⟩

theorem test_witness_PhaseViolation :
    ((wForest 2).fault = 0 ∧ (wForest 2).phase ≠ .count) ∧ ((wCount 2).fault = 0 ∧ (wCount 2).phase ≠ .forest) ∧
    ((wReady 2).fault = 0 ∧ (wReady 2).phase ≠ .tree) ∧ ((wTree 2).fault = 0 ∧ (wTree 2).phase ≠ .ready) ∧
    (wCount 2).phase ≠ .tree ∧ (wCount 2).phase ≠ .ready := by decide +kernel

theorem test_witness_LegalityByPhase :
    (completes (exec (.enc 0) (wCount 2)) ∧ (after (exec (.enc 0) (wCount 2))).trace.getLast? = some (.rsp 2 0x30)) ∧
    (completes (exec (.sym 0) (wCount 2)) ∧ (after (exec (.sym 0) (wCount 2))).trace.getLast? = some (.rsp 0 0)) ∧
    (after (exec .tree wHalted)).trace.getLast? = some (.rsp 7 0) ∧
    (after (exec .forest (wCount 2))).phase ≠ (wCount 2).phase ∧ (after (exec .tree (wForest 2))).phase ≠ .forest ∧
    (after (exec .derive (wTree 2))).phase ≠ .tree ∧ (after (exec .clr (wReady 2))).phase ≠ .ready := by decide +kernel

theorem test_witness_FaultEntryIsPrecise :
    let s : State := { wCount 2 with inputs := [.command 0x3000000000000000] }
    let u : State := { wHalted with inputs := [.command 0x3000000000000000] }
    let v : State := { wHalted with inputs := [.command 0x0400000000000000] }
    (s.fault = 0 ∧ completes (step s) ∧ (after (step s)).trace.getLast? = some (.rsp 2 0x30)) ∧
    (completes (step u) ∧ (after (step u)).trace.getLast? = some (.rsp 7 0)) ∧
    (v.fault ≠ 0 ∧ completes (step v) ∧ (after (step v)).trace.getLast? = some (.rsp 1 0x04000000)) := by
  decide +kernel

theorem test_witness_OneResponseLast :
    let s : State := { wReady 2 with inputs := [.command 0x3000006200000000] }
    s.inputs = [.command 0x3000006200000000] ∧ completes (step s) := ⟨rfl, by decide +kernel⟩

theorem test_witness_WritersOfState :
    (∃ t, exec .merge (wForest 3) = .next t) ∧ (∃ t, exec .derive (wTree 2) = .next t) ∧
    ∃ t, exec (.enc 0x61) (wReady 2) = .next t :=
  ⟨next_of (by decide +kernel), next_of (by decide +kernel), next_of (by decide +kernel)⟩

theorem test_witness_TablesAreFrozen :
    Instr.clr ∉ [Instr.enc 0x61, .dec 0] ∧ (wReady 2).phase = .ready ∧ (wTree 2).phase = .tree ∧
      (∃ t, runAll [.enc 0x61, .dec 0] (wReady 2) = .next t) ∧ ∃ t, runAll [.enc 0x61, .dec 0] (wTree 2) = .next t :=
  ⟨by decide, by decide +kernel, by decide +kernel, next_of (by decide +kernel), next_of (by decide +kernel)⟩

theorem test_witness_RunsShareNoState : ∃ t, runAll [.clr, .sym 0x61, .forest] (wReady 2) = .next t :=
  next_of (by decide +kernel)

theorem test_witness_SymCountsOne :
    let s := State.reset.setFreq 0x41 0xFFFFFFFE
    let u := State.reset.setFreq 0x41 0xFFFFFFFF
    (s.fault = 0 ∧ s.phase = .count ∧ s.freqAt 0x41 ≠ 0xFFFFFFFF) ∧
    (u.fault = 0 ∧ u.phase = .count ∧ u.freqAt 0x41 = 0xFFFFFFFF) ∧
    ((wForest 2).fault = 0 ∧ (wForest 2).phase ≠ .count) := by decide +kernel

theorem test_witness_LdfLoadsACount :
    ((wCount 2).fault = 0 ∧ (wCount 2).phase = .count) ∧ ((wTree 2).fault = 0 ∧ (wTree 2).phase ≠ .count) := by
  decide +kernel

theorem test_witness_CountingChangesOneWord :
    let s := State.reset.setFreq 0xFF 0xFFFFFFFE
    s.fault = 0 ∧ s.phase = .count ∧ (∃ t, exec (.ldf 0xFF 7) s = .next t) ∧ s.freqAt 0xFF ≠ 0xFFFFFFFF ∧
      ∃ t, exec (.sym 0xFF) s = .next t :=
  ⟨rfl, rfl, next_of (by decide +kernel), by decide +kernel, next_of (by decide +kernel)⟩

theorem test_witness_CountingScan :
    let s := State.reset.setFreq 0x41 0xFFFFFFFE
    s.fault = 0 ∧ s.phase = .count ∧ (∀ x, (s.freqAt x).toNat + [(0x41 : Sym)].count x ≤ 2 ^ 32 - 1) ∧
      [(0x41 : Sym)].Perm [0x41] := by
  refine ⟨rfl, rfl, fun x => ?_, List.Perm.refl _⟩
  rw [State.freqAt_setFreq]
  by_cases h : (0x41 : Sym) = x
  · subst h; decide
  · have z : State.reset.freqAt x = 0 := by simp [State.freqAt, State.reset]
    rw [if_neg h, z, List.count_singleton, if_neg (by simpa using h)]; decide

theorem test_witness_ForestLoadsOneLeafPerSymbol :
    ((wCount 2).fault = 0 ∧ (wCount 2).phase = .count ∧ (wCount 2).presentSyms[1]? = some 0x62 ∧
      (wCount 2).presentSyms.length ≤ 2) ∧ ((wForest 2).fault = 0 ∧ (wForest 2).phase ≠ .count) := by
  rw [State.presentSyms_eq]; decide +kernel

theorem test_witness_PqminIsTheLeastMember : (wForest 0).pqmin = 0x1FF ∧ (wForest 3).pqmin ≠ 0x1FF := by
  decide +kernel

theorem test_witness_MergeJoinsTheTwoLeast :
    Inv (wForest 3) ∧ Inv (wForest 2) ∧ Inv (wForest 1) ∧ Inv (wForest 0) ∧ Inv (wTree 2) ∧
    ((wForest 3).fault = 0 ∧ (wForest 3).phase = .forest ∧ (wForest 3).pqlen.toNat = 3) ∧
    ((wForest 2).fault = 0 ∧ (wForest 2).phase = .forest ∧ (wForest 2).pqlen.toNat = 2) ∧
    ((wForest 1).fault = 0 ∧ (wForest 1).phase = .forest ∧ (wForest 1).pqlen.toNat = 1 ∧ (wForest 1).inQ 0 = true) ∧
    ((wForest 0).fault = 0 ∧ (wForest 0).phase = .forest ∧ (wForest 0).pqlen.toNat = 0) ∧
    ((wTree 2).fault = 0 ∧ (wTree 2).phase ≠ .forest) :=
  ⟨inv_wForest 3, inv_wForest 2, inv_wForest 1, inv_wForest 0, inv_wTree 2, by decide +kernel⟩

theorem test_witness_TreeIsMergeToTheEnd :
    Inv (wForest 3) ∧ Inv (wForest 0) ∧ Inv (wTree 2) ∧
    ((wForest 3).fault = 0 ∧ (wForest 3).phase = .forest ∧ 1 < max ((wForest 3).pqlen.toNat - 1) 1) ∧
    ((wForest 0).fault = 0 ∧ (wForest 0).phase = .forest ∧ 0 < max ((wForest 0).pqlen.toNat - 1) 1) ∧
    ((wTree 2).fault = 0 ∧ (wTree 2).phase ≠ .forest) :=
  ⟨inv_wForest 3, inv_wForest 0, inv_wTree 2, by decide +kernel⟩

theorem test_witness_TreeEdgeCases :
    Inv (wCount 0) ∧ Inv (wCount 1) ∧ Inv (wCount 2) ∧
    ((wCount 0).fault = 0 ∧ (wCount 0).phase = .count ∧ (wCount 0).presentSyms = []) ∧
    ((wCount 1).fault = 0 ∧ (wCount 1).phase = .count ∧ (wCount 1).presentSyms = [0x48]) ∧
    ((wCount 2).fault = 0 ∧ (wCount 2).phase = .count ∧ (wCount 2).presentSyms.length = 2) :=
  ⟨inv_wCount 0, inv_wCount 1, inv_wCount 2, by simp only [State.presentSyms_eq]; decide +kernel⟩

theorem test_witness_PathFollowsTheEdges :
    Inv (wTree 2) ∧ (wTree 2).phase = .tree ∧ (wTree 2).root ≠ 0x1FF ∧ (2 : Idx).toNat < (wTree 2).nnodes.toNat ∧
      ((wTree 2).nd 2).leaf = false ∧ (wTree 2).path 2 = some [] ∧ (1 : Idx) ≠ (wTree 2).root :=
  ⟨inv_wTree 2, by decide +kernel⟩

theorem test_witness_DeriveRecordsThePaths :
    Inv (wTree 1) ∧ Inv (wTree 2) ∧ Inv (wTree 0) ∧ Inv (wReady 2) ∧
    ((wTree 1).fault = 0 ∧ (wTree 1).phase = .tree ∧ (wTree 1).root ≠ 0x1FF ∧
      ((wTree 1).nd (wTree 1).root.toNat).leaf = true) ∧
    ((wTree 2).fault = 0 ∧ (wTree 2).phase = .tree ∧ (wTree 2).root ≠ 0x1FF ∧
      ((wTree 2).nd (wTree 2).root.toNat).leaf = false ∧ (1 : Idx).toNat < (wTree 2).ndist.toNat) ∧
    ((wTree 0).fault = 0 ∧ (wTree 0).phase = .tree ∧ (wTree 0).ndist = 0) ∧
    ((wReady 2).fault = 0 ∧ (wReady 2).phase ≠ .tree) :=
  ⟨inv_wTree 1, inv_wTree 2, inv_wTree 0, inv_wReady 2, by decide +kernel⟩

theorem test_witness_CodeLengthBounds :
    Inv (wReady 2) ∧ Inv (wReady 1) ∧
    ((wReady 2).phase = .ready ∧ (wReady 2).freqAt 0x61 ≠ 0 ∧ (wReady 2).ndist.toNat = 2 ∧ (wReady 2).freqAt 0x63 = 0) ∧
    ((wReady 1).phase = .ready ∧ (wReady 1).freqAt 0x48 ≠ 0 ∧ (wReady 1).ndist.toNat = 1) :=
  ⟨inv_wReady 2, inv_wReady 1, by decide +kernel⟩

theorem test_witness_EncEmitsTheCode :
    ((wReady 2).fault = 0 ∧ (wReady 2).phase = .ready ∧ (wReady 2).clenAt 0x61 ≠ 0 ∧ (wReady 2).clenAt 0x63 = 0) ∧
    ((wTree 2).fault = 0 ∧ (wTree 2).phase ≠ .ready) := by decide +kernel

theorem test_witness_EncodeSequence :
    (wReady 2).fault = 0 ∧ (wReady 2).phase = .ready ∧ (∀ x ∈ [(0x61 : Sym), 0x62], (wReady 2).clenAt x ≠ 0) ∧
      (wReady 2).clenAt 0x63 = 0 := by decide +kernel

theorem test_witness_EncendEndsTheStream :
    ((wReady 0).fault = 0 ∧ (wReady 0).phase = .ready) ∧ ((wCount 0).fault = 0 ∧ (wCount 0).phase ≠ .ready) := by
  decide +kernel

theorem test_witness_DecWalksOneBit :
    ((wTree 0).fault = 0 ∧ (wTree 0).phase = .tree ∧ (wTree 0).root = 0x1FF) ∧
    ((wReady 1).fault = 0 ∧ (wReady 1).phase = .ready ∧ (wReady 1).root ≠ 0x1FF ∧
      ((wReady 1).nd (wReady 1).root.toNat).leaf = true) ∧
    (t3Tree.fault = 0 ∧ t3Tree.phase = .tree ∧ t3Tree.root ≠ 0x1FF ∧ (t3Tree.nd t3Tree.root.toNat).leaf = false ∧
      t3Tree.cur ≠ 0x1FF ∧ (t3Tree.nd t3Tree.cur.toNat).left ≠ 0x1FF ∧
      (t3Tree.nd (t3Tree.nd t3Tree.cur.toNat).left.toNat).leaf = true ∧
      (t3Tree.nd t3Tree.cur.toNat).right ≠ 0x1FF ∧
      (t3Tree.nd (t3Tree.nd t3Tree.cur.toNat).right.toNat).leaf = false) ∧
    (let s := { t3Tree with cur := 9 }
     s.fault = 0 ∧ s.phase = .tree ∧ s.root ≠ 0x1FF ∧ (s.nd s.root.toNat).leaf = false ∧ s.cur ≠ 0x1FF ∧
      (s.nd s.cur.toNat).left = 0x1FF) ∧
    ((wForest 2).fault = 0 ∧ (wForest 2).phase ≠ .tree ∧ (wForest 2).phase ≠ .ready) := by decide +kernel

theorem test_witness_DecodeSequence :
    Inv (wTree 2) ∧ (wTree 2).fault = 0 ∧ (wTree 2).phase = .tree ∧ (wTree 2).root ≠ 0x1FF ∧
      ((wTree 2).decodeBits (wTree 2).root [false, true]).2 = (wTree 2).root :=
  ⟨inv_wTree 2, by decide +kernel⟩

theorem test_witness_MalformedOnlyWithoutATree :
    Inv (wTree 0) ∧ Inv (wTree 1) ∧ Inv (wReady 2) ∧
    ((wTree 0).fault = 0 ∧ (wTree 0).phase = .tree ∧ (wTree 0).root = 0x1FF ∧
      (after (exec (.dec 1) (wTree 0))).trace.getLast? = some (.rsp 0x05 1)) ∧
    ((wTree 1).fault = 0 ∧ (wTree 1).phase = .tree ∧ (wTree 1).ndist = 1) ∧
    ((wReady 2).fault = 0 ∧ (wReady 2).phase = .ready ∧ (wReady 2).root ≠ 0x1FF ∧
      completes (exec (.dec 1) (wReady 2))) :=
  ⟨inv_wTree 0, inv_wTree 1, inv_wReady 2, by decide +kernel⟩

theorem test_witness_DecendReturnsToTheRoot :
    ((wTree 0).fault = 0 ∧ (wTree 0).phase = .tree) ∧ ((wReady 2).fault = 0 ∧ (wReady 2).phase = .ready) ∧
    ((wForest 2).fault = 0 ∧ (wForest 2).phase ≠ .tree ∧ (wForest 2).phase ≠ .ready) := by decide +kernel

theorem test_witness_RdReadsOneWord :
    (wReady 2).tblRead 0x17FB = some 0x1FF ∧ ((wReady 2).tblRead 0x2009 = none ∧ (wReady 2).fault = 0) ∧
    (wHalted.tblRead 0x17FC = none ∧ wHalted.fault ≠ 0) := by decide +kernel

theorem test_witness_CbitsRegion : 0 < 8 ∧ 7 < 8 ∧ 31 < 32 := by decide

theorem test_witness_NodeRegion : 0 < 511 ∧ 510 < 511 := by decide

theorem test_witness_MultiWordElements :
    (510 < 511 ∧ (wReady 2).tblRead (BitVec.ofNat 16 (0x1000 + 4 * 510)) = some 0 ∧
      (wReady 2).tblRead (BitVec.ofNat 16 (0x1000 + 4 * 510 + 1)) = some 0) ∧
    ((wReady 2).tblRead (BitVec.ofNat 16 (0x0100 + (0x62 : Sym).toNat)) = some 1 ∧ 0 < (1 : TblWord).toNat) := by
  decide +kernel

theorem test_witness_EveryStepKeepsTheInvariant :
    let s : State := { wForest 3 with inputs := [.command 0x1200000000000000] }
    Inv s ∧ ∃ t, step s = .next t := ⟨(inv_wForest 3).withInputs _, next_of (by decide +kernel)⟩

/-- Also in a state that no run reaches: PQLEN = 2 with no member. The rules fix all but the new record's CNT. -/
theorem test_witness_NoStepStops :
    let s : State := { State.reset with phase := .forest, pqlen := 2, inputs := [.command 0x1100000000000000] }
    s.inputs = [.command 0x1100000000000000] ∧ (after (step s)).nnodes = 1 ∧ (after (step s)).phase = .tree ∧
      ((after (step s)).nd 0).left = 0x1FF ∧ (after (step s)).trace = [.rsp 0x00 0] := by decide +kernel

theorem test_witness_FinishedTreeShape :
    Inv (wTree 2) ∧ (wTree 2).phase = .tree ∧ (wTree 2).root ≠ 0x1FF ∧ 2 < (wTree 2).nnodes.toNat ∧
      (wTree 2).ndist.toNat ≤ 2 ∧ 1 < (wTree 2).ndist.toNat :=
  ⟨inv_wTree 2, by decide +kernel⟩

theorem test_witness_ForestShape :
    Inv (wForest 3) ∧ (wForest 3).phase = .forest ∧ 2 < (wForest 3).nnodes.toNat :=
  ⟨inv_wForest 3, by decide +kernel⟩

theorem test_witness_FrequencyConservation :
    Inv (wTree 2) ∧ (wTree 2).phase = .tree ∧ (wTree 2).root ≠ 0x1FF ∧ 1 < (wTree 2).ndist.toNat ∧
      State.reset.AtReset ∧ (∃ t, runAll ([(0x48 : Sym), 0x48].map .sym) State.reset = .next t ∧ t.fault = 0) := by
  have e : completes (runAll ([(0x48 : Sym), 0x48].map .sym) State.reset) = true ∧
      (after (runAll ([(0x48 : Sym), 0x48].map .sym) State.reset)).fault = 0 := by decide +kernel
  have hr : State.reset.AtReset := by
    refine ⟨fun x => ?_, fun i _ => nd_reset i, rfl, rfl, fun i _ => inQ_reset i, rfl, rfl, rfl, fun x => ?_,
      fun x => ?_, rfl, rfl, rfl, rfl⟩ <;> simp [State.reset, State.freqAt, State.clenAt, State.cbitsAt]
  refine ⟨inv_wTree 2, by decide +kernel, by decide +kernel, by decide +kernel, hr, ?_⟩
  obtain ⟨t, ht⟩ := next_of e.1
  rw [ht] at e
  exact ⟨t, ht, e.2⟩

theorem test_witness_CodesArePrefixFree :
    Inv (wReady 3) ∧ (wReady 3).phase = .ready ∧ (0x78 : Sym) ≠ 0x7A ∧ (wReady 3).clenAt 0x78 ≠ 0 ∧
      (wReady 3).clenAt 0x7A ≠ 0 :=
  ⟨inv_wReady 3, by decide +kernel⟩

theorem test_witness_RoundTrip : ∀ x, [(0x61 : Sym), 0x62, 0x61].count x ≤ 2 ^ 32 - 1 := fun x =>
  le_trans List.count_le_length (by decide)

theorem test_witness_RunsAreDeterminedByFreq :
    Inv (wCount 3) ∧ Inv (runOf [.sym 0x78, .sym 0x7A, .sym 0x79]) ∧ (wCount 3).fault = 0 ∧
      (runOf [.sym 0x78, .sym 0x7A, .sym 0x79]).fault = 0 ∧ (wCount 3).phase = .count ∧
      (runOf [.sym 0x78, .sym 0x7A, .sym 0x79]).phase = .count ∧
      (wCount 3).freq = (runOf [.sym 0x78, .sym 0x7A, .sym 0x79]).freq ∧ 1 + 1 < (wCount 3).presentSyms.length :=
  ⟨inv_wCount 3, inv_runOf _, by rw [State.presentSyms_eq]; decide +kernel⟩

theorem test_witness_PaddedStreamDecodes :
    Inv (wReady 3) ∧ Inv (wReady 1) ∧
    ((wReady 3).phase = .ready ∧ (wReady 3).root ≠ 0x1FF ∧ (∀ x ∈ [(0x78 : Sym), 0x7A], (wReady 3).clenAt x ≠ 0) ∧
      2 ≤ (wReady 3).ndist.toNat) ∧
    ((wReady 1).phase = .ready ∧ (wReady 1).root ≠ 0x1FF ∧ (∀ x ∈ [(0x48 : Sym)], (wReady 1).clenAt x ≠ 0) ∧
      (wReady 1).ndist = 1) :=
  ⟨inv_wReady 3, inv_wReady 1, by decide +kernel⟩

theorem test_witness_KraftEquality :
    Inv (wReady 2) ∧ Inv (wReady 1) ∧ ((wReady 2).phase = .ready ∧ (wReady 2).ndist.toNat = 2) ∧
    ((wReady 1).phase = .ready ∧ (wReady 1).ndist = 1) :=
  ⟨inv_wReady 2, inv_wReady 1, by decide +kernel⟩

theorem test_witness_EncodedLength :
    Inv (wReady 2) ∧ Inv (wReady 1) ∧ ((wReady 2).phase = .ready ∧ (wReady 2).ndist.toNat = 2) ∧
    ((wReady 1).phase = .ready ∧ (wReady 1).ndist = 1) :=
  ⟨inv_wReady 2, inv_wReady 1, by decide +kernel⟩

end Sys2Proof.Tests
end

section
/-! PROOFS. The step itself (spec/00_scope.md R9, 70_reset_and_hazards.md R313): it runs the decoded command, and it has a
next state for every word, every input of the host and every state. -/

namespace Sys2Proof.Machine

/-- A beat is no response (R98 to R100). -/
theorem Event.ne_rsp_of_isBeat {e : Event} (h : e.isBeat = true) (st : BitVec 8) (d : TblWord) : e ≠ .rsp st d := by
  rintro rfl
  exact Bool.noConfusion h

/-- Every word, legal or not, is answered in every state: data beats, then one response, and no input is taken beyond
the word itself (R9). An illegal word is answered by the fault entry alone (R261). -/
theorem takeWord_answers (w : CmdWord) (s : State) :
    ∃ t beats st d, takeWord w s = .next t ∧ t.inputs = s.inputs ∧ t.trace = s.trace ++ (beats ++ [.rsp st d]) ∧
      ∀ e ∈ beats, e.isBeat = true := by
  cases h : decode w with
  | ok i =>
    obtain ⟨t, ht⟩ := exec_total i s
    obtain ⟨beats, st, d, htrace, hbeats⟩ := exec_trace ht
    exact ⟨t, beats, st, d, (takeWord_ok h s).trans ht, (exec_ports ht).1, htrace, hbeats⟩
  | error e =>
    have hno : ∀ i, decode w ≠ .ok i := by simp [h]
    exact ⟨_, [], _, _, takeWord_illegal hno s, s.raise_inputs _ _, s.raise_trace _ _, by simp⟩

/-- A command cut short by reset has a next state: the word does, and reset follows (R300). -/
theorem takeCut_total (w : CmdWord) (n : Nat) (s : State) : ∃ t, takeCut w n s = .next t := by
  obtain ⟨t, -, -, -, ht, -⟩ := takeWord_answers w s
  exact ⟨takeReset (s.emit ((beatsSince s t).take n)), by rw [takeCut, ht]⟩

/-- Every input of the host has a next state in every state (R9, R300, R301). -/
theorem takeInput_total (h : HostInput) (s : State) : ∃ t, takeInput h s = .next t := by
  cases h with
  | command w =>
    obtain ⟨t, -, -, -, ht, -⟩ := takeWord_answers w s
    exact ⟨t, ht⟩
  | reset => exact ⟨takeReset s, rfl⟩
  | resetDuring w n => exact takeCut_total w n s

/-- The step has a next state in every state: with nothing presented it idles (R284). -/
theorem step_total (s : State) : ∃ t, step s = .next t := by
  unfold step
  cases fetchInput s with
  | none => exact ⟨s, rfl⟩
  | some p => exact takeInput_total p.1 p.2

/-- Settles O48: each word is answered whether it decodes or not, and each kind of input has a next state. -/
theorem noStepStops : Obligations.NoStepStops := by
  refine ⟨fun s w rest hin => ?_, exec_total, step_total⟩
  obtain ⟨t, beats, st, d, ht, hinputs, htrace, hbeats⟩ := takeWord_answers w { s with inputs := rest }
  exact ⟨t, beats, st, d, (step_command hin).trans ht, hinputs, htrace,
    fun e he => Event.ne_rsp_of_isBeat (hbeats e he)⟩

/-- Settles O3: the oldest input is the word, and a word that decodes runs its command. -/
theorem stepRunsDecodedCommand : Obligations.StepRunsDecodedCommand := by
  intro s w i rest hin hw
  rw [step_command hin, takeWord_ok hw]

end Sys2Proof.Machine
end

section
/-! PROOFS. The reset state (spec/10_state.md R40): every element's value in it, the two ways back to it, and the machine's
invariant there. -/

namespace Sys2Proof.Machine

/-- The table of R40, read off the state given for reset. -/
theorem State.atReset_reset : State.reset.AtReset where
  freq _ := Table.get_fill _ _
  node i _ := nd_reset i
  nnodes := rfl
  ndist := rfl
  inq i _ := inQ_reset i
  pqlen := rfl
  root := rfl
  cur := rfl
  clen _ := Table.get_fill _ _
  cbits _ := Table.get_fill _ _
  fault := rfl
  finfo := rfl
  phase := ⟨rfl, rfl⟩

/-- The host's inputs and the trace are no elements of R20, so replacing them does not matter. -/
theorem State.AtReset.ported {s : State} (h : s.AtReset) (q : List HostInput) (tr : List Event) :
    (s.ported q tr).AtReset where
  freq := h.freq
  node := h.node
  nnodes := h.nnodes
  ndist := h.ndist
  inq := h.inq
  pqlen := h.pqlen
  root := h.root
  cur := h.cur
  clen := h.clen
  cbits := h.cbits
  fault := h.fault
  finfo := h.finfo
  phase := h.phase

/-- CLR is performed in every phase, halted or not (R268, R280). -/
theorem passes_clr (s : State) : passes .clr s := ⟨Or.inr rfl, rfl⟩

/-- Clearing gives the reset state, with the inputs and the trace of the state it clears (R132). -/
theorem exec_clr (s : State) :
    exec .clr s = .next (State.reset.ported s.inputs (s.trace ++ [.rsp 0x00 0])) :=
  exec_done (beats := []) (passes_clr s) rfl

/-- The reset input gives the reset state and no response (R301, R302). -/
theorem step_reset {s : State} {rest : List HostInput} (h : s.inputs = .reset :: rest) :
    step s = .next (State.reset.ported rest s.trace) := by
  simp only [step, fetchInput, h, takeInput]
  rfl

/-- Settles O1: CLR and the reset input both lead to the reset state but for the inputs and the trace. -/
theorem resetStateIsAsListed : Obligations.ResetStateIsAsListed :=
  ⟨State.atReset_reset,
    fun s => ⟨_, exec_clr s, State.atReset_reset.ported _ _⟩,
    fun _ _ h => ⟨_, step_reset h, State.atReset_reset.ported _ _⟩⟩

/-- Settles O2: the reset state is a cleared state. -/
theorem resetSatisfiesInvariant : Obligations.ResetSatisfiesInvariant := Inv.cleared State.reset

end Sys2Proof.Machine
end

section
/-! PROOFS. Who writes what (spec/10_state.md R41): the table once for a command's own rule, then for the whole command with
its checks, its response and the fault entry. -/

namespace Sys2Proof.Machine

/-- The rows of R41's table for the tables and registers, everything but FAULT and FINFO: how `t` may differ from `s`
after command `i`. -/
structure TableWrites (i : Instr) (s t : State) : Prop where
  freq : t.freq = s.freq ∨ i = .clr ∨ (∃ x, i = .sym x) ∨ ∃ x d, i = .ldf x d
  arena : (t.node = s.node ∧ t.nnodes = s.nnodes ∧ t.inq = s.inq ∧ t.pqlen = s.pqlen) ∨
    i = .forest ∨ i = .merge ∨ i = .tree ∨ i = .clr
  ndist : t.ndist = s.ndist ∨ i = .forest ∨ i = .clr
  root : t.root = s.root ∨ ((i = .merge ∨ i = .tree) ∧ s.phase = .forest ∧ t.phase = .tree) ∨ i = .clr
  cur : t.cur = s.cur ∨ ((i = .merge ∨ i = .tree) ∧ s.phase = .forest ∧ t.phase = .tree) ∨
    (∃ b, i = .dec b) ∨ i = .decend ∨ i = .clr
  codes : (t.clen = s.clen ∧ t.cbits = s.cbits) ∨ i = .derive ∨ i = .clr
  phase : t.phase = s.phase ∨ i = .forest ∨ ((i = .merge ∨ i = .tree) ∧ t.phase = .tree) ∨ i = .derive ∨ i = .clr

/-- The commands that write no state unless they fault (R41). -/
def readsOnly (i : Instr) : Prop := i = .nop ∨ (∃ x, i = .enc x) ∨ i = .encend ∨ ∃ a, i = .rd a

/-- R41 for a command's own rule, where it completes: it writes no fault record, unless it is CLR. -/
structure OwnWrites (i : Instr) (s t : State) : Prop where
  tables : TableWrites i s t
  fault : (t.fault = s.fault ∧ t.finfo = s.finfo) ∨ i = .clr
  reads : readsOnly i → t = s

theorem TableWrites.refl (i : Instr) (s : State) : TableWrites i s s := by
  constructor <;> simp

/-- The fault record, the inputs and the trace are in none of these rows. -/
theorem TableWrites.around {i : Instr} {s t : State} (h : TableWrites i s t) (f : BitVec 8) (fi : TblWord)
    (q : List HostInput) (tr : List Event) : TableWrites i s (t.around f fi q tr) :=
  ⟨h.freq, h.arena, h.ndist, h.root, h.cur, h.codes, h.phase⟩

theorem OwnWrites.refl (i : Instr) (s : State) : OwnWrites i s s :=
  ⟨TableWrites.refl i s, Or.inl ⟨rfl, rfl⟩, fun _ => rfl⟩

theorem OwnWrites.clr (s t : State) : OwnWrites .clr s t :=
  ⟨by constructor <;> simp, Or.inr rfl, by simp [readsOnly]⟩

theorem OwnWrites.setFreq {i : Instr} {x : Sym} (hi : i = .sym x ∨ ∃ d, i = .ldf x d) (s : State) (f : Freq) :
    OwnWrites i s (s.setFreq x f) := by
  obtain rfl | ⟨d, rfl⟩ := hi <;> exact ⟨by constructor <;> simp, Or.inl ⟨rfl, rfl⟩, by simp [readsOnly]⟩

theorem OwnWrites.forest (s : State) : OwnWrites .forest s s.loadForest := by
  have F := s.loadForest_frame
  exact ⟨by constructor <;> simp [F.freq, F.root, F.cur, F.clen, F.cbits], Or.inl ⟨F.fault, F.finfo⟩,
    by simp [readsOnly]⟩

/-- MERGE and TREE move ROOT, CUR and PHASE only where they finalise (R152). -/
theorem OwnWrites.build {i : Instr} (hi : i = .merge ∨ i = .tree) {s t : State} (hp : s.phase = .forest)
    (F : TreeFrame s t) (h : (t.root = s.root ∧ t.cur = s.cur ∧ t.phase = s.phase) ∨ t.phase = .tree) :
    OwnWrites i s t where
  tables :=
    { freq := Or.inl F.freq
      arena := by tauto
      ndist := Or.inl F.ndist
      root := by tauto
      cur := by tauto
      codes := Or.inl ⟨F.clen, F.cbits⟩
      phase := by tauto }
  fault := Or.inl ⟨F.fault, F.finfo⟩
  reads := by obtain rfl | rfl := hi <;> simp [readsOnly]

theorem OwnWrites.derive (s : State) : OwnWrites .derive s s.deriveCodes := by
  have F := s.deriveCodes_frame.1
  exact ⟨by constructor <;> simp [F.freq, F.node, F.nnodes, F.inq, F.pqlen, F.ndist, F.root, F.cur],
    Or.inl ⟨F.fault, F.finfo⟩, by simp [readsOnly]⟩

theorem OwnWrites.setCur {i : Instr} (hi : (∃ b, i = .dec b) ∨ i = .decend) (s : State) (c : Idx) :
    OwnWrites i s { s with cur := c } := by
  obtain ⟨b, rfl⟩ | rfl := hi <;> exact ⟨by constructor <;> simp, Or.inl ⟨rfl, rfl⟩, by simp [readsOnly]⟩

/-- R41 for the thirteen own rules, command by command. -/
theorem ownReply_writes {i : Instr} {s s' : State} {beats : List Event} {d : TblWord} (hp : passes i s)
    (h : ownReply i s = .done s' beats d) : OwnWrites i s s' := by
  cases i with
  | nop => cases h; exact OwnWrites.refl _ s
  | clr => cases h; exact OwnWrites.clr s _
  | sym x => obtain ⟨-, rfl, -⟩ := symReply_done h; exact OwnWrites.setFreq (Or.inl rfl) s _
  | ldf x d => cases h; exact OwnWrites.setFreq (Or.inr ⟨d, rfl⟩) s d
  | forest => cases h; exact OwnWrites.forest s
  | merge =>
    cases h
    exact OwnWrites.build (Or.inl rfl) (by simpa [legalIn] using hp.2) s.mstep_frame (mstep_root s)
  | tree =>
    cases h
    have hn : s.pqlen.toNat ≤ Config.nodeMax := Nat.le_of_lt_succ s.pqlen.isLt
    exact OwnWrites.build (Or.inr rfl) (by simpa [legalIn] using hp.2) (mergeLoop_frame _ s)
      (Or.inr (mergeLoop_phase hn (by decide)))
  | derive => cases h; exact OwnWrites.derive s
  | enc x => obtain ⟨-, rfl, -⟩ := encReply_done h; exact OwnWrites.refl _ _
  | encend => cases h; exact OwnWrites.refl _ s
  | dec b =>
    obtain ⟨-, -, ⟨-, rfl, -⟩ | ⟨-, -, ⟨-, rfl, -⟩ | ⟨-, rfl, -⟩⟩⟩ := decReply_done h
    · exact OwnWrites.refl _ _
    · exact OwnWrites.setCur (Or.inl ⟨b, rfl⟩) s _
    · exact OwnWrites.setCur (Or.inl ⟨b, rfl⟩) s _
  | decend => cases h; exact OwnWrites.setCur (Or.inr rfl) s _
  | rd a => obtain ⟨-, rfl, -⟩ := rdReply_done h; exact OwnWrites.refl _ _

/-- Refusal, fault entry and response write nothing but the fault record and the trace, so the command writes only the
tables that its own rule writes. -/
theorem exec_tableWrites {i : Instr} {s t : State} (h : exec i s = .next t) : TableWrites i s t := by
  rcases exec_next h with ⟨-, -, rfl⟩ | ⟨c, info, rfl, -⟩ | ⟨hp, s', beats, d, hr, rfl⟩
  · exact (TableWrites.refl i s).around s.fault s.finfo s.inputs _
  · rw [s.raise_frame c info]
    exact (TableWrites.refl i s).around _ _ s.inputs _
  · exact (ownReply_writes hp hr).tables.around s'.fault s'.finfo s'.inputs _

/-- The first fault entry latches the record that its response carries; a later one latches nothing (R265). -/
theorem raise_latches (s : State) (c : Cause) (info : TblWord) :
    ((s.raise c info).fault = s.fault ∧ (s.raise c info).finfo = s.finfo) ∨
    (s.fault = 0 ∧ (s.raise c info).fault ≠ 0 ∧
      (s.raise c info).trace.getLast? = some (.rsp (s.raise c info).fault (s.raise c info).finfo)) := by
  by_cases hf : s.fault = 0
  · rw [State.raise_first hf]
    exact Or.inr ⟨hf, c.code_ne_zero, List.getLast?_concat⟩
  · rw [State.raise_later hf]
    exact Or.inl ⟨rfl, rfl⟩

/-- FAULT and FINFO are written by the first fault of a run and by CLR (R41). -/
theorem exec_faultWrites {i : Instr} {s t : State} (h : exec i s = .next t) :
    (t.fault = s.fault ∧ t.finfo = s.finfo) ∨
      (s.fault = 0 ∧ t.fault ≠ 0 ∧ t.trace.getLast? = some (.rsp t.fault t.finfo)) ∨ i = .clr := by
  rcases exec_next h with ⟨-, -, rfl⟩ | ⟨c, info, rfl, -⟩ | ⟨hp, s', beats, d, hr, rfl⟩
  · exact Or.inl ⟨rfl, rfl⟩
  · exact (raise_latches s c info).imp_right Or.inl
  · exact (ownReply_writes hp hr).fault.imp_right Or.inr

/-- NOP, ENC, ENCEND and RD change nothing but the trace and, by a fault, the fault record (R41). -/
theorem exec_readsOnly {i : Instr} {s t : State} (hi : readsOnly i) (h : exec i s = .next t) :
    t = { s with fault := t.fault, finfo := t.finfo, trace := t.trace } := by
  rcases exec_next h with ⟨-, -, rfl⟩ | ⟨c, info, rfl, -⟩ | ⟨hp, s', beats, d, hr, rfl⟩
  · rfl
  · exact s.raise_frame c info
  · rw [(ownReply_writes hp hr).reads hi]
    rfl

/-- Settles O17: R41's rows for the tables, for the fault record and for the commands that only read. -/
theorem writersOfState : Obligations.WritersOfState := by
  intro i s t h
  obtain ⟨hfreq, harena, hndist, hroot, hcur, hcodes, hphase⟩ := exec_tableWrites h
  exact ⟨hfreq, harena, hndist, hroot, hcur, hcodes, hphase, exec_faultWrites h,
    fun hi => exec_readsOnly hi h, (exec_ports h).1⟩

end Sys2Proof.Machine
end

section
/-! PROOFS. Table space (spec/20_memory.md R60 to R76): the fields of its computed words, the address map, the registers, and
what a count changes in it. -/

namespace Sys2Proof.Machine

/-! ## The computed words, field by field -/

/-- A word of CBITS is a slice of the code vector; bit 255 of the zero-extended vector is 0 (R64). -/
theorem getLsbD_cbitsWord (v : CodeBits) (w : Nat) {j : Nat} (hj : j < 32) :
    (cbitsWord v w).getLsbD j = v.getLsbD (32 * w + j) := by
  simp only [cbitsWord, BitVec.getLsbD_extractLsb', BitVec.getLsbD_setWidth, hj, decide_true, Bool.true_and]
  by_cases h : 32 * w + j < 256
  · simp [h]
  · simp [h, BitVec.getLsbD_of_ge v (32 * w + j) (by omega)]

/-- Word 1 of a record: CNT[39:32], SYM, LEAF, INQ and ALLOC, from bit 0 up (R65). -/
theorem nodeWord1_fields (n : Node) (inq alloc : Bool) :
    (nodeWord1 n inq alloc).extractLsb' 0 8 = n.cnt.extractLsb' 32 8 ∧
    (nodeWord1 n inq alloc).extractLsb' 8 8 = n.sym ∧ (nodeWord1 n inq alloc).getLsbD 16 = n.leaf ∧
    (nodeWord1 n inq alloc).getLsbD 17 = inq ∧ (nodeWord1 n inq alloc).getLsbD 18 = alloc ∧
    (nodeWord1 n inq alloc).extractLsb' 19 13 = 0 := by
  simp (disch := decide) only [nodeWord1, BitVec.extractLsb'_setWidth_of_le, BitVec.extractLsb'_append_eq_of_add_le,
    BitVec.extractLsb'_append_eq_of_le, BitVec.extractLsb'_eq_self, BitVec.extractLsb'_zero, Nat.reduceSub,
    BitVec.getLsbD_setWidth, BitVec.getLsbD_append]
  simp

/-- Word 2 of a record: LEFT and RIGHT, from bit 0 up (R65). -/
theorem nodeWord2_fields (n : Node) :
    (nodeWord2 n).extractLsb' 0 9 = n.left ∧ (nodeWord2 n).extractLsb' 9 7 = 0 ∧
    (nodeWord2 n).extractLsb' 16 9 = n.right ∧ (nodeWord2 n).extractLsb' 25 7 = 0 := by
  simp (disch := decide) only [nodeWord2, BitVec.extractLsb'_setWidth_of_le, BitVec.extractLsb'_append_eq_of_add_le,
    BitVec.extractLsb'_append_eq_of_le, BitVec.extractLsb'_eq_self, BitVec.extractLsb'_zero, Nat.reduceSub]
  simp

/-- Word 3 of a record: PARENT (R65). -/
theorem nodeWord3_fields (n : Node) :
    (nodeWord3 n).extractLsb' 0 9 = n.parent ∧ (nodeWord3 n).extractLsb' 9 23 = 0 := by
  unfold nodeWord3
  refine ⟨?_, ?_⟩ <;> ext j hj
  · simp [hj]; omega
  · simp

/-- STATUS: PHASE, FAULTED, NOTREE and SINGLE, from bit 0 up (R67). -/
theorem State.statusWord_fields (s : State) :
    s.statusWord.extractLsb' 0 2 = s.phase.code ∧ s.statusWord.getLsbD 2 = s.faulted ∧
    s.statusWord.getLsbD 3 = s.noTree ∧ s.statusWord.getLsbD 4 = s.single ∧ s.statusWord.extractLsb' 5 27 = 0 := by
  have hzero : s.statusWord.extractLsb' 5 27 = 0 := by ext j hj; simp [State.statusWord]
  refine ⟨?_, ?_, ?_, ?_, hzero⟩ <;> unfold State.statusWord
  · simp (disch := decide) only [BitVec.extractLsb'_setWidth_of_le, BitVec.extractLsb'_append_eq_right]
  all_goals
    simp only [BitVec.getLsbD_setWidth, BitVec.getLsbD_append]
    simp

/-! ## The regions -/

/-- Every record has four words (R65). -/
theorem State.nodeWord_ne_none (s : State) {i f : Nat} (hi : i < 511) (hf : f < 4) : s.nodeWord i f ≠ none := by
  rw [s.nodeWord_eq hi]
  interval_cases f <;> simp

/-- The unmapped ranges, branch by branch of the address map (R61, R76). -/
theorem State.tblRead_eq_none_iff (s : State) (a : TblAddr) : s.tblRead a = none ↔
    (0x0200 ≤ a.toNat ∧ a.toNat ≤ 0x07FF) ∨ (0x17FC ≤ a.toNat ∧ a.toNat ≤ 0x1FFF) ∨ 0x2009 ≤ a.toNat := by
  simp only [State.tblRead]
  split_ifs with hfreq hclen hgap hcbits hnode hgap'
  · rw [Table.get?_eq_none_iff]; omega
  · rw [Option.map_eq_none_iff, Table.get?_eq_none_iff]; omega
  · exact iff_of_true rfl (by omega)
  · rw [Option.map_eq_none_iff, Table.get?_eq_none_iff]; omega
  · exact iff_of_false (s.nodeWord_ne_none (by omega) (by omega)) (by omega)
  · exact iff_of_true rfl (by omega)
  · rw [s.statusReg_none_iff (by omega)]; omega

/-- Settles O42: the FREQ and CLEN regions by their own laws, the unmapped ranges by the address map. -/
theorem tableSpaceMap : Obligations.TableSpaceMap := by
  refine fun s => ⟨fun x => ?_, s.tblRead_clen, s.tblRead_eq_none_iff⟩
  have hx := x.isLt
  have ha : (BitVec.ofNat 16 x.toNat).toNat = x.toNat := addr_toNat (by omega)
  have hs : (BitVec.ofNat 16 x.toNat).setWidth 8 = x := by
    rw [← BitVec.toNat_inj, BitVec.toNat_setWidth, ha, Nat.mod_eq_of_lt hx]
  rw [s.tblRead_freq (by omega), hs]

/-- Settles O43: each of the eight words is a slice of the code vector. -/
theorem cbitsRegion : Obligations.CbitsRegion :=
  fun s x w hw => ⟨_, s.tblRead_cbits x hw, fun _ hj => getLsbD_cbitsWord (s.cbitsAt x) w hj⟩

/-- Settles O44: the four words of a record, each by its fields. -/
theorem nodeRegion : Obligations.NodeRegion := by
  intro s i hi
  have word {f : Nat} (hf : f < 4) := (s.tblRead_node hi hf).trans (s.nodeWord_eq hi f)
  exact ⟨⟨_, word (f := 0) (by decide), rfl⟩, ⟨_, word (f := 1) (by decide), nodeWord1_fields _ _ _⟩,
    ⟨_, word (f := 2) (by decide), nodeWord2_fields _⟩, ⟨_, word (f := 3) (by decide), nodeWord3_fields _⟩⟩

/-! ## The status registers -/

/-- NOTREE: the tree is final and absent (spec/10_state.md R33). -/
theorem State.noTree_iff (s : State) :
    s.noTree = true ↔ (s.phase = .tree ∨ s.phase = .ready) ∧ s.root = Config.nil := by
  have hfinal : s.phase.treeFinal = true ↔ s.phase = .tree ∨ s.phase = .ready := by
    cases s.phase <;> simp [Phase.treeFinal]
  rw [State.noTree, Bool.and_eq_true, hfinal, beq_iff_eq]

/-- SINGLE: ROOT names a leaf (R33). -/
theorem State.single_iff (s : State) :
    s.single = true ↔ s.root ≠ Config.nil ∧ (s.nd s.root.toNat).leaf = true := by
  rw [State.single, Bool.and_eq_true, bne_iff_ne, State.rootIsLeaf_eq]

/-- Settles O45: STATUS by its fields, and the seven registers that hold one element each. -/
theorem statusRegisters : Obligations.StatusRegisters := by
  intro s
  have read {k : Nat} (hk : k < 9) : s.tblRead (BitVec.ofNat 16 (0x2000 + k)) = s.statusReg (0x2000 + k) := by
    have ha : (BitVec.ofNat 16 (0x2000 + k)).toNat = 0x2000 + k := addr_toNat (by omega)
    rw [s.tblRead_status (by omega), ha]
  obtain ⟨hphase, hfaulted, hnoTree, hsingle, hzero⟩ := s.statusWord_fields
  refine ⟨⟨s.statusWord, read (k := 0) (by decide), hphase, ?_, ?_, ?_, hzero⟩, read (k := 1) (by decide),
    read (k := 2) (by decide), read (k := 3) (by decide), read (k := 4) (by decide), read (k := 5) (by decide),
    read (k := 6) (by decide), read (k := 7) (by decide)⟩
  · rw [hfaulted]; exact s.halted_iff
  · rw [hnoTree]; exact s.noTree_iff
  · rw [hsingle]; exact s.single_iff

/-- Settles O27: the least member by the laws of `pqmin`; a least member of the same set is the same one. -/
theorem pqminIsTheLeastMember : Obligations.PqminIsTheLeastMember := by
  refine fun s => ⟨State.pqmin_eq_nil, pqmin_isLeast, fun i hi => ?_, s.tblRead_status (by decide)⟩
  have hne : s.pqmin ≠ Config.nil := fun h => by simpa [State.pqmin_eq_nil.1 h i] using hi.1
  exact isLeast_unique hi (pqmin_isLeast hne)

/-! ## Counting, seen through table space -/

/-- Settles O24: SYM and LDF both complete by setting one counter, and one lemma says what that changes in table space. -/
theorem countingChangesOneWord : Obligations.CountingChangesOneWord := by
  intro s t x d hf hp
  have counted {i : Instr} {f : Freq} (hl : legalIn i s.phase = true)
      (hr : ownReply i s = .done (s.setFreq x f) [] 0) (he : exec i s = .next t) :
      t.tblRead (x.setWidth 16) = some f ∧ ∀ a, a ≠ x.setWidth 16 → t.tblRead a = s.tblRead a := by
    rw [exec_done (passes_intro hf hl) hr] at he
    cases he
    exact tblRead_setFreq s x f _ _ rfl
  refine ⟨counted (by simp [legalIn, hp]) rfl, fun hx => counted (by simp [legalIn, hp]) ?_⟩
  exact if_neg hx

end Sys2Proof.Machine
end

section
/-! PROOFS. What no command but CLR changes once the tree is final (spec/20_memory.md R85): the frozen elements, then one
command, then a run. -/

namespace Sys2Proof.Machine

/-- What CLR alone may change from `s` to `t` once the tree is final: the tables and registers of the tree, and, once the
codes are derived, the code table and PHASE (R41, R280). In `t` the tree is still final. -/
structure Frozen (s t : State) : Prop where
  freq : t.freq = s.freq
  node : t.node = s.node
  nnodes : t.nnodes = s.nnodes
  ndist : t.ndist = s.ndist
  inq : t.inq = s.inq
  pqlen : t.pqlen = s.pqlen
  root : t.root = s.root
  final : t.phase = .tree ∨ t.phase = .ready
  codes : s.phase = .ready → t.clen = s.clen ∧ t.cbits = s.cbits ∧ t.phase = .ready

theorem Frozen.refl {s : State} (h : s.phase = .tree ∨ s.phase = .ready) : Frozen s s :=
  ⟨rfl, rfl, rfl, rfl, rfl, rfl, rfl, h, fun hr => ⟨rfl, rfl, hr⟩⟩

theorem Frozen.trans {s t u : State} (h : Frozen s t) (g : Frozen t u) : Frozen s u where
  freq := g.freq.trans h.freq
  node := g.node.trans h.node
  nnodes := g.nnodes.trans h.nnodes
  ndist := g.ndist.trans h.ndist
  inq := g.inq.trans h.inq
  pqlen := g.pqlen.trans h.pqlen
  root := g.root.trans h.root
  final := g.final
  codes hr := by
    obtain ⟨hclen, hcbits, hready⟩ := h.codes hr
    obtain ⟨gclen, gcbits, gready⟩ := g.codes hready
    exact ⟨gclen.trans hclen, gcbits.trans hcbits, gready⟩

/-- The fault record, the inputs and the trace are not among the frozen elements. -/
theorem Frozen.around {s t : State} (h : Frozen s t) (f : BitVec 8) (fi : TblWord) (q : List HostInput)
    (tr : List Event) : Frozen s (t.around f fi q tr) :=
  ⟨h.freq, h.node, h.nnodes, h.ndist, h.inq, h.pqlen, h.root, h.final, h.codes⟩

/-- Table R280 in P_TREE and P_READY: none of the writers of FREQ and of the tree is legal, and DERIVE is not legal
again. -/
theorem legalIn_treeFinal {i : Instr} {p : Phase} (hp : p = .tree ∨ p = .ready) (hl : legalIn i p = true) :
    (∀ x, i ≠ .sym x) ∧ (∀ x d, i ≠ .ldf x d) ∧ i ≠ .forest ∧ i ≠ .merge ∧ i ≠ .tree ∧
      (p = .ready → i ≠ .derive) := by
  obtain rfl | rfl := hp <;> cases i <;> simp [legalIn] at hl ⊢

/-- What a command writes that is legal once the tree is final, CLR excepted: no frozen element has it as a writer. -/
theorem TableWrites.frozen {i : Instr} {s t : State} (hc : i ≠ .clr) (hp : s.phase = .tree ∨ s.phase = .ready)
    (hl : legalIn i s.phase = true) (hd : i = .derive → t.phase = .ready) (h : TableWrites i s t) : Frozen s t := by
  obtain ⟨hsym, hldf, hforest, hmerge, htree, hderive⟩ := legalIn_treeFinal hp hl
  have hfreq : t.freq = s.freq := by simpa [hc, hsym, hldf] using h.freq
  have hndist : t.ndist = s.ndist := by simpa [hc, hforest] using h.ndist
  have hroot : t.root = s.root := by simpa [hc, hmerge, htree] using h.root
  have hphase : t.phase = s.phase ∨ i = .derive := by simpa [hc, hforest, hmerge, htree] using h.phase
  obtain ⟨hnode, hnnodes, hinq, hpqlen⟩ :
      t.node = s.node ∧ t.nnodes = s.nnodes ∧ t.inq = s.inq ∧ t.pqlen = s.pqlen := by
    simpa [hc, hforest, hmerge, htree] using h.arena
  refine ⟨hfreq, hnode, hnnodes, hndist, hinq, hpqlen, hroot, ?_, fun hr => ?_⟩
  · rcases hphase with e | e
    · rwa [e]
    · exact Or.inr (hd e)
  · obtain ⟨hclen, hcbits⟩ : t.clen = s.clen ∧ t.cbits = s.cbits := by simpa [hc, hderive hr] using h.codes
    exact ⟨hclen, hcbits, (hphase.resolve_right (hderive hr)).trans hr⟩

/-- Refused, faulted or done, a command other than CLR leaves the frozen elements alone. -/
theorem exec_frozen {i : Instr} {s t : State} (hc : i ≠ .clr) (hp : s.phase = .tree ∨ s.phase = .ready)
    (h : exec i s = .next t) : Frozen s t := by
  rcases exec_next h with ⟨-, -, rfl⟩ | ⟨c, info, rfl, -⟩ | ⟨hps, s', beats, d, hr, rfl⟩
  · exact (Frozen.refl hp).around s.fault s.finfo s.inputs _
  · rw [s.raise_frame c info]
    exact (Frozen.refl hp).around _ _ s.inputs _
  · have hd : i = .derive → s'.phase = .ready := by rintro rfl; cases hr; rfl
    exact ((ownReply_writes hps hr).tables.frozen hc hp hps.2 hd).around s'.fault s'.finfo s'.inputs _

/-- Along a run the tree stays final, so each command leaves the frozen elements alone. -/
theorem runAll_frozen {is : List Instr} {s t : State} (hc : .clr ∉ is) (hp : s.phase = .tree ∨ s.phase = .ready)
    (h : runAll is s = .next t) : Frozen s t := by
  induction is generalizing s with
  | nil => cases h; exact Frozen.refl hp
  | cons i is ih =>
    obtain ⟨u, hu⟩ := exec_total i s
    rw [runAll_cons_next hu] at h
    have hstep := exec_frozen (List.ne_of_not_mem_cons hc).symm hp hu
    exact hstep.trans (ih (List.not_mem_of_not_mem_cons hc) hstep.final h)

/-- Settles O18: the frozen elements of a run without CLR. -/
theorem tablesAreFrozen : Obligations.TablesAreFrozen := by
  intro is s t hc hp h
  obtain ⟨hfreq, hnode, hnnodes, hndist, hinq, hpqlen, hroot, -, hcodes⟩ := runAll_frozen hc hp h
  exact ⟨hfreq, hnode, hnnodes, hndist, hinq, hpqlen, hroot, hcodes⟩

end Sys2Proof.Machine
end

section
/-! PROOFS. The command word (spec/30_encoding.md R90 to R97, R108): encoding and decoding undo each other, the rows of the
opcode map are the commands, the illegal words, and the operands as slices of the word. -/

namespace Sys2Proof

/-! ## Encoding (R108) -/

/-- The encoding of a command decodes to it. -/
theorem decode_encode (i : Instr) : decode (encode i) = .ok i := by
  obtain ⟨hop, hrsv, ha, hd⟩ := Laws.WordFields.of_packWord i
  exact decode_ok_iff.2 ⟨hrsv, hop, ha, hd⟩

/-- A legal word is the encoding of its command. -/
theorem encode_of_decode {w : CmdWord} {i : Instr} (h : decode w = .ok i) : encode i = w := by
  obtain ⟨hrsv, hop, ha, hd⟩ := decode_ok_iff.1 h
  rw [encode, ← hop, ← ha, ← hd, packWord_fields hrsv]

/-- An operand narrower than A stands at the low end of A, that is at bit 32 of the word (R91). -/
theorem packWord_setWidth {n : Nat} (hn : n ≤ 16) (op : BitVec 8) (x : BitVec n) (d : BitVec 32) :
    packWord op (x.setWidth 16) d = (op.setWidth 64 <<< 56) ||| (x.setWidth 64 <<< 32) ||| d.setWidth 64 := by
  rw [packWord, BitVec.setWidth_setWidth (by omega)]

/-- A format without operand D leaves the low half of the word 0. -/
theorem packWord_zero_d (op : BitVec 8) (a : BitVec 16) :
    packWord op a 0 = (op.setWidth 64 <<< 56) ||| (a.setWidth 64 <<< 32) := by
  simp [packWord]

/-- Formats S and B: one operand in A (R91). -/
theorem packWord_setWidth_zero_d {n : Nat} (hn : n ≤ 16) (op : BitVec 8) (x : BitVec n) :
    packWord op (x.setWidth 16) 0 = (op.setWidth 64 <<< 56) ||| (x.setWidth 64 <<< 32) := by
  rw [packWord_zero_d, BitVec.setWidth_setWidth (by omega)]

/-- Settles O8: the two round trips, and the word of each command by its format. -/
theorem encodeAndDecodeAreInverse : Obligations.EncodeAndDecodeAreInverse :=
  ⟨decode_encode, fun _ _ => encode_of_decode, rfl, rfl, packWord_setWidth_zero_d (by decide) 0x02,
    packWord_setWidth (by decide) 0x03, rfl, rfl, rfl, rfl, packWord_setWidth_zero_d (by decide) 0x30, rfl,
    packWord_setWidth_zero_d (by decide) 0x40, rfl, packWord_zero_d 0x50⟩

/-! ## The opcode map (R93) -/

/-- The words that decode to a command of mnemonic `m`, by their fields; `c` builds the commands of that mnemonic. -/
theorem exists_decode_mnemonic_iff {α : Type} {c : α → Instr} {m : String}
    (hc : ∀ i : Instr, i.mnemonic = m ↔ ∃ x, i = c x) (w : CmdWord) :
    (∃ i, decode w = .ok i ∧ i.mnemonic = m) ↔
      ∃ x, w.rsv = 0 ∧ w.op = (c x).opcode ∧ w.a = (c x).fieldA ∧ w.d = (c x).fieldD := by
  simp only [hc, ← decode_ok_iff]
  exact ⟨fun ⟨_, h, x, e⟩ => ⟨x, e ▸ h⟩, fun ⟨x, h⟩ => ⟨c x, h, x, rfl⟩⟩

/-- The row of a command without operands: format N fixes every bit (R91). -/
theorem rowN_iff {c : Instr} (hc : ∀ i : Instr, i.mnemonic = c.mnemonic ↔ i = c) (ha : c.fieldA = 0)
    (hd : c.fieldD = 0) {p : CmdWord} (hp : p = packWord c.opcode 0 0) (w : CmdWord) :
    w &&& 0xFFFFFFFFFFFFFFFF = p ↔ ∃ i, decode w = .ok i ∧ i.mnemonic = c.mnemonic := by
  rw [row_fields c.mnemonic c.opcode 0xFFFF 0xFFFFFFFF p _ hp rfl rfl rfl rfl w, row_formatN]
  simp only [hc, exists_eq_right, decode_ok_iff, ha, hd]

/-- A word satisfies a row exactly when it decodes to a command of the row (R93). -/
theorem row_iff_decode {r : OpcodeRow} (hr : r ∈ opcodeRows) (w : CmdWord) :
    w &&& r.mask = r.pattern ↔ ∃ i, decode w = .ok i ∧ i.mnemonic = r.mnemonic := by
  simp only [opcodeRows, List.mem_cons, List.not_mem_nil, or_false] at hr
  obtain rfl | rfl | rfl | rfl | rfl | rfl | rfl | rfl | rfl | rfl | rfl | rfl | rfl := hr
  · exact rowN_iff (c := .nop) (by rintro ⟨⟩ <;> simp [Instr.mnemonic]) rfl rfl rfl w
  · exact rowN_iff (c := .clr) (by rintro ⟨⟩ <;> simp [Instr.mnemonic]) rfl rfl rfl w
  · exact (row_fields "SYM" 0x02 0xFF00 0xFFFFFFFF _ _ rfl rfl rfl rfl rfl w).trans (row_formatS.trans
      (exists_decode_mnemonic_iff (c := .sym) (by rintro ⟨⟩ <;> simp [Instr.mnemonic]) w).symm)
  · refine (row_fields "LDF" 0x03 0xFF00 0 _ _ rfl rfl rfl rfl rfl w).trans (row_formatSD.trans (Iff.trans ?_
      (exists_decode_mnemonic_iff (c := fun x : Sym × Freq => .ldf x.1 x.2)
        (by rintro ⟨⟩ <;> simp [Instr.mnemonic]) w).symm))
    exact ⟨fun ⟨x, d, h⟩ => ⟨(x, d), h⟩, fun ⟨x, h⟩ => ⟨x.1, x.2, h⟩⟩
  · exact rowN_iff (c := .forest) (by rintro ⟨⟩ <;> simp [Instr.mnemonic]) rfl rfl rfl w
  · exact rowN_iff (c := .merge) (by rintro ⟨⟩ <;> simp [Instr.mnemonic]) rfl rfl rfl w
  · exact rowN_iff (c := .tree) (by rintro ⟨⟩ <;> simp [Instr.mnemonic]) rfl rfl rfl w
  · exact rowN_iff (c := .derive) (by rintro ⟨⟩ <;> simp [Instr.mnemonic]) rfl rfl rfl w
  · exact (row_fields "ENC" 0x30 0xFF00 0xFFFFFFFF _ _ rfl rfl rfl rfl rfl w).trans (row_formatS.trans
      (exists_decode_mnemonic_iff (c := .enc) (by rintro ⟨⟩ <;> simp [Instr.mnemonic]) w).symm)
  · exact rowN_iff (c := .encend) (by rintro ⟨⟩ <;> simp [Instr.mnemonic]) rfl rfl rfl w
  · exact (row_fields "DEC" 0x40 0xFFFE 0xFFFFFFFF _ _ rfl rfl rfl rfl rfl w).trans (row_formatB.trans
      (exists_decode_mnemonic_iff (c := .dec) (by rintro ⟨⟩ <;> simp [Instr.mnemonic]) w).symm)
  · exact rowN_iff (c := .decend) (by rintro ⟨⟩ <;> simp [Instr.mnemonic]) rfl rfl rfl w
  · exact (row_fields "RD" 0x50 0 0xFFFFFFFF _ _ rfl rfl rfl rfl rfl w).trans (row_formatA.trans
      (exists_decode_mnemonic_iff (c := .rd) (by rintro ⟨⟩ <;> simp [Instr.mnemonic]) w).symm)

/-- No two rows of the opcode map have one mnemonic. -/
theorem opcodeRows_mnemonic_inj : ∀ r ∈ opcodeRows, ∀ q ∈ opcodeRows, r.mnemonic = q.mnemonic → r = q := by decide

/-- Every command has its row in the opcode map. -/
theorem exists_row_of_instr (i : Instr) : ∃ r ∈ opcodeRows, i.mnemonic = r.mnemonic := by
  cases i <;> simp [opcodeRows, Instr.mnemonic]

/-- Settles O9: a row's words are its command's, so a word in two rows has one mnemonic, and that names one row. -/
theorem decodeAgreesWithOpcodeMap : Obligations.DecodeAgreesWithOpcodeMap := by
  refine ⟨fun w r hr => row_iff_decode hr w, fun w r hr q hq hwr hwq => ?_⟩
  obtain ⟨i, hi, hir⟩ := (row_iff_decode hr w).1 hwr
  obtain ⟨j, hj, hjq⟩ := (row_iff_decode hq w).1 hwq
  have hij : i = j := Except.ok.inj (hi.symm.trans hj)
  exact opcodeRows_mnemonic_inj r hr q hq (by rw [← hir, hij, hjq])

/-! ## The illegal words (R94) -/

/-- A format's test fails exactly where it gives no command. -/
theorem ite_ok_illegal_iff {p : Prop} [Decidable p] {c : Instr} {e : IllegalWord} :
    (∀ i, (if p then Except.ok c else .error e) ≠ Except.ok i) ↔ ¬ p := by
  by_cases h : p <;> simp [h]

theorem fmtN_illegal_iff {c : Instr} {a : BitVec 16} {d : BitVec 32} :
    (∀ i, fmtN c a d ≠ .ok i) ↔ a ≠ 0 ∨ d ≠ 0 := ite_ok_illegal_iff.trans not_and_or

theorem fmtS_illegal_iff {c : Sym → Instr} {a : BitVec 16} {d : BitVec 32} :
    (∀ i, fmtS c a d ≠ .ok i) ↔ a.extractLsb' 8 8 ≠ 0 ∨ d ≠ 0 := ite_ok_illegal_iff.trans not_and_or

theorem fmtSD_illegal_iff {c : Sym → Freq → Instr} {a : BitVec 16} {d : BitVec 32} :
    (∀ i, fmtSD c a d ≠ .ok i) ↔ a.extractLsb' 8 8 ≠ 0 := ite_ok_illegal_iff

theorem fmtB_illegal_iff {c : BitVec 1 → Instr} {a : BitVec 16} {d : BitVec 32} :
    (∀ i, fmtB c a d ≠ .ok i) ↔ a.extractLsb' 1 15 ≠ 0 ∨ d ≠ 0 := ite_ok_illegal_iff.trans not_and_or

theorem fmtA_illegal_iff {c : TblAddr → Instr} {a : BitVec 16} {d : BitVec 32} :
    (∀ i, fmtA c a d ≠ .ok i) ↔ d ≠ 0 := ite_ok_illegal_iff

/-- A part of operand field A is the part of the word 32 bits further up (R90). -/
theorem CmdWord.extractLsb'_a (w : CmdWord) {start len : Nat} (h : start + len ≤ 16) :
    w.a.extractLsb' start len = w.extractLsb' (32 + start) len := by
  ext k hk
  simp only [CmdWord.a, BitVec.getElem_extractLsb', BitVec.getLsbD_extractLsb', show start + k < 16 by omega,
    decide_true, Bool.true_and, Nat.add_assoc]

/-- The OP of a command is one of the thirteen values (R93). -/
theorem Instr.opcode_assigned (i : Instr) : i.opcode ∈
    ([0x00, 0x01, 0x02, 0x03, 0x10, 0x11, 0x12, 0x20, 0x30, 0x31, 0x40, 0x41, 0x50] : List (BitVec 8)) := by
  cases i <;> simp [Instr.opcode]

/-- A word is illegal exactly when it satisfies no row (R94). -/
theorem illegal_iff_no_row (w : CmdWord) :
    (∀ i, decode w ≠ .ok i) ↔ ∀ r ∈ opcodeRows, w &&& r.mask ≠ r.pattern := by
  constructor
  · intro h r hr hw
    obtain ⟨i, hi, -⟩ := (row_iff_decode hr w).1 hw
    exact h i hi
  · intro h i hi
    obtain ⟨r, hr, hm⟩ := exists_row_of_instr i
    exact h r hr ((row_iff_decode hr w).2 ⟨i, hi, hm⟩)

/-- Settles O10: a word with RSV = 0 and an assigned OP is illegal by its format's test alone. -/
theorem illegalWords : Obligations.IllegalWords := by
  intro w
  refine ⟨illegal_iff_no_row w, ?_⟩
  have h8 : w.a.extractLsb' 8 8 = w.extractLsb' 40 8 := w.extractLsb'_a (by decide)
  have h1 : w.a.extractLsb' 1 15 = w.extractLsb' 33 15 := w.extractLsb'_a (by decide)
  rw [← h8, ← h1]
  change _ ↔ w.rsv ≠ 0 ∨ w.op ∉ _ ∨ (w.op ∈ _ ∧ (w.a ≠ 0 ∨ w.d ≠ 0)) ∨ (w.op ∈ _ ∧ (_ ∨ w.d ≠ 0)) ∨
    (w.op = 0x03 ∧ _) ∨ (w.op = 0x40 ∧ (_ ∨ w.d ≠ 0)) ∨ (w.op = 0x50 ∧ w.d ≠ 0)
  by_cases hr : w.rsv = 0
  · by_cases ho : w.op ∈
        ([0x00, 0x01, 0x02, 0x03, 0x10, 0x11, 0x12, 0x20, 0x30, 0x31, 0x40, 0x41, 0x50] : List (BitVec 8))
    · simp only [List.mem_cons, List.not_mem_nil, or_false] at ho
      obtain h | h | h | h | h | h | h | h | h | h | h | h | h := ho <;>
        simp [decode, hr, h, fmtN_illegal_iff, fmtS_illegal_iff, fmtSD_illegal_iff, fmtB_illegal_iff,
          fmtA_illegal_iff, -ne_eq]
    · refine iff_of_true (fun i hi => ho ?_) (Or.inr (Or.inl ho))
      rw [(decode_ok_iff.1 hi).2.1]
      exact i.opcode_assigned
  · exact iff_of_true (fun i hi => hr (decode_ok_iff.1 hi).1) (Or.inl hr)

/-! ## Operands (R92) -/

/-- Settles O11: the fields A and D of a legal word are those of its command. -/
theorem operandsAsTheyStand : Obligations.OperandsAsTheyStand := by
  intro w
  have h8 : w.a.extractLsb' 0 8 = w.extractLsb' 32 8 := w.extractLsb'_a (by decide)
  have h1 : w.a.extractLsb' 0 1 = w.extractLsb' 32 1 := w.extractLsb'_a (by decide)
  have symbol {x : Sym} (ha : w.a = x.setWidth 16) : x = w.extractLsb' 32 8 :=
    ((high_byte_zero_iff w.a x).1 ha).2.symm.trans h8
  refine ⟨fun x h => ?_, fun x d h => ?_, fun x h => ?_, fun b h => ?_, fun a h => ?_⟩ <;>
    obtain ⟨-, -, ha, hd⟩ := decode_ok_iff.1 h
  · exact symbol ha
  · exact ⟨symbol ha, hd.symm⟩
  · exact symbol ha
  · exact ((high_bits_zero_iff w.a b).1 ha).2.symm.trans h1
  · exact ha.symm

/-- A word for which the decoder gives a reason has no command. -/
theorem illegal_of_decode_error {w : CmdWord} {e : IllegalWord} (h : decode w = .error e) (i : Instr) :
    decode w ≠ .ok i := by
  simp [h]

/-- Settles O7: the decoder run on each word; each illegal word with the reason of R94. -/
theorem workedEncodingsDecode : Obligations.WorkedEncodingsDecode :=
  ⟨rfl, rfl, rfl, rfl, rfl, rfl, rfl,
    illegal_of_decode_error (e := .unusedOperandBit) rfl, illegal_of_decode_error (e := .unusedOperandBit) rfl,
    illegal_of_decode_error (e := .reservedSet) rfl, illegal_of_decode_error (e := .unusedOperandBit) rfl,
    illegal_of_decode_error (e := .unassignedOpcode) rfl⟩

end Sys2Proof
end

section
/-! PROOFS. The one response of a command (spec/30_encoding.md R100, 60_exceptions.md R260): its status and its data. -/

namespace Sys2Proof.Machine

/-- The DATA of a command that completes: the word read for a RD, 0 for any other (R100). -/
theorem ownReply_done_data {i : Instr} {s s' : State} {beats : List Event} {d : TblWord}
    (h : ownReply i s = .done s' beats d) :
    (∃ a, i = .rd a ∧ s.tblRead a = some d) ∨ ((∀ a, i ≠ .rd a) ∧ d = 0) := by
  cases i with
  | rd a => exact Or.inl ⟨a, rfl, (rdReply_done h).1⟩
  | sym x => obtain ⟨-, -, -, rfl⟩ := symReply_done h; simp
  | enc x => obtain ⟨-, -, -, rfl⟩ := encReply_done h; simp
  | dec b => obtain ⟨rfl, -⟩ := decReply_done h; simp
  | _ => cases h; simp

/-- The response `rsp st d` of a decoded command, by its status (R260). -/
inductive Response (i : Instr) (s : State) : BitVec 8 → TblWord → Prop
  | read {a d} : i = .rd a → s.tblRead a = some d → Response i s 0x00 d
  | done : (∀ a, i ≠ .rd a) → Response i s 0x00 0
  | seq : Response i s 0x02 (opInfo i)
  | freqOvf {x} : i = .sym x → s.freqAt x = 0xFFFFFFFF → Response i s 0x03 (symInfo x)
  | noSym {x} : i = .enc x → s.clenAt x = 0 → Response i s 0x04 (symInfo x)
  | malformed {b} : i = .dec b → Response i s 0x05 (bitInfo b)
  | badAddr {a} : i = .rd a → s.tblRead a = none → Response i s 0x06 (addrInfo a)
  | halted : s.fault ≠ 0 → Response i s 0x07 0

/-- A command's own fault answers with the cause's code and info word. -/
theorem Response.of_raise {i : Instr} {s : State} {c : Cause} {v : TblWord} (h : ownReply i s = .raise c v) :
    Response i s c.code v := by
  obtain ⟨x, hi, rfl, hx, rfl⟩ | ⟨x, hi, rfl, hx, rfl⟩ | ⟨b, hi, rfl, rfl⟩ | ⟨a, hi, rfl, ha, rfl⟩ := own_raise h
  · exact .freqOvf hi hx
  · exact .noSym hi hx
  · exact .malformed hi
  · exact .badAddr hi ha

theorem Response.of_done {i : Instr} {s s' : State} {beats : List Event} {d : TblWord}
    (h : ownReply i s = .done s' beats d) : Response i s 0x00 d := by
  obtain ⟨a, hi, ha⟩ | ⟨hi, rfl⟩ := ownReply_done_data h
  · exact .read hi ha
  · exact .done hi

/-- A command appends its data beats, none with a fault, and then its response. -/
theorem exec_response {i : Instr} {s t : State} (h : exec i s = .next t) :
    ∃ beats st d, t.trace = s.trace ++ (beats ++ [.rsp st d]) ∧ (∀ e ∈ beats, e.isBeat = true) ∧
      (st ≠ 0x00 → beats = []) ∧ Response i s st d := by
  rcases exec_cases h with ⟨hf, -, rfl⟩ | ⟨-, -, rfl⟩ | ⟨-, c, v, hr, rfl⟩ | ⟨-, s', beats, d, hr, rfl⟩
  · exact ⟨[], 0x07, 0, rfl, by simp, fun _ => rfl, .halted hf⟩
  · exact ⟨[], 0x02, opInfo i, s.raise_trace .seq _, by simp, fun _ => rfl, .seq⟩
  · exact ⟨[], c.code, v, s.raise_trace c v, by simp, fun _ => rfl, .of_raise hr⟩
  · obtain ⟨-, -, hbeats⟩ := ownReply_done hr
    exact ⟨beats, 0x00, d, by rw [done_trace hr, List.append_assoc], hbeats, fun h => absurd rfl h, .of_done hr⟩

/-- Settles O16: the response of a decoded command by its status; an illegal word is answered by the fault entry. -/
theorem oneResponseLast : Obligations.OneResponseLast := by
  intro s t w rest hin ht
  rw [step_command hin] at ht
  cases hw : decode w with
  | error e =>
    have hno := illegal_of_decode_error hw
    rw [takeWord_illegal hno] at ht
    cases ht
    exact ⟨[], 0x01, w.upper, State.raise_trace _ _ _, by simp, fun _ => rfl, Or.inr (Or.inl ⟨rfl, by simp, rfl⟩)⟩
  | ok i =>
    rw [takeWord_ok hw] at ht
    obtain ⟨beats, st, d, htrace, hbeats, hnone, hresp⟩ := exec_response ht
    refine ⟨beats, st, d, htrace, fun e he => Event.ne_rsp_of_isBeat (hbeats e he), hnone, ?_⟩
    cases hresp with
    | read hi ha => exact Or.inl ⟨rfl, Or.inl ⟨_, congrArg _ hi, ha⟩⟩
    | done hi => exact Or.inl ⟨rfl, Or.inr ⟨i, rfl, hi, rfl⟩⟩
    | seq =>
      have hop : w.extractLsb' 56 8 = i.opcode := (decode_ok_iff.1 hw).2.1
      iterate 2 right
      exact Or.inl ⟨rfl, ⟨i, rfl⟩, by rw [hop]; rfl⟩
    | freqOvf hi hx =>
      iterate 3 right
      exact Or.inl ⟨rfl, _, congrArg _ hi, hx, rfl⟩
    | noSym hi hx =>
      iterate 4 right
      exact Or.inl ⟨rfl, _, congrArg _ hi, hx, rfl⟩
    | malformed hi =>
      iterate 5 right
      exact Or.inl ⟨rfl, _, congrArg _ hi, rfl⟩
    | badAddr hi ha =>
      iterate 6 right
      exact Or.inl ⟨rfl, _, congrArg _ hi, ha, rfl⟩
    | halted hf =>
      iterate 7 right
      exact ⟨rfl, hf, rfl⟩

end Sys2Proof.Machine
end

section
/-! PROOFS. The ports and the assembler (spec/30_encoding.md R98 to R107). -/

namespace Sys2Proof.Machine

/-- Settles O59: the beats, the two parts of the response word, and the fault line. -/
theorem portBeats : Obligations.PortBeats :=
  ⟨fun _ => rfl, rfl, fun _ => rfl, rfl,
    fun st d => ⟨st ++ d, rfl, BitVec.extractLsb'_append_eq_left, BitVec.extractLsb'_append_eq_right⟩,
    State.halted_iff⟩

/-- A line is refused exactly when an operand is outside its range (R103). -/
theorem assembleLine_eq_none_iff (l : AsmLine) : assembleLine l = none ↔ l.wellFormed = false := by
  unfold assembleLine
  cases l.wellFormed <;> simp

/-- Settles O60: the ranges of the operands, and the expansions. -/
theorem assemblerLines : Obligations.AssemblerLines := by
  simp only [Obligations.AssemblerLines, assembleLine_eq_none_iff, AsmLine.wellFormed, symInRange, countInRange,
    bitInRange, addrInRange, Bool.and_eq_false_iff, decide_eq_false_iff_not, Nat.not_le, implies_true, true_and]
  exact ⟨rfl, fun _ => List.map_map, fun _ => List.map_map, fun _ => List.map_map⟩

end Sys2Proof.Machine
end

section
/-! PROOFS. Run control and counting (spec/40_control_frequency.md R131 to R134): NOP, CLR and the independence of runs, one
counter set by SYM or LDF, and a whole input counted. -/

namespace Sys2Proof.Machine

/-! ## NOP, CLR and the independence of runs -/

/-- Settles O20: NOP passes both checks in every state, and its own rule leaves the state alone. -/
theorem nopDoesNothing : Obligations.NopDoesNothing := fun _ => exec_done (beats := []) ⟨Or.inr rfl, rfl⟩ rfl

/-- Settles O21: the reset state around the inputs and the trace. -/
theorem clrStartsANewRun : Obligations.ClrStartsANewRun := exec_clr

/-- After CLR nothing is left of the state but its inputs and trace, so a run that begins with CLR goes as from any other
state that has them (R132). -/
theorem runAll_clr_eq (is : List Instr) (s u : State) :
    runAll (.clr :: is) u = runAll (.clr :: is) (s.ported u.inputs u.trace) := by
  rw [runAll_cons_next (exec_clr u), runAll_cons_next (exec_clr (s.ported u.inputs u.trace))]
  rfl

/-- Settles O19: the run from `u` is the run from `s` with the inputs and the trace of `u`, which no command reads. -/
theorem runsShareNoState : Obligations.RunsShareNoState := by
  intro is s u t h
  have hrun := runAll_ported h u.inputs u.trace
  rw [← runAll_clr_eq] at hrun
  exact ⟨_, hrun, by simp [eventsSince, State.ported], rfl⟩

/-! ## One counter -/

/-- A command that sets one counter: the counter, the other counters, and the frame. SYM and LDF complete so. -/
theorem exec_setFreq {s : State} {i : Instr} {x : Sym} {f : Freq} (hp : passes i s)
    (hr : ownReply i s = .done (s.setFreq x f) [] 0) :
    ∃ t, exec i s = .next t ∧ t.freqAt x = f ∧ (∀ y, y ≠ x → t.freqAt y = s.freqAt y) ∧
      t = { s with freq := t.freq, trace := s.trace ++ [.rsp 0x00 0] } := by
  refine ⟨_, exec_done hp hr, ?_, fun y hy => ?_, rfl⟩
  · exact (s.freqAt_setFreq x x f).trans (if_pos rfl)
  · exact (s.freqAt_setFreq x y f).trans (if_neg hy.symm)

/-- A counter that is not full holds its successor (R6, R133). -/
theorem toNat_freq_succ {f : Freq} (h : f ≠ Config.freqMax) : (f + 1).toNat = f.toNat + 1 := by
  have hne : f.toNat ≠ 0xFFFFFFFF := fun e => h (BitVec.toNat_inj.1 e)
  bv_omega

/-- SYM on a counter that is not full (R133). -/
theorem exec_sym_counts {s : State} {x : Sym} (hf : s.fault = 0) (hp : s.phase = .count)
    (hx : s.freqAt x ≠ Config.freqMax) :
    ∃ t, exec (.sym x) s = .next t ∧ (t.freqAt x).toNat = (s.freqAt x).toNat + 1 ∧
      (∀ y, y ≠ x → t.freqAt y = s.freqAt y) ∧
      t = { s with freq := t.freq, trace := s.trace ++ [.rsp 0x00 0] } := by
  obtain ⟨t, ht, hself, hframe⟩ :=
    exec_setFreq (i := .sym x) (passes_intro hf (by simp [legalIn, hp])) (if_neg hx)
  exact ⟨t, ht, by rw [hself, toNat_freq_succ hx], hframe⟩

/-- SYM on a full counter (R133, R263). -/
theorem exec_sym_full {s : State} {x : Sym} (hf : s.fault = 0) (hp : s.phase = .count)
    (hx : s.freqAt x = Config.freqMax) : exec (.sym x) s = .next (s.firstFault 0x03 (x.setWidth 32)) := by
  have hpasses : passes (.sym x) s := passes_intro hf (by simp [legalIn, hp])
  rw [exec_raise hpasses (c := .freqOvf) (v := symInfo x) (if_pos hx), State.raise_first hf]
  rfl

/-- Settles O22: a counter with room, a full counter, another phase. -/
theorem symCountsOne : Obligations.SymCountsOne := fun _ _ hf =>
  ⟨exec_sym_counts hf, exec_sym_full hf, fun hp => exec_seq hf (legalIn_count.2 hp)⟩

/-- Settles O23: LDF sets its counter in P_COUNT, and is out of sequence in another phase. -/
theorem ldfLoadsACount : Obligations.LdfLoadsACount := fun _ _ _ hf =>
  ⟨fun hp => exec_setFreq (passes_intro hf (by simp [legalIn, hp])) rfl,
    fun hp => exec_seq hf (legalIn_count.2 hp)⟩

/-! ## Counting an input -/

/-- FREQ is determined by its counters. -/
theorem freq_ext {s t : State} (h : ∀ x, s.freqAt x = t.freqAt x) : s.freq = t.freq := by
  apply Table.ext_get?
  intro i hi
  have hx : (BitVec.ofNat 8 i).toNat = i := by rw [BitVec.toNat_ofNat]; omega
  simpa [State.freqAt, Table.get?_of_lt _ hi, hx] using h (BitVec.ofNat 8 i)

/-- One SYM for each symbol of an input that fits completes and changes nothing but FREQ (R133). -/
theorem runAll_sym (xs : List Sym) : ∀ {s : State}, s.fault = 0 → s.phase = .count →
    (∀ x, (s.freqAt x).toNat + xs.count x ≤ 2 ^ 32 - 1) →
    ∃ t, runAll (xs.map .sym) s = .next t ∧
      t = { s with freq := t.freq, trace := s.trace ++ List.replicate xs.length (.rsp 0x00 0) } := by
  induction xs with
  | nil => intro s _ _ _; exact ⟨s, rfl, by simp⟩
  | cons x xs ih =>
    intro s hf hp hfits
    have hx : s.freqAt x ≠ Config.freqMax := by
      intro hfull
      have := hfits x
      simp [hfull, Config.freqMax] at this
    obtain ⟨t, ht, hself, hother, hframe⟩ := exec_sym_counts hf hp hx
    have htfits : ∀ y, (t.freqAt y).toNat + xs.count y ≤ 2 ^ 32 - 1 := by
      intro y
      have := hfits y
      by_cases hy : y = x
      · subst hy
        rw [List.count_cons_self] at this
        omega
      · rw [hother y hy]
        rwa [List.count_cons_of_ne (Ne.symm hy)] at this
    obtain ⟨u, hu, huframe⟩ := ih (by rw [hframe]; exact hf) (by rw [hframe]; exact hp) htfits
    refine ⟨u, (runAll_cons_next ht).trans hu, ?_⟩
    rw [huframe, hframe]
    simp [List.replicate_succ]

/-- Settles O25: the counters after a run are fixed by the numbers of occurrences, which a permutation keeps. -/
theorem countingScan : Obligations.CountingScan := by
  intro s xs hf hp hfits
  have counted : ∀ zs : List Sym, zs.Perm xs → ∃ t, runAll (zs.map .sym) s = .next t ∧
      (∀ x, (t.freqAt x).toNat = (s.freqAt x).toNat + xs.count x) ∧
      t = { s with freq := t.freq, trace := s.trace ++ List.replicate xs.length (.rsp 0x00 0) } := by
    intro zs hperm
    obtain ⟨t, ht, hframe⟩ := runAll_sym zs hf hp fun x => hperm.count_eq x ▸ hfits x
    have hcounts := (runAll_sym_counts zs s t hp ht (by rw [hframe]; exact hf)).2
    exact ⟨t, ht, fun x => hperm.count_eq x ▸ hcounts x, hperm.length_eq ▸ hframe⟩
  obtain ⟨t, ht, hcounts, hframe⟩ := counted xs (List.Perm.refl xs)
  refine ⟨t, ht, hcounts, hframe, fun ys hperm => ?_⟩
  obtain ⟨u, hu, hucounts, huframe⟩ := counted ys hperm
  have hfreq : u.freq = t.freq :=
    freq_ext fun x => BitVec.toNat_inj.1 ((hucounts x).trans (hcounts x).symm)
  rw [hu, huframe, hframe, hfreq]

end Sys2Proof.Machine
end

section
/-! PROOFS. Forest and tree construction (spec/41_tree_build.md R150 to R158): what FOREST leaves, one MERGE, TREE as the
MERGE commands it stands for, and the trees of no symbol, of one and of more. -/

namespace Sys2Proof.Machine

/-! ## FOREST -/

/-- FOREST, where it is legal (R150). -/
theorem exec_forest {s : State} (hf : s.fault = 0) (hp : s.phase = .count) :
    exec .forest s = .next (s.loadForest.emit [.rsp 0x00 0]) :=
  exec_done (beats := []) (passes_intro hf (by simp [legalIn, hp])) rfl

/-- A state is its predecessor but for what FOREST writes (10_state.md R41). -/
theorem ForestFrame.eq {s t : State} (h : ForestFrame s t) :
    t = { s with node := t.node, nnodes := t.nnodes, ndist := t.ndist, inq := t.inq, pqlen := t.pqlen,
                 phase := t.phase } := by
  rw [← h.freq, ← h.root, ← h.cur, ← h.clen, ← h.cbits, ← h.fault, ← h.finfo, ← h.inputs, ← h.trace]

theorem State.presentSyms_length (s : State) : s.presentSyms.length = s.present.length := by
  rw [s.presentSyms_eq, List.length_map]

theorem State.mem_presentSyms {s : State} {x : Sym} : x ∈ s.presentSyms ↔ s.isPresent x := by
  rw [s.presentSyms_eq, List.mem_map]
  constructor
  · rintro ⟨p, hp, rfl⟩
    exact (State.mem_present.1 hp).2
  · exact fun hx => ⟨(x, s.freqAt x), State.mem_present.2 ⟨rfl, hx⟩, rfl⟩

/-- Record `j` after FOREST is the leaf of the `j`-th present symbol, with its count (R150). -/
theorem State.loadForest_leaf {s : State} {j : Nat} {x : Sym} (h : s.presentSyms[j]? = some x) :
    s.loadForest.nd j = leafNode x (s.freqAt x) ∧ s.loadForest.inQ j = true := by
  rw [s.presentSyms_eq, List.getElem?_map, Option.map_eq_some_iff] at h
  obtain ⟨p, hp, rfl⟩ := h
  obtain ⟨hj, rfl⟩ := List.getElem?_eq_some_iff.1 hp
  have hcount := (State.mem_present.1 (List.getElem_mem hj)).1
  rw [s.loadForest_nd, dif_pos hj, s.loadForest_inQ, if_pos hj, hcount]
  exact ⟨rfl, rfl⟩

/-- Settles O26: the leaves by the laws of the loop of FOREST, the rest by its frame. -/
theorem forestLoadsOneLeafPerSymbol : Obligations.ForestLoadsOneLeafPerSymbol := by
  refine fun s hf => ⟨fun hp => ?_, fun hp => exec_seq hf (Phase.beq_false hp)⟩
  obtain ⟨hnodes, hdist, hlen⟩ := s.loadForest_counts
  rw [s.presentSyms_length]
  refine ⟨_, exec_forest hf hp, hnodes, hdist, hlen, fun j x hx => s.loadForest_leaf hx, fun j hj => ⟨?_, ?_⟩, ?_⟩
  · exact (s.loadForest_nd j).trans (dif_neg (by omega))
  · exact (s.loadForest_inQ j).trans (if_neg (by omega))
  · exact congrArg (·.emit [.rsp 0x00 0]) s.loadForest_frame.eq

/-! ## MERGE -/

/-- A state is its predecessor but for what MERGE and TREE write (10_state.md R41). -/
theorem TreeFrame.eq {s t : State} (h : TreeFrame s t) :
    t = { s with node := t.node, nnodes := t.nnodes, inq := t.inq, pqlen := t.pqlen, root := t.root, cur := t.cur,
                 phase := t.phase } := by
  rw [← h.freq, ← h.ndist, ← h.clen, ← h.cbits, ← h.fault, ← h.finfo, ← h.inputs, ← h.trace]

/-- With three trees or more a merge step only joins the two least (R152). -/
theorem State.mstep_of_three {s : State} (h : 3 ≤ s.pqlen.toNat) : s.mstep = s.mergeTwo := by
  have hlen := pqlen_pred (s := s) (by omega)
  rw [State.mstep, if_pos (by omega), State.finaliseIfDone, if_neg (by omega)]

/-- With two trees a merge step joins them and finalises (R152). -/
theorem State.mstep_of_two {s : State} (h : s.pqlen.toNat = 2) : s.mstep = s.mergeTwo.finalise := by
  have hlen := pqlen_pred (s := s) (by omega)
  rw [State.mstep, if_pos (by omega), State.finaliseIfDone, if_pos (by omega)]

/-- With one tree or none a merge step only finalises (R152). -/
theorem State.mstep_of_one {s : State} (h : s.pqlen.toNat ≤ 1) : s.mstep = s.finalise := by
  rw [State.mstep, if_neg (by omega), State.finaliseIfDone, if_pos h]

/-- The arena after a merge step is the merged one: the finalisation writes no record and allocates none (R152). -/
theorem State.mstep_arena {s : State} (h : 2 ≤ s.pqlen.toNat) :
    s.mstep.node = s.mergeTwo.node ∧ s.mstep.nnodes = s.mergeTwo.nnodes := by
  rcases Nat.lt_or_ge s.pqlen.toNat 3 with h3 | h3
  · rw [State.mstep_of_two (by omega)]; exact ⟨rfl, rfl⟩
  · rw [State.mstep_of_three h3]; exact ⟨rfl, rfl⟩

/-- A merge allocates one record (R152). -/
theorem State.mergeTwo_nnodes {s : State} (h : s.nnodes.toNat < 511) :
    s.mergeTwo.nnodes.toNat = s.nnodes.toNat + 1 := by
  have hnext : s.mergeTwo.nnodes = s.nnodes + 1 := nextNode_of_lt h
  bv_omega

/-- A finished tree leaves no member in the priority structure (46_properties.md R240). -/
theorem TreeOk.inQ_false {s : State} (h : TreeOk s) (i : Nat) : s.inQ i = false := by
  rw [inQ_congr h.inq, inQ_reset]

/-- The merge that leaves one tree: its new root, the last record, is the least member (R152). -/
theorem ForestOk.pqmin_mergeTwo {s : State} (h : ForestOk s) (h2 : s.pqlen.toNat = 2) (hk : s.nnodes.toNat < 511) :
    s.mergeTwo.pqmin = s.nnodes := by
  obtain ⟨hforest, hlen⟩ := h.mergeTwo (by omega)
  have hnodes := State.mergeTwo_nnodes hk
  rcases hforest.last (by omega) with ⟨-, hzero, -⟩ | ⟨-, -, hroot, -⟩
  · rw [hzero] at hnodes
    simp at hnodes
  · exact BitVec.toNat_inj.1 (by omega)

/-- A merge changes nothing but the forest (R152). -/
theorem State.mergeTwo_frame_eq (s : State) :
    s.mergeTwo = { s with node := s.mergeTwo.node, nnodes := s.mergeTwo.nnodes, inq := s.mergeTwo.inq,
                          pqlen := s.mergeTwo.pqlen } := by
  have hframe := s.mergeTwo_frame.eq
  rwa [s.mergeTwo_root, s.mergeTwo_cur, s.mergeTwo_phase] at hframe

/-- A finalised state beside one it shares the frame with: ROOT and CUR are the last tree, and nothing but the forest
changes (R152). -/
theorem State.finalise_eq_of_frame {s t : State} (h : TreeFrame s t) :
    t.finalise = { s with node := t.node, nnodes := t.nnodes, inq := t.finalise.inq, pqlen := 0, root := t.pqmin,
                          cur := t.pqmin, phase := .tree } :=
  (h.trans t.finalise_frame).eq

/-- Settles O28: a merge step reads as the forest with its two least trees joined, finalised where one tree is left. -/
theorem mergeJoinsTheTwoLeast : Obligations.MergeJoinsTheTwoLeast := by
  refine fun s hinv hf => ⟨fun hp h2 => ?_, fun hp h1 => ?_, fun hp => exec_seq hf (Phase.beq_false hp)⟩
  · have hforest := (hinv.forestOk hp).1
    obtain ⟨a, b, hleast, hnext, ha, hb, hk, hsum, -, hnd, hinq⟩ := hforest.mergeTwo_reads h2
    obtain ⟨hnode, hnnodes⟩ := State.mstep_arena h2
    have hread (i : Nat) : (s.mstep.emit [.rsp 0x00 0]).nd i = s.mergeTwo.nd i := nd_congr hnode i
    have hparent : (s.mstep.emit [.rsp 0x00 0]).nd s.nnodes.toNat
        = joinNode ((s.nd a.toNat).cnt + (s.nd b.toNat).cnt) a b := by
      rw [hread, hnd, if_pos rfl]
    refine ⟨_, a.toNat, b.toNat, exec_merge hf hp, hleast, hnext, congrArg Node.leaf hparent,
      congrArg Node.sym hparent, (congrArg (·.cnt.toNat) hparent).trans hsum, congrArg (·.left.toNat) hparent,
      congrArg (·.right.toNat) hparent, congrArg Node.parent hparent, ?_, ?_, fun i hia hib hik => ?_,
      (congrArg BitVec.toNat hnnodes).trans (State.mergeTwo_nnodes hk), fun h3 => ?_, fun h2' => ?_⟩
    · rw [hread, hnd, if_neg (by omega), if_pos (Or.inl rfl)]
    · rw [hread, hnd, if_neg (by omega), if_pos (Or.inr rfl)]
    · rw [hread, hnd, if_neg hik, if_neg (by omega)]
    · rw [State.mstep_of_three h3]
      exact ⟨hinq, pqlen_pred h2, congrArg (·.emit [.rsp 0x00 0]) s.mergeTwo_frame_eq⟩
    · have hlast := State.finalise_eq_of_frame s.mergeTwo_frame
      rw [hforest.pqmin_mergeTwo h2' hk] at hlast
      have hlen := pqlen_pred h2
      rw [State.mstep_of_two h2']
      exact ⟨((hforest.mergeTwo h2).1.finalise (by omega)).inQ_false,
        congrArg (·.emit [.rsp 0x00 0]) hlast⟩
  · have hforest := (hinv.forestOk hp).1
    have hmerge := exec_merge hf hp
    rw [State.mstep_of_one h1] at hmerge
    refine ⟨_, hmerge, (hforest.finalise h1).inQ_false, State.pqmin_eq_nil.2,
      fun i hi => ?_, congrArg (·.emit [.rsp 0x00 0]) (State.finalise_eq_of_frame (TreeFrame.refl s))⟩
    rcases hforest.last h1 with ⟨-, -, hnil⟩ | ⟨-, -, -, honly⟩
    · simp [State.pqmin_eq_nil.1 hnil i] at hi
    · exact ((honly i).1 hi).symm

/-! ## TREE -/

/-- The loop of TREE is given more steps than any PQLEN asks for (R158). -/
theorem pqlen_le_nodeMax (s : State) : s.pqlen.toNat ≤ Config.nodeMax := by
  have := s.pqlen.isLt
  simp only [Config.nodeMax]
  omega

/-- TREE, where it is legal (R154). -/
theorem exec_tree {s : State} (hf : s.fault = 0) (hp : s.phase = .forest) :
    exec .tree s = .next ((mergeLoop Config.nodeMax s).emit [.rsp 0x00 0]) :=
  exec_done (beats := []) (passes_intro hf (by simp [legalIn, hp])) rfl

/-- Fewer MERGE commands than max(PQLEN - 1, 1) leave P_FOREST, each lowering PQLEN by one (R158). -/
theorem runAll_merge_few (m : Nat) : ∀ {s : State}, s.fault = 0 → s.phase = .forest →
    m < max (s.pqlen.toNat - 1) 1 →
    ∃ u, runAll (List.replicate m .merge) s = .next u ∧ u.phase = .forest ∧ u.pqlen.toNat + m = s.pqlen.toNat := by
  induction m with
  | zero => exact fun {s} _ hp _ => ⟨s, rfl, hp, rfl⟩
  | succ m ih =>
    intro s hf hp hm
    rcases s.mstep_phase with ⟨hlast, -, -⟩ | ⟨-, hphase, hlen⟩
    · omega
    · obtain ⟨u, hu, hup, hulen⟩ := ih (s := s.mstep.emit [.rsp 0x00 0]) (s.mstep_frame.fault.trans hf)
        (hphase.trans hp) (by rw [State.emit_pqlen]; omega)
      rw [State.emit_pqlen] at hulen
      exact ⟨u, by rw [List.replicate_succ, runAll_cons_next (exec_merge hf hp), hu], hup, by omega⟩

/-- A forest has no more trees than leaves (R156). -/
theorem ForestOk.pqlen_le {s : State} (h : ForestOk s) : s.pqlen.toNat ≤ 256 := by
  have hnodes := h.nodes
  have hle := h.arena.dist_le_nodes
  have h256 := h.arena.dist_le_256
  omega

/-- Settles O29: the loop of TREE and the MERGE commands it stands for leave the same tables; only the responses differ. -/
theorem treeIsMergeToTheEnd : Obligations.TreeIsMergeToTheEnd := by
  refine fun s hinv hf => ⟨fun hp => ⟨?_, fun m => runAll_merge_few m hf hp, ?_⟩,
    fun hp => exec_seq hf (Phase.beq_false hp)⟩
  · have hlen := (hinv.forestOk hp).1.pqlen_le
    omega
  · have hfuel := pqlen_le_nodeMax s
    refine ⟨_, _, exec_tree hf hp, mergeLoop_runAll Config.nodeMax hfuel (by decide) hf hp,
      mergeLoop_phase hfuel (by decide), ?_⟩
    have hframe := mergeLoop_frame Config.nodeMax s
    rw [← hframe.inputs, ← hframe.trace]
    rfl

/-! ## FOREST, then TREE -/

/-- FOREST and TREE from P_COUNT finish the tree without fault, with CUR at ROOT, on the counts they started from
(R155). -/
theorem Inv.runAll_forest_tree {s : State} (h : Inv s) (hf : s.fault = 0) (hp : s.phase = .count) :
    ∃ t, Machine.runAll [.forest, .tree] s = .next t ∧ t.phase = .tree ∧ t.fault = 0 ∧ t.freq = s.freq ∧
      t.cur = t.root ∧ TreeOk t := by
  have hforest := exec_forest hf hp
  have hframe := s.loadForest_frame
  generalize hu : s.loadForest.emit [.rsp 0x00 0] = u at hforest
  have hup : u.phase = .forest := by rw [← hu]; rfl
  have huf : u.fault = 0 := by rw [← hu]; exact hframe.fault.trans hf
  have hufreq : u.freq = s.freq := by rw [← hu]; exact hframe.freq
  have htree := exec_tree huf hup
  have hphase := mergeLoop_phase (pqlen_le_nodeMax u) (by decide)
  have hloop := mergeLoop_frame Config.nodeMax u
  refine ⟨_, (runAll_cons_next hforest).trans (runAll_one htree), hphase, hloop.fault.trans huf,
    hloop.freq.trans hufreq, mergeLoop_cur hphase (by rw [hup]; decide), ?_⟩
  exact (((h.exec hforest).exec htree).treeOk hphase).1

/-- NDIST of a finished tree counts the present symbols of a state with the same counters (10_state.md R24). -/
theorem TreeOk.ndist_eq {s t : State} (h : TreeOk t) (hfreq : t.freq = s.freq) :
    t.ndist.toNat = s.presentSyms.length := by
  simp only [h.arena.presentSyms_length, State.presentSyms, freqAt_congr hfreq]

/-- The tree of no symbol is absent (R155). -/
theorem TreeOk.absent_status {t : State} (h : TreeOk t) (hp : t.phase = .tree) (hnone : t.ndist.toNat = 0) :
    t.root = Config.nil ∧ t.nnodes = 0 ∧ t.noTree = true ∧ t.single = false := by
  obtain ⟨hnodes, hroot⟩ := h.absent (BitVec.toNat_inj.1 hnone)
  refine ⟨hroot, hnodes, t.noTree_iff.2 ⟨Or.inl hp, hroot⟩, ?_⟩
  rw [← Bool.not_eq_true, t.single_iff]
  exact fun hsingle => hsingle.1 hroot

/-- The tree of `n` symbols, one or more, has 2n - 1 nodes and the last of them as its root, a leaf only where n = 1
(R155, R156). -/
theorem TreeOk.present_status {t : State} (h : TreeOk t) (hsome : t.ndist.toNat ≠ 0) :
    t.nnodes.toNat = 2 * t.ndist.toNat - 1 ∧ t.root.toNat = 2 * t.ndist.toNat - 2 ∧ t.noTree = false ∧
      t.single = (t.nd t.root.toNat).leaf ∧ ((t.nd t.root.toNat).leaf = true ↔ t.ndist.toNat = 1) := by
  have hdist : t.ndist ≠ 0 := fun e => hsome (congrArg BitVec.toNat e)
  have hnil : t.root ≠ Config.nil := fun e => hdist (h.root_nil_iff.1 e)
  obtain ⟨hnodes, hroot, -, -⟩ := h.present hdist
  refine ⟨by omega, by omega, ?_, Bool.eq_iff_iff.2 (t.single_iff.trans (and_iff_right hnil)), h.root_leaf_iff hdist⟩
  rw [← Bool.not_eq_true, t.noTree_iff]
  exact fun hno => hnil hno.2

/-- A leaf without a parent is as FOREST wrote it (R150). -/
theorem ArenaOk.eq_leafNode {t : State} (h : ArenaOk t) {i : Nat} (hi : i < t.ndist.toNat)
    (hparent : (t.nd i).parent = Config.nil) : t.nd i = leafNode (t.nd i).sym (t.freqAt (t.nd i).sym) := by
  obtain ⟨hleaf, hleft, hright, hcnt, -⟩ := h.leaves i hi
  calc t.nd i = ⟨(t.nd i).leaf, (t.nd i).sym, (t.nd i).cnt, (t.nd i).left, (t.nd i).right, (t.nd i).parent⟩ := rfl
    _ = leafNode (t.nd i).sym (t.freqAt (t.nd i).sym) := by rw [hleaf, hcnt, hleft, hright, hparent, leafNode]

/-- The tree of the one symbol `x` is the leaf of `x` (R155). -/
theorem TreeOk.single_leaf {s t : State} (h : TreeOk t) (hfreq : t.freq = s.freq) {x : Sym}
    (hone : s.presentSyms = [x]) : t.root = 0 ∧ t.nd 0 = leafNode x (s.freqAt x) := by
  have hcount : t.ndist.toNat = 1 := by rw [h.ndist_eq hfreq, hone]; rfl
  have hroot : t.root.toNat = 0 := by rw [(h.present_status (by omega)).2.1, hcount]
  obtain ⟨hnodes, -, hparent, -⟩ := h.present fun e => by simp [e] at hcount
  have hleaf := h.arena.eq_leafNode (i := 0) (by omega) ((hparent 0 (by omega)).2 hroot.symm)
  have hsym : (t.nd 0).sym = x := by
    obtain ⟨-, -, -, -, hpresent⟩ := h.arena.leaves 0 (by omega)
    rw [State.isPresent, freqAt_congr hfreq] at hpresent
    have hmem : (t.nd 0).sym ∈ s.presentSyms := State.mem_presentSyms.2 hpresent
    rwa [hone, List.mem_singleton] at hmem
  rw [hsym, freqAt_congr hfreq] at hleaf
  exact ⟨BitVec.toNat_inj.1 hroot, hleaf⟩

/-- Settles O30: the finished tree of as many leaves as there are present symbols, for none, one and more. -/
theorem treeEdgeCases : Obligations.TreeEdgeCases := by
  intro s hinv hf hp
  obtain ⟨t, hrun, htp, htf, hfreq, hcur, htree⟩ := hinv.runAll_forest_tree hf hp
  have hdist := htree.ndist_eq hfreq
  refine ⟨t, hrun, htp, htf, hdist, fun hnone => ?_, fun x hone => ?_, fun hmany => ?_⟩
  · obtain ⟨hroot, hstatus⟩ := htree.absent_status htp (by rw [hdist, hnone]; rfl)
    exact ⟨hroot, hcur.trans hroot, hstatus⟩
  · have hcount : t.ndist.toNat = 1 := by rw [hdist, hone]; rfl
    obtain ⟨hroot, hleaf⟩ := htree.single_leaf hfreq hone
    obtain ⟨hnodes, -, hnoTree, hsingle, hleafRoot⟩ := htree.present_status (by omega)
    refine ⟨hroot, hcur.trans hroot, BitVec.toNat_inj.1 ?_, hsingle.trans (hleafRoot.2 hcount), hnoTree, hleaf⟩
    rw [hnodes, hcount]
    rfl
  · obtain ⟨hnodes, hroot, hnoTree, hsingle, hleafRoot⟩ := htree.present_status (by omega)
    have hinternal : (t.nd t.root.toNat).leaf = false := by
      rw [← Bool.not_eq_true, hleafRoot]
      omega
    rw [hdist] at hnodes hroot
    exact ⟨hroot, hcur, hnodes, hinternal, hsingle.trans hinternal, hnoTree⟩

end Sys2Proof.Machine
end

section
/-! PROOFS. The code table (spec/42_code_table.md R180 to R184): a path grows by one bit along each edge, DERIVE records
the paths of the leaves, and the table bounds what it records. -/

namespace Sys2Proof.Machine

/-! ## Paths -/

/-- An allocated node that is no leaf is an internal one. -/
theorem ArenaOk.internal_of_leaf_false {s : State} (h : ArenaOk s) {k : Nat} (hk : k < s.nnodes.toNat)
    (hleaf : (s.nd k).leaf = false) : s.ndist.toNat ≤ k := by
  by_contra hlt
  rw [(h.leaf_iff hk).2 (by omega)] at hleaf
  exact Bool.noConfusion hleaf

/-- An edge appends its bit: 0 to a left child, 1 to a right child (R180). -/
theorem TreeOk.path_childOf {s : State} (h : TreeOk s) {k : Idx} (hd : s.ndist.toNat ≤ k.toNat)
    (hk : k.toNat < s.nnodes.toNat) {c : Code} (hc : s.path k = some c) (b : Bool) :
    s.path (s.childOf k b) = some (c ++ [b]) := by
  refine h.path_of_follow (h.nonempty hk) ?_
  rw [s.follow_append, h.follow_of_path hk hc]
  exact h.arena.follow_one hd hk b

/-- The PARENT of a node but ROOT is internal, and the bit that says which child the node is selects it there (R180). -/
theorem TreeOk.childOf_parent {s : State} (h : TreeOk s) {i : Idx} (hi : i.toNat < s.nnodes.toNat) (hne : i ≠ s.root) :
    s.ndist.toNat ≤ (s.nd i.toNat).parent.toNat ∧ (s.nd i.toNat).parent.toNat < s.nnodes.toNat ∧
      s.childOf (s.nd i.toNat).parent
        (if (s.nd (s.nd i.toNat).parent.toNat).left = i then false else true) = i := by
  obtain ⟨-, -, hparent, -⟩ := h.present (h.nonempty hi)
  rcases h.arena.parents _ hi with hnil | ⟨hd, hk, hchild⟩
  · exact absurd (BitVec.toNat_inj.1 ((hparent _ hi).1 hnil)) hne
  · refine ⟨hd, hk, ?_⟩
    by_cases hleft : (s.nd (s.nd i.toNat).parent.toNat).left = i
    · rw [if_pos hleft]
      exact hleft
    · rw [if_neg hleft]
      exact BitVec.toNat_inj.1 (hchild.resolve_left fun e => hleft (BitVec.toNat_inj.1 e))

/-- Settles O31: each edge by `path_childOf`, downwards from an internal node and upwards along PARENT. -/
theorem pathFollowsTheEdges : Obligations.PathFollowsTheEdges := by
  intro s hinv hp hroot
  have htree := hinv.finished (Phase.treeFinal_iff.2 hp)
  have hdist : s.ndist ≠ 0 := fun e => hroot (htree.root_nil_iff.2 e)
  refine ⟨htree.path_of_follow hdist rfl, fun k hk hleaf c hc => ?_, fun i hi => ?_, fun i hi hne => ?_⟩
  · have hd := htree.arena.internal_of_leaf_false hk hleaf
    exact ⟨htree.path_childOf hd hk hc false, htree.path_childOf hd hk hc true⟩
  · obtain ⟨c, hc, -⟩ := htree.path_spec hi
    exact ⟨c, hc⟩
  · obtain ⟨hd, hk, hchild⟩ := htree.childOf_parent hi hne
    obtain ⟨c, hc, -⟩ := htree.path_spec hk
    have hedge := htree.path_childOf hd hk hc
      (if (s.nd (s.nd i.toNat).parent.toNat).left = i then false else true)
    rw [hchild] at hedge
    exact ⟨c, hc, hedge⟩

/-! ## DERIVE -/

/-- The code of a root that is a leaf is "0" (R182). -/
theorem State.codeOf_root {s : State} (hleaf : (s.nd s.root.toNat).leaf = true) : s.codeOf s.root = some [false] := by
  rw [State.codeOf, s.rootIsLeaf_eq, if_pos hleaf, if_pos rfl]

/-- Under an internal root the code of a leaf is its path (R181). -/
theorem State.codeOf_eq_path {s : State} (hleaf : (s.nd s.root.toNat).leaf = false) (i : Idx) :
    s.codeOf i = s.path i := by
  rw [State.codeOf, s.rootIsLeaf_eq, hleaf]
  rfl

/-- DERIVE, where it is legal (R181). -/
theorem exec_derive {s : State} (hf : s.fault = 0) (hp : s.phase = .tree) :
    exec .derive s = .next (s.deriveCodes.emit [.rsp 0x00 0]) :=
  exec_done (beats := []) (passes_intro hf (by simp [legalIn, hp])) rfl

/-- A state is its predecessor but for what DERIVE writes (10_state.md R41). -/
theorem CodeFrame.eq {s t : State} (h : CodeFrame s t) :
    t = { s with clen := t.clen, cbits := t.cbits, phase := t.phase } := by
  rw [← h.freq, ← h.node, ← h.nnodes, ← h.ndist, ← h.inq, ← h.pqlen, ← h.root, ← h.cur, ← h.fault, ← h.finfo,
    ← h.inputs, ← h.trace]

/-- The entry that DERIVE writes for a leaf's symbol: the length and the bits of its code (R181). -/
theorem TreeOk.deriveCodes_entry {s : State} (h : TreeOk s) (hz : NoCodes s) {i : Idx}
    (hi : i.toNat < s.ndist.toNat) :
    ∃ c, s.codeOf i = some c ∧ (s.deriveCodes.clenAt (s.nd i.toNat).sym).toNat = c.length ∧
      s.deriveCodes.cbitsAt (s.nd i.toNat).sym = codeVector c := by
  obtain ⟨hframe, -⟩ := s.deriveCodes_frame
  obtain ⟨c, hc, -, hmax, hlen, hbits⟩ := (h.deriveCodes hz).2.leaves i.toNat (by rwa [hframe.ndist])
  rw [codeOf_congr hframe.node hframe.root, BitVec.ofNat_toNat, BitVec.setWidth_eq] at hc
  rw [nd_congr hframe.node] at hlen hbits
  refine ⟨c, hc, ?_, hbits⟩
  simp only [Config.maxLen] at hmax
  rw [hlen, BitVec.toNat_ofNat]
  omega

/-- DERIVE writes no entry for a symbol without a leaf (R181). -/
theorem TreeOk.deriveCodes_absent {s : State} (h : TreeOk s) (hz : NoCodes s) {x : Sym} (hx : ¬ s.isPresent x) :
    s.deriveCodes.clenAt x = s.clenAt x ∧ s.deriveCodes.cbitsAt x = s.cbitsAt x := by
  obtain ⟨hlen, hbits⟩ := (h.deriveCodes hz).2.absent x (by
    rwa [State.isPresent, freqAt_congr s.deriveCodes_frame.1.freq])
  obtain ⟨hlen', hbits'⟩ := hz.read x
  exact ⟨hlen.trans hlen'.symm, hbits.trans hbits'.symm⟩

/-- Settles O32: the entries of the leaves, whose code is "0" or the path, then what DERIVE leaves alone. -/
theorem deriveRecordsThePaths : Obligations.DeriveRecordsThePaths := by
  refine fun s hinv hf => ⟨fun hp => ?_, fun hp => exec_seq hf (Phase.beq_false hp)⟩
  obtain ⟨htree, hnone⟩ := hinv.treeOk hp
  refine ⟨_, exec_derive hf hp, fun hroot hleaf => ?_, fun _ hleaf i hi => ?_, fun x hx => ?_, ?_⟩
  · have hdist : s.ndist ≠ 0 := fun e => hroot (htree.root_nil_iff.2 e)
    obtain ⟨hone, -, hzero⟩ := htree.leaf_root hdist (s.rootIsLeaf_eq.trans hleaf)
    obtain ⟨c, hc, hlen, hbits⟩ := htree.deriveCodes_entry hnone (i := s.root) (by omega)
    obtain rfl : [false] = c := Option.some.inj ((State.codeOf_root hleaf).symm.trans hc)
    exact ⟨BitVec.toNat_inj.1 hlen, hbits.trans (by decide)⟩
  · obtain ⟨c, hc, hlen, hbits⟩ := htree.deriveCodes_entry hnone hi
    refine ⟨c, (State.codeOf_eq_path hleaf i).symm.trans hc, hlen, fun k hk => ?_⟩
    have hbit := codeVector_getLsbD c k
    rwa [decide_eq_true hk, Bool.true_and, ← hbits] at hbit
  · refine htree.deriveCodes_absent hnone fun hpresent => ?_
    obtain ⟨i, hi, hsym⟩ := htree.arena.complete x hpresent
    exact hx i hi hsym
  · exact congrArg (·.emit [.rsp 0x00 0]) s.deriveCodes_frame.1.eq

/-! ## The bounds on a code -/

/-- The code of a leaf has at most n - 1 bits among n ≥ 2 symbols, and one bit where n = 1 (R182, R184). -/
theorem TreeOk.codeOf_length {s : State} (h : TreeOk s) {i : Idx} (hi : i.toNat < s.ndist.toNat) {c : Code}
    (hc : s.codeOf i = some c) :
    (2 ≤ s.ndist.toNat → c.length ≤ s.ndist.toNat - 1) ∧ (s.ndist.toNat = 1 → c.length = 1) := by
  have hnodes : i.toNat < s.nnodes.toNat := Nat.lt_of_lt_of_le hi h.arena.dist_le_nodes
  have hdist := h.nonempty hnodes
  have hone := h.root_leaf_iff hdist
  refine ⟨fun htwo => ?_, fun hn => ?_⟩
  · have hleaf : (s.nd s.root.toNat).leaf = false := by
      rw [← Bool.not_eq_true, hone]
      omega
    obtain ⟨d, hd, -, hlen⟩ := h.path_spec hnodes
    rw [State.codeOf_eq_path hleaf, hd] at hc
    obtain rfl := Option.some.inj hc
    omega
  · have hleaf := hone.2 hn
    obtain ⟨-, -, hzero⟩ := h.leaf_root hdist (s.rootIsLeaf_eq.trans hleaf)
    have hroot : i = s.root := BitVec.toNat_inj.1 (by omega)
    rw [hroot, State.codeOf_root hleaf] at hc
    rw [← Option.some.inj hc]
    rfl

/-- After DERIVE a present symbol has an entry (R184). -/
theorem CodesOk.clenAt_ne_zero {s : State} (h : CodesOk s) (a : ArenaOk s) {x : Sym} (hx : s.isPresent x) :
    s.clenAt x ≠ 0 := by
  obtain ⟨i, hi, rfl⟩ := a.complete x hx
  exact (h.leaf_entry hi).2.1

/-- No bit is set beyond the length of a recorded code (10_state.md R30). -/
theorem codeVector_beyond {c : Code} {k : Nat} (hk : c.length ≤ k) : (codeVector c).getLsbD k = false := by
  rw [codeVector_getLsbD, List.getD_eq_default c false hk, Bool.and_false]

/-- Settles O33: the entry of a present symbol is the code of its leaf, an absent symbol has none. -/
theorem codeLengthBounds : Obligations.CodeLengthBounds := by
  intro s hinv hp x
  obtain ⟨htree, hcodes⟩ := hinv.readyOk hp
  by_cases hx : s.freqAt x = 0
  · obtain ⟨hlen, hbits⟩ := hcodes.absent x (not_not.2 hx)
    exact ⟨fun hpresent => absurd hx hpresent, fun _ => hlen, fun k _ => hbits ▸ BitVec.getLsbD_zero⟩
  · obtain ⟨i, hi, -, hc, hpos, hmax, hbits⟩ := hcodes.entry htree.arena (hcodes.clenAt_ne_zero htree.arena hx)
    have h256 := htree.arena.dist_le_256
    have hidx : (BitVec.ofNat 9 i).toNat = i := by
      rw [BitVec.toNat_ofNat]
      omega
    obtain ⟨hmany, hone⟩ := htree.codeOf_length (by rwa [hidx]) hc
    rw [codeBits_length] at hpos hmax hmany hone
    refine ⟨fun _ => ⟨hpos, hmax, hmany, hone⟩, fun habsent => absurd habsent hx, fun k hk => ?_⟩
    rw [hbits]
    exact codeVector_beyond (by rwa [codeBits_length])

end Sys2Proof.Machine
end

section
/-! PROOFS. The encoder (spec/43_encoder.md R195 to R197): ENC of a symbol with a code and of one without, ENCEND, and a
sequence of ENC that completes or halts at its first symbol without a code. -/

namespace Sys2Proof.Machine

/-! ## One command -/

/-- ENC of a symbol with a code (R195). -/
theorem exec_enc_coded {s : State} {x : Sym} (hf : s.fault = 0) (hp : s.phase = .ready) (hx : s.clenAt x ≠ 0) :
    exec (.enc x) s = .next (s.answered ((s.codeBits x).map .bit) 0) :=
  exec_done (passes_intro hf (by simp [legalIn, hp])) (if_neg hx)

/-- ENC of a symbol without a code (R195, R264). -/
theorem exec_enc_uncoded {s : State} {x : Sym} (hf : s.fault = 0) (hp : s.phase = .ready) (hx : s.clenAt x = 0) :
    exec (.enc x) s = .next (s.firstFault 0x04 (x.setWidth 32)) := by
  have hpasses : passes (.enc x) s := passes_intro hf (by simp [legalIn, hp])
  rw [exec_raise hpasses (c := .noSym) (v := symInfo x) (if_pos hx), State.raise_first hf]
  rfl

/-- The beats of a code, numbered from its first bit (R195). -/
theorem codeBits_map_bit (s : State) (x : Sym) :
    (s.codeBits x).map Event.bit = (List.range (s.clenAt x).toNat).map fun k => .bit ((s.cbitsAt x).getLsbD k) :=
  List.map_map

/-- Settles O34: a symbol with a code, a symbol without one, another phase. -/
theorem encEmitsTheCode : Obligations.EncEmitsTheCode := fun s x hf =>
  ⟨fun hp hx => codeBits_map_bit s x ▸ exec_enc_coded hf hp hx, exec_enc_uncoded hf,
    fun hp => exec_seq hf (Phase.beq_false hp)⟩

/-- Settles O36: ENCEND completes in P_READY and is out of sequence in another phase. -/
theorem encendEndsTheStream : Obligations.EncendEndsTheStream := fun _ hf =>
  ⟨fun hp => exec_done (passes_intro hf (by simp [legalIn, hp])) rfl,
    fun hp => exec_seq hf (Phase.beq_false hp)⟩

/-! ## A sequence -/

/-- An encoded stream is as long as its codes together (R197). -/
theorem encodeBits_length (s : State) (xs : List Sym) :
    (s.encodeBits xs).length = (xs.map fun x => (s.clenAt x).toNat).sum := by
  simp only [State.encodeBits, List.length_flatMap, codeBits_length]

/-- The responses of refused commands carry no bit (R268). -/
theorem bitsOf_replicate_rsp (n : Nat) (st : BitVec 8) (d : TblWord) :
    bitsOf (List.replicate n (.rsp st d)) = [] :=
  List.filterMap_replicate_of_none rfl

/-- ENC one after another past the first symbol without a code: that symbol halts the HCE, which refuses the rest
(R197, R268). -/
theorem runAll_enc_uncoded {s : State} {xs : List Sym} {x : Sym} (ys : List Sym) (hf : s.fault = 0)
    (hp : s.phase = .ready) (hxs : ∀ y ∈ xs, s.clenAt y ≠ 0) (hx : s.clenAt x = 0) :
    runAll ((xs ++ x :: ys).map .enc) s =
      .next (((s.emit (s.encEvents xs)).firstFault 0x04 (x.setWidth 32)).emit
        (List.replicate ys.length (.rsp 0x07 0))) := by
  rw [List.map_append, runAll_append_next (runAll_enc xs hf hp hxs), List.map_cons,
    runAll_cons_next (exec_enc_uncoded (s := s.emit (s.encEvents xs)) hf hp hx)]
  exact runAll_enc_refused ys _ (by simp [State.firstFault])

/-- Settles O35: the run over symbols with codes, then the run that meets one without, whose responses add no bit. -/
theorem encodeSequence : Obligations.EncodeSequence := by
  refine fun s xs hf hp hxs => ⟨⟨_, runAll_enc xs hf hp hxs, rfl, rfl, ?_, encodeBits_length s xs⟩,
    fun x ys hx => ⟨_, runAll_enc_uncoded ys hf hp hxs hx, ?_, rfl⟩⟩
  · rw [eventsSince_emit, bitsOf_encEvents]
  · have hevents : eventsSince s (((s.emit (s.encEvents xs)).firstFault 0x04 (x.setWidth 32)).emit
          (List.replicate ys.length (.rsp 0x07 0))) =
        s.encEvents xs ++ ([.rsp 0x04 (x.setWidth 32)] ++ List.replicate ys.length (.rsp 0x07 0)) := by
      simp [eventsSince, State.firstFault]
    have hfault : bitsOf [.rsp 0x04 (x.setWidth 32)] = [] := rfl
    rw [hevents, bitsOf_append, bitsOf_append, bitsOf_encEvents, hfault, bitsOf_replicate_rsp, List.append_nil,
      List.append_nil]

end Sys2Proof.Machine
end

section
/-! PROOFS. The decoder (spec/44_decoder.md R210 to R216): DEC by the cases of R210, a sequence of DEC beside the walk,
E_MALFORMED and the absent tree, DECEND. -/

namespace Sys2Proof.Machine

/-! ## One command -/

theorem legalIn_dec (b : BitVec 1) (p : Phase) : legalIn (.dec b) p = p.treeFinal := by cases p <;> rfl

theorem legalIn_decend (p : Phase) : legalIn .decend p = p.treeFinal := by cases p <;> rfl

theorem passes_dec {s : State} (b : BitVec 1) (hf : s.fault = 0) (hp : s.phase = .tree ∨ s.phase = .ready) :
    passes (.dec b) s :=
  passes_intro hf ((legalIn_dec b s.phase).trans (Phase.treeFinal_iff.2 hp))

/-- DEC without a tree (R213). -/
theorem decReply_absent {s : State} (hroot : s.root = Config.nil) (b : BitVec 1) :
    decReply b s = .raise .malformed (bitInfo b) := by
  rw [decReply, s.nodeAt_eq_none.2 hroot]

/-- DEC on a leaf root (R212). -/
theorem decReply_leafRoot {s : State} (hroot : s.root ≠ Config.nil) (hleaf : (s.nd s.root.toNat).leaf = true)
    (b : BitVec 1) : decReply b s = .done s [.symb (s.nd s.root.toNat).sym] 0 := by
  rw [decReply, s.nodeAt_eq_some.2 ⟨hroot, rfl⟩]
  exact if_pos hleaf

/-- DEC below an internal root (R210). -/
theorem decReply_internalRoot {s : State} (hroot : s.root ≠ Config.nil)
    (hleaf : (s.nd s.root.toNat).leaf = false) (b : BitVec 1) : decReply b s = walkReply b s := by
  rw [decReply, s.nodeAt_eq_some.2 ⟨hroot, rfl⟩]
  exact if_neg (Bool.eq_false_iff.1 hleaf)

/-- The walk where the child is absent (R216). -/
theorem walkReply_absent {s : State} {b : BitVec 1} (hchild : s.curChild b = Config.nil) :
    walkReply b s = .raise .malformed (bitInfo b) := by
  rw [walkReply, s.nodeAt_eq_none.2 hchild]

/-- The walk to a leaf (R210). -/
theorem walkReply_leaf {s : State} {b : BitVec 1} (hchild : s.curChild b ≠ Config.nil)
    (hleaf : (s.nd (s.curChild b).toNat).leaf = true) :
    walkReply b s = .done { s with cur := s.root } [.symb (s.nd (s.curChild b).toNat).sym] 0 := by
  rw [walkReply, s.nodeAt_eq_some.2 ⟨hchild, rfl⟩]
  exact if_pos hleaf

/-- The walk to an internal node (R210). -/
theorem walkReply_internal {s : State} {b : BitVec 1} (hchild : s.curChild b ≠ Config.nil)
    (hleaf : (s.nd (s.curChild b).toNat).leaf = false) :
    walkReply b s = .done { s with cur := s.curChild b } [] 0 := by
  rw [walkReply, s.nodeAt_eq_some.2 ⟨hchild, rfl⟩]
  exact if_neg (Bool.eq_false_iff.1 hleaf)

/-- A DEC whose own rule raises is the first fault of the run (R265, R266). -/
theorem exec_dec_malformed {s : State} {b : BitVec 1} (hf : s.fault = 0) (hpasses : passes (.dec b) s)
    (hreply : decReply b s = .raise .malformed (bitInfo b)) :
    exec (.dec b) s = .next (s.firstFault 0x05 (b.setWidth 32)) := by
  rw [exec_raise hpasses hreply, State.raise_first hf]
  rfl

/-- Settles O37: the cases of DEC's own rule, with the child that the bit selects as the walk reads it. -/
theorem decWalksOneBit : Obligations.DecWalksOneBit := by
  refine fun s b hf => ⟨fun hp => ?_, fun htree hready => exec_seq hf ((legal_table (.dec b) _).2 ⟨htree, hready⟩)⟩
  have hpasses := passes_dec b hf hp
  refine ⟨fun hroot => exec_dec_malformed hf hpasses (decReply_absent hroot b),
    fun hroot hleaf => exec_done hpasses (decReply_leafRoot hroot hleaf b), fun hroot hleaf => ?_⟩
  have hwalk : ownReply (.dec b) s = walkReply b s := decReply_internalRoot hroot hleaf b
  exact ⟨s.curChild b, fun hcur => State.curChild_eq hcur b,
    fun hchild => exec_dec_malformed hf hpasses (hwalk.trans (walkReply_absent hchild)),
    fun hchild hcl => exec_done hpasses (hwalk.trans (walkReply_leaf hchild hcl)),
    fun hchild hcl => exec_done hpasses (hwalk.trans (walkReply_internal hchild hcl))⟩

/-- Settles O40: DECEND completes in P_TREE and P_READY and is out of sequence in another phase. -/
theorem decendReturnsToTheRoot : Obligations.DecendReturnsToTheRoot := fun s hf =>
  ⟨fun hp => exec_done (passes_intro hf ((legalIn_decend s.phase).trans (Phase.treeFinal_iff.2 hp))) rfl,
    fun htree hready => exec_seq hf ((legal_table .decend _).2 ⟨htree, hready⟩)⟩

/-! ## A sequence -/

/-- A run of DEC on a present tree: what it emits and what it changes (R215). -/
theorem Inv.runAll_dec_walk {s : State} (hinv : Inv s) (hf : s.fault = 0) (hp : s.phase.treeFinal = true)
    (hroot : s.root ≠ Config.nil) (bs : List Bool) :
    ∃ t, Machine.runAll (decCommands bs) s = .next t ∧ symbolsOf (eventsSince s t) = (s.decodeBits s.cur bs).1 ∧
      bitsOf (eventsSince s t) = [] ∧ t = { s with cur := (s.decodeBits s.cur bs).2, trace := t.trace } := by
  obtain ⟨es, hrun, hsyms, hbits⟩ := runAll_dec bs hinv hp hf hroot
  have hevents : eventsSince s (State.emit { s with cur := (s.decodeBits s.cur bs).2 } es) = es :=
    eventsSince_emit _ es
  exact ⟨_, hrun, hevents.symm ▸ hsyms, hevents.symm ▸ hbits, rfl⟩

/-- Settles O38: the run of DEC follows the walk from CUR, and a walk of two parts goes on where the first part ends. -/
theorem decodeSequence : Obligations.DecodeSequence := by
  refine fun s bs hinv hf hp hroot =>
    ⟨hinv.runAll_dec_walk hf (Phase.treeFinal_iff.2 hp) hroot bs, fun cs ds hends => ?_⟩
  have happend := (decodeBits_append s s.root cs ds).1
  rwa [hends] at happend

/-! ## E_MALFORMED -/

/-- A command that is not refused latches the status of the fault it answers with (R265). -/
theorem exec_latches_status {i : Instr} {s t : State} {st : BitVec 8} {d : TblWord} (hf : s.fault = 0)
    (h : exec i s = .next t) (hlast : t.trace.getLast? = some (.rsp st d)) (hst : st ≠ 0x00) : t.fault = st := by
  rcases exec_next h with ⟨hhalted, -⟩ | ⟨c, info, rfl, -⟩ | ⟨-, s', beats, d', -, rfl⟩
  · exact absurd hf hhalted
  · rw [State.raise_first hf] at hlast ⊢
    cases getLast_append_one hlast
    rfl
  · rw [State.emit_trace, ← List.append_assoc] at hlast
    cases getLast_append_one hlast
    exact absurd rfl hst

/-- DEC's operand is the one bit of the walk (R210). -/
theorem ofBool_beq_one (b : BitVec 1) : BitVec.ofBool (b == 1) = b := by revert b; decide

/-- Where the tree is present no DEC faults (R216). -/
theorem TreeOk.exec_dec_fault {s t : State} (h : TreeOk s) (hp : s.phase.treeFinal = true) (hf : s.fault = 0)
    (hroot : s.root ≠ Config.nil) {b : BitVec 1} (hexec : exec (.dec b) s = .next t) : t.fault = 0 := by
  obtain ⟨es, hdec, -⟩ := h.exec_dec hp hf hroot (b == 1)
  rw [ofBool_beq_one, hexec] at hdec
  cases hdec
  exact hf

/-- The tree of one symbol is a leaf and CUR stands at it (R28, R155). -/
theorem TreeOk.single_root {s : State} (h : TreeOk s) (hone : s.ndist = 1) :
    s.root ≠ Config.nil ∧ (s.nd s.root.toNat).leaf = true ∧ s.cur = s.root := by
  have hcount : s.ndist.toNat = 1 := congrArg BitVec.toNat hone
  obtain ⟨hnodes, -, -, -, hleaf⟩ := h.present_status (by omega)
  refine ⟨fun hroot => ?_, hleaf.2 hcount, h.cur.resolve_right (by omega)⟩
  simp [h.root_nil_iff.1 hroot] at hcount

/-- Settles O39: with a tree no DEC faults, so none answers 0x05; on a leaf root the walk of any bits is one symbol a
bit. -/
theorem malformedOnlyWithoutATree : Obligations.MalformedOnlyWithoutATree := by
  intro s hinv hf hp
  have hfinal := Phase.treeFinal_iff.2 hp
  have htree := hinv.finished hfinal
  refine ⟨fun b t d hexec => ?_, fun b hroot => exec_dec_malformed hf (passes_dec b hf hp) (decReply_absent hroot b),
    fun hone bs => ?_⟩
  · have hpresent : s.root ≠ 0x1FF → t.fault = 0 := fun hroot => htree.exec_dec_fault hfinal hf hroot hexec
    refine ⟨fun hlast => by_contra fun hroot => ?_, hpresent⟩
    have hlatched : t.fault = 0x05 := exec_latches_status hf hexec hlast (by decide)
    rw [hpresent hroot] at hlatched
    exact absurd hlatched (by decide)
  · obtain ⟨hroot, hleaf, hcur⟩ := htree.single_root hone
    obtain ⟨t, hrun, hsyms, -, ht⟩ := hinv.runAll_dec_walk hf hfinal hroot bs
    rw [decodeBits_leafRoot hleaf] at hsyms ht
    exact ⟨t, hrun, hsyms, ht, (congrArg State.cur ht).trans hcur⟩

end Sys2Proof.Machine
end

section
/-! PROOFS. Table readout (spec/45_readout.md R230, R231): RD of a mapped and of an unmapped address, and the elements
wider than one word put together from the words read. -/

namespace Sys2Proof.Machine

/-! ## One RD -/

/-- RD is performed in every phase, halted or not (R268, R280). -/
theorem passes_rd (a : TblAddr) (s : State) : passes (.rd a) s := ⟨Or.inr rfl, rfl⟩

/-- RD's own rule on a mapped address: the word, no beat, no write (R230). -/
theorem rdReply_mapped {s : State} {a : TblAddr} {v : TblWord} (h : s.tblRead a = some v) :
    rdReply a s = .done s [] v := by
  rw [rdReply, h]

/-- RD's own rule on an unmapped address (R76, R267). -/
theorem rdReply_unmapped {s : State} {a : TblAddr} (h : s.tblRead a = none) :
    rdReply a s = .raise .badAddr (addrInfo a) := by
  rw [rdReply, h]

/-- RD of an unmapped address is the fault entry of E_BADADDR, halted or not (R267). -/
theorem exec_rd_unmapped {s : State} {a : TblAddr} (h : s.tblRead a = none) :
    exec (.rd a) s = .next (s.raise .badAddr (addrInfo a)) :=
  exec_raise (passes_rd a s) (rdReply_unmapped h)

/-- Settles O41: a mapped address completes, an unmapped one takes the fault entry, which latches only a first fault. -/
theorem rdReadsOneWord : Obligations.RdReadsOneWord := by
  refine fun s a => ⟨fun v hv => exec_done (passes_rd a s) (rdReply_mapped hv), fun ha hf => ?_, fun ha hf => ?_⟩
  · rw [exec_rd_unmapped ha, State.raise_first hf]
    rfl
  · rw [exec_rd_unmapped ha, State.raise_later hf]
    rfl

/-! ## Elements of more than one word -/

/-- A count is its high byte above its low word (R231). -/
theorem cnt_eq_high_or_low (c : Cnt) :
    c = ((c.extractLsb' 32 8).setWidth 40 <<< 32) ||| (c.extractLsb' 0 32).setWidth 40 := by
  ext j hj
  by_cases hlow : j < 32
  · simp [hj, hlow]
  · have hhigh : j - 32 < 8 := by omega
    have hplace : 32 + (j - 32) = j := by omega
    simp [hj, hlow, hhigh, hplace]

/-- Bit `k` of the code, where the code has one (R30). -/
theorem codeBits_getElem? (s : State) (x : Sym) {k : Nat} (hk : k < (s.clenAt x).toNat) :
    (s.codeBits x)[k]? = some ((s.cbitsAt x).getLsbD k) := by
  simp [State.codeBits, hk]

/-- The length word read from the CLEN region (R63). -/
theorem toNat_clenWord (n : CodeLen) : (clenWord n).toNat = n.toNat :=
  BitVec.toNat_setWidth_of_le (by decide)

/-- The word of the CBITS region that holds bit `k` of a code, and the bit's place in it (R64, R231). -/
theorem State.tblRead_codeBit (s : State) (x : Sym) {k : Nat} (hk : k < (s.clenAt x).toNat) :
    ∃ v, s.tblRead (BitVec.ofNat 16 (0x0800 + 8 * x.toNat + k / 32)) = some v ∧
      (s.codeBits x)[k]? = some (v.getLsbD (k % 32)) := by
  have hlen := (s.clenAt x).isLt
  obtain ⟨v, hread, hbits⟩ := cbitsRegion s x (k / 32) (by omega)
  refine ⟨v, hread, ?_⟩
  rw [codeBits_getElem? s x hk, hbits (k % 32) (by omega), Nat.div_add_mod]

/-- Settles O46: the count from the fields of the record's first two words, the code from its length word and the words
of its entry. -/
theorem multiWordElements : Obligations.MultiWordElements := by
  refine fun s => ⟨fun i v0 v1 hi h0 h1 => ?_, fun x n hn => ?_⟩
  · obtain ⟨⟨low, hlow, rfl⟩, ⟨high, hhigh, hcnt, -⟩, -⟩ := nodeRegion s i hi
    cases h0.symm.trans hlow
    cases h1.symm.trans hhigh
    rw [hcnt]
    exact cnt_eq_high_or_low _
  · cases hn.symm.trans (s.tblRead_clen x)
    rw [toNat_clenWord]
    exact ⟨(codeBits_length s x).symm, fun k hk => s.tblRead_codeBit x hk⟩

end Sys2Proof.Machine
end

section
/-! PROOFS. The invariant along the step (spec/46_properties.md R240, R241; spec/00_scope.md R9): one word, one input of
the host, one step. -/

namespace Sys2Proof.Machine

/-- A word keeps the invariant: its command does, and an illegal word is the fault entry alone (R261, R265). -/
theorem Inv.takeWord {s t : State} (h : Inv s) {w : CmdWord} (ht : Machine.takeWord w s = .next t) : Inv t := by
  cases hw : decode w with
  | ok i =>
    rw [takeWord_ok hw] at ht
    exact h.exec ht
  | error e =>
    rw [takeWord_illegal (illegal_of_decode_error hw)] at ht
    cases ht
    exact h.raise _ _

/-- A command cut short by reset leaves the reset state but for the inputs and the trace (R300). -/
theorem takeCut_next {w : CmdWord} {n : Nat} {s t : State} (ht : takeCut w n s = .next t) :
    ∃ u : State, t = u.cleared := by
  obtain ⟨v, -, -, -, hv, -⟩ := takeWord_answers w s
  rw [takeCut, hv] at ht
  cases ht
  exact ⟨_, rfl⟩

/-- Every input of the host keeps the invariant (R9, R300 to R302). -/
theorem Inv.takeInput {s t : State} (h : Inv s) {i : HostInput} (ht : Machine.takeInput i s = .next t) : Inv t := by
  cases i with
  | command w => exact h.takeWord ht
  | reset =>
    cases ht
    exact Inv.cleared s
  | resetDuring w n =>
    obtain ⟨u, rfl⟩ := takeCut_next ht
    exact Inv.cleared u

/-- A step idles, or takes the oldest input (R9, R284). -/
theorem step_next {s t : State} (ht : step s = .next t) :
    t = s ∨ ∃ i rest, s.inputs = i :: rest ∧ takeInput i { s with inputs := rest } = .next t := by
  unfold step fetchInput at ht
  cases hin : s.inputs with
  | nil =>
    rw [hin] at ht
    cases ht
    exact Or.inl rfl
  | cons i rest =>
    rw [hin] at ht
    exact Or.inr ⟨i, rest, rfl, ht⟩

/-- Settles O47: idling changes nothing, and every input keeps the invariant. -/
theorem everyStepKeepsTheInvariant : Obligations.EveryStepKeepsTheInvariant := by
  intro s t h ht
  rcases step_next ht with rfl | ⟨i, rest, -, hi⟩
  · exact h
  · exact (h.withInputs rest).takeInput hi

end Sys2Proof.Machine
end

section
/-! PROOFS. The shapes of the data model (spec/46_properties.md R240 to R242): the finished tree, the forest, and the
counts conserved from FREQ to ROOT. -/

namespace Sys2Proof.Machine

/-! ## The finished tree -/

/-- A present tree has a leaf. -/
theorem TreeOk.ndist_ne_zero {s : State} (h : TreeOk s) (hroot : s.root ≠ Config.nil) : s.ndist ≠ 0 :=
  fun e => hroot (h.root_nil_iff.2 e)

/-- CUR is NIL exactly where the tree is absent (10_state.md R28). -/
theorem TreeOk.cur_nil_iff {s : State} (h : TreeOk s) : s.cur = Config.nil ↔ s.root = Config.nil := by
  rcases h.cur with hcur | ⟨hge, hlt⟩
  · rw [hcur]
  · have hnodes := h.arena.nnodes_le
    refine iff_of_false (idx_lt_511.1 (by omega)) fun hroot => ?_
    rw [(h.absent (h.root_nil_iff.1 hroot)).1] at hlt
    simp at hlt

/-- In a present tree CUR is ROOT or an internal node before it (10_state.md R28). -/
theorem TreeOk.cur_position {s : State} (h : TreeOk s) (hroot : s.root ≠ Config.nil) :
    s.cur = s.root ∨ ((s.nd s.cur.toNat).leaf = false ∧ s.cur.toNat < s.root.toNat) := by
  refine h.cur.elim Or.inl fun ⟨hge, hlt⟩ => ?_
  obtain ⟨-, hlast, -⟩ := h.present (h.ndist_ne_zero hroot)
  by_cases hcur : s.cur = s.root
  · exact Or.inl hcur
  · have hne : s.cur.toNat ≠ s.root.toNat := fun e => hcur (BitVec.toNat_inj.1 e)
    exact Or.inr ⟨(h.arena.internals _ hge hlt).1, by omega⟩

/-- The present symbols are those of the leaves (R240, item 4). -/
theorem ArenaOk.present_iff {s : State} (h : ArenaOk s) (x : Sym) :
    s.freqAt x ≠ 0 ↔ ∃ i, i < s.ndist.toNat ∧ (s.nd i).sym = x := by
  refine ⟨h.complete x, ?_⟩
  rintro ⟨i, hi, rfl⟩
  obtain ⟨-, -, -, -, hpresent⟩ := h.leaves i hi
  exact hpresent

/-- Settles O49: the clauses of the invariant, with the bounds and the position of CUR that follow from them. -/
theorem finishedTreeShape : Obligations.FinishedTreeShape := by
  intro s hinv hp
  have htree := hinv.finished (Phase.treeFinal_iff.2 hp)
  refine ⟨htree.cur_nil_iff, fun hroot => ?_⟩
  have harena := htree.arena
  have hdist : s.ndist.toNat ≠ 0 := fun e => htree.ndist_ne_zero hroot (BitVec.toNat_inj.1 e)
  have hle := harena.nnodes_le
  obtain ⟨hnodes, hlast, -⟩ := htree.present_status hdist
  obtain ⟨-, -, hparent, -⟩ := htree.present (htree.ndist_ne_zero hroot)
  refine ⟨hnodes, hlast, by omega, fun i hi => (harena.leaves i hi).1, harena.ascending, fun k hd hk => ?_, hparent,
    harena.present_iff, harena.presentSyms_length, harena.cnt_pos, htree.pqlen, htree.inQ_false,
    htree.cur_position hroot⟩
  obtain ⟨hleaf, -, hleft, hright, hchildren⟩ := harena.internals k hd hk
  obtain ⟨hne, hparents⟩ := hchildren
  exact ⟨hleaf, idx_lt_511.1 (by omega), idx_lt_511.1 (by omega), hne, hleft, hright, hparents⟩

/-! ## The forest -/

/-- Only an allocated node is a member, and the members are those without a parent (R241). -/
theorem ForestOk.inQ_iff {s : State} (h : ForestOk s) (i : Nat) :
    s.inQ i = true ↔ i < s.nnodes.toNat ∧ (s.nd i).parent = Config.nil := by
  by_cases hi : i < s.nnodes.toNat
  · rw [h.members i hi, and_iff_right hi]
  · rw [(h.arena.unallocated i (by omega)).2]
    simp [hi]

/-- PQLEN is the number of members (10_state.md R25). -/
theorem ForestOk.pqlen_eq_members {s : State} (h : ForestOk s) : s.pqlen.toNat = s.memberList.length := by
  rw [h.pqlen, s.keys_eq, List.length_map]

/-- The members' counts add up to the sum of FREQ (R241). -/
theorem ForestOk.members_sum {s : State} (h : ForestOk s) :
    (s.memberList.map fun i => (s.nd i).cnt.toNat).sum = s.freqSum := by
  rw [← h.sum, State.memberSum, s.keys_eq, List.map_map]
  rfl

/-- The upward walk from `i` reaches `r` in `m` steps to PARENT, and no step of it passes NIL (R241). -/
def State.climbs (s : State) (i m r : Nat) : Prop :=
  Nat.iterate s.parentOf m i = r ∧ ∀ k, k ≤ m → Nat.iterate s.parentOf k i ≠ 511

theorem State.climbs_zero {s : State} {i : Nat} (hi : i ≠ 511) : s.climbs i 0 i :=
  ⟨rfl, fun k hk => by rwa [Nat.le_zero.1 hk]⟩

theorem State.climbs_succ {s : State} {i m r : Nat} (hi : i ≠ 511) (h : s.climbs (s.parentOf i) m r) :
    s.climbs i (m + 1) r := by
  refine ⟨h.1, fun k hk => ?_⟩
  cases k with
  | zero => exact hi
  | succ k => exact h.2 k (by omega)

/-- A walk that ends at a node without a parent goes no further: no longer walk avoids NIL. -/
theorem State.climbs_length_le {s : State} {i m n r q : Nat} (h : s.climbs i m r) (hr : s.parentOf r = 511)
    (g : s.climbs i n q) : n ≤ m := by
  by_contra hlt
  refine g.2 (m + 1) (by omega) ?_
  rw [Function.iterate_succ_apply', h.1, hr]

/-- Two walks from one node that both end at nodes without a parent end at the same one. -/
theorem State.climbs_unique {s : State} {i m n r q : Nat} (h : s.climbs i m r) (hr : s.parentOf r = 511)
    (g : s.climbs i n q) (hq : s.parentOf q = 511) : r = q := by
  obtain rfl : m = n := Nat.le_antisymm (State.climbs_length_le g hq h) (State.climbs_length_le h hr g)
  exact h.1.symm.trans g.1

theorem ForestOk.parentOf_member {s : State} (h : ForestOk s) {r : Nat} (hr : s.inQ r = true) :
    s.parentOf r = 511 :=
  congrArg BitVec.toNat ((h.inQ_iff r).1 hr).2

/-- From every allocated node the upward walk reaches a member: a parent is allocated and comes later (R241). -/
theorem ForestOk.climbs_member {s : State} (h : ForestOk s) {i : Nat} (hi : i < s.nnodes.toNat) :
    ∃ r m, s.inQ r = true ∧ s.climbs i m r := by
  have hle := h.arena.nnodes_le
  induction hd : s.nnodes.toNat - i using Nat.strong_induction_on generalizing i with
  | _ d ih =>
    rcases h.arena.parents i hi with hnil | ⟨hge, hlt, hchild⟩
    · exact ⟨i, 0, (h.members i hi).2 hnil, State.climbs_zero (by omega)⟩
    · obtain ⟨-, -, hleft, hright, -⟩ := h.arena.internals _ hge hlt
      obtain ⟨r, m, hr, hm⟩ := ih (s.nnodes.toNat - s.parentOf i) (by unfold State.parentOf; omega) hlt rfl
      exact ⟨r, m + 1, hr, State.climbs_succ (by omega) hm⟩

/-- Settles O50: the members by the invariant, and the one that a node belongs to by the walk along PARENT. -/
theorem forestShape : Obligations.ForestShape := by
  intro s hinv hp
  have hforest := (hinv.forestOk hp).1
  have hnodes := hforest.nodes
  have hle := hforest.arena.dist_le_nodes
  refine ⟨hforest.pqlen_eq_members, ?_, hforest.inQ_iff, fun i hi => ?_, hforest.members_sum,
    s.nnodes.toNat - s.ndist.toNat, by omega, by omega⟩
  · rcases Nat.lt_or_ge s.pqlen.toNat 2 with hfew | hmany
    · exact Or.inr (hinv.forestFew hp (by omega))
    · exact Or.inl hmany
  · obtain ⟨r, m, hr, hm⟩ := hforest.climbs_member hi
    refine ⟨r, ⟨hr, m, hm⟩, ?_⟩
    rintro q ⟨hq, n, hn⟩
    exact State.climbs_unique hn (hforest.parentOf_member hq) hm (hforest.parentOf_member hr)

/-! ## The counts -/

/-- The counts of the leaves add up to the sum of FREQ (R242). -/
theorem ArenaOk.leaf_sum {s : State} (h : ArenaOk s) :
    ∑ i ∈ Finset.range s.ndist.toNat, (s.nd i).cnt.toNat = s.freqSum := by
  rw [s.freqSum_eq, ← h.sum_leaves (fun x => (s.freqAt x).toNat) fun x hx => by rw [not_not.1 hx]; rfl]
  exact Finset.sum_congr rfl fun i hi => h.leaf_cnt (Finset.mem_range.1 hi)

/-- The occurrences of all symbols in a sequence add up to its length. -/
theorem sum_count_eq_length (xs : List Sym) : ∑ x : Sym, xs.count x = xs.length := by
  simpa only [Multiset.coe_count, Multiset.coe_card] using
    Multiset.sum_count_eq_card (s := Finset.univ) (m := (xs : Multiset Sym)) fun x _ => Finset.mem_univ x

/-- After a fault-free run of SYM from reset the sum of FREQ is the number of SYM commands (R242). -/
theorem runAll_sym_freqSum {s t : State} {xs : List Sym} (hs : s.AtReset) (ht : runAll (xs.map .sym) s = .next t)
    (hf : t.fault = 0) : t.freqSum = xs.length := by
  have hcounts := (runAll_sym_counts xs s t hs.phase.1 ht hf).2
  rw [t.freqSum_eq, ← sum_count_eq_length xs]
  refine Finset.sum_congr rfl fun x _ => ?_
  rw [hcounts, hs.freq]
  exact Nat.zero_add _

/-- Settles O51: leaf by leaf, in sum, and counted from reset. -/
theorem frequencyConservation : Obligations.FrequencyConservation := by
  refine ⟨fun s hinv hp hroot => ?_, fun s t xs hs ht hf => runAll_sym_freqSum hs ht hf⟩
  have htree := hinv.finished (Phase.treeFinal_iff.2 hp)
  obtain ⟨-, -, -, hrootCnt⟩ := htree.present (htree.ndist_ne_zero hroot)
  exact ⟨htree.arena.leaf_sum.trans hrootCnt.symm, hrootCnt, fun i hi => htree.arena.leaf_cnt hi⟩

end Sys2Proof.Machine
end

section
/-! PROOFS. Codes and streams (spec/46_properties.md R243, R244, R250): no code begins with another symbol's code, a
padded stream decodes to the sequence and what its padding decodes to, and the round trip of a whole run. -/

namespace Sys2Proof.Machine

/-! ## One code in front of another -/

/-- A stream that begins with the code of `x` decodes to `x` first. -/
theorem TreeOk.decode_of_prefix {s : State} (h : TreeOk s) (k : CodesOk s) {x : Sym} (hx : s.clenAt x ≠ 0)
    {bs : List Bool} (hpre : s.codeBits x <+: bs) : ∃ ys, (s.decodeBits s.root bs).1 = x :: ys := by
  obtain ⟨rest, rfl⟩ := hpre
  exact ⟨_, congrArg Prod.fst (h.walk_code k hx rest)⟩

/-- A code alone decodes to its symbol. -/
theorem TreeOk.decode_code {s : State} (h : TreeOk s) (k : CodesOk s) {x : Sym} (hx : s.clenAt x ≠ 0) :
    (s.decodeBits s.root (s.codeBits x)).1 = [x] := by
  simpa [State.decodeBits] using congrArg Prod.fst (h.walk_code k hx [])

/-- Settles O52: a code that began with another symbol's code would decode to that symbol. -/
theorem codesArePrefixFree : Obligations.CodesArePrefixFree := by
  intro s hinv hp x y hne hx hy hpre
  obtain ⟨htree, hcodes⟩ := hinv.readyOk hp
  obtain ⟨ys, hys⟩ := htree.decode_of_prefix hcodes hx hpre
  rw [htree.decode_code hcodes hy] at hys
  exact hne (List.cons.inj hys).1.symm

/-! ## Padding -/

/-- With two or more symbols ROOT is internal. -/
theorem TreeOk.root_internal {s : State} (h : TreeOk s) (htwo : 2 ≤ s.ndist.toNat) :
    s.ndist ≠ 0 ∧ (s.nd s.root.toNat).leaf = false := by
  have hdist : s.ndist ≠ 0 := fun e => by simp [e] at htwo
  refine ⟨hdist, ?_⟩
  rw [← Bool.not_eq_true, h.root_leaf_iff hdist]
  omega

/-- A walk from an internal node that emits a symbol passes a leaf: the first of its bits lead there. -/
theorem ArenaOk.leaf_of_decode {s : State} (h : ArenaOk s) (hl : (s.nd s.root.toNat).leaf = false) (bs : List Bool) :
    ∀ {k : Idx}, s.ndist.toNat ≤ k.toNat → k.toNat < s.nnodes.toNat → (s.decodeBits k bs).1 ≠ [] →
      ∃ c i, c <+: bs ∧ s.follow k c = some i ∧ i.toNat < s.ndist.toNat := by
  induction bs with
  | nil => exact fun _ _ hne => absurd rfl hne
  | cons b bs ih =>
    intro k hd hk hne
    have hlt := h.childOf_lt hd hk b
    have hedge := h.follow_one hd hk b
    by_cases hleaf : (s.nd (s.childOf k b).toNat).leaf = true
    · exact ⟨[b], _, by simp, hedge, (h.leaf_iff (by omega)).1 hleaf⟩
    · have hinternal := h.internal_of_leaf_false (by omega) (Bool.eq_false_iff.2 hleaf)
      simp only [State.decodeBits, hl, hleaf, Bool.false_eq_true, if_false] at hne
      obtain ⟨c, i, hpre, hc, hi⟩ := ih hinternal (by omega) hne
      refine ⟨b :: c, i, List.cons_prefix_cons.2 ⟨rfl, hpre⟩, ?_, hi⟩
      rw [← List.singleton_append, s.follow_append, hedge]
      exact hc

/-- With two or more symbols, bits decode to nothing exactly where they begin with no code (R250). -/
theorem TreeOk.decode_nil_iff {s : State} (h : TreeOk s) (k : CodesOk s) (htwo : 2 ≤ s.ndist.toNat) (ps : List Bool) :
    (s.decodeBits s.root ps).1 = [] ↔ ∀ x, s.clenAt x ≠ 0 → ¬ s.codeBits x <+: ps := by
  constructor
  · intro hnil x hx hpre
    obtain ⟨ys, hys⟩ := h.decode_of_prefix k hx hpre
    rw [hnil] at hys
    exact List.cons_ne_nil x ys hys.symm
  · refine fun hno => by_contra fun hne => ?_
    obtain ⟨hnodes, hroot, -⟩ := h.present_status (by omega)
    obtain ⟨hdist, hleaf⟩ := h.root_internal htwo
    obtain ⟨c, i, hpre, hc, hi⟩ := h.arena.leaf_of_decode hleaf ps (by omega) (by omega) hne
    have hcode := h.leaf_follow k hleaf hi
    rw [BitVec.ofNat_toNat, BitVec.setWidth_eq] at hcode
    rw [← h.follow_unique hdist hcode hc] at hpre
    exact hno _ (k.leaf_entry hi).2.1 hpre

/-- Settles O56: the walk of the codes, then of the padding, for two symbols or more and for one. -/
theorem paddedStreamDecodes : Obligations.PaddedStreamDecodes := by
  intro s xs ps hinv hp hroot hxs
  obtain ⟨htree, hcodes⟩ := hinv.readyOk hp
  refine ⟨congrArg Prod.fst (htree.walk_codes hcodes xs hxs ps), ?_,
    fun htwo => htree.decode_nil_iff hcodes htwo ps, fun hone => ?_⟩
  · simpa [State.decodeBits] using congrArg Prod.snd (htree.walk_codes hcodes xs hxs [])
  · rw [decodeBits_leafRoot (htree.single_root hone).2.1]

/-! ## The round trip -/

/-- CLR and one SYM for each symbol of an input that fits: P_COUNT without fault, and each counter is the number of
occurrences of its symbol (R132, R133). -/
theorem runAll_clr_sym (s : State) {xs : List Sym} (hfits : ∀ x, xs.count x ≤ 2 ^ 32 - 1) :
    ∃ t, runAll (.clr :: xs.map .sym) s = .next t ∧ Inv t ∧ t.fault = 0 ∧ t.phase = .count ∧
      ∀ x, (t.freqAt x).toNat = xs.count x := by
  obtain ⟨u, hclr, hreset⟩ := resetStateIsAsListed.2.1 s
  have hinv : Inv u := by
    cases (exec_clr s).symm.trans hclr
    exact Inv.cleared (s.emit [.rsp 0x00 0])
  have hzero (x : Sym) : (u.freqAt x).toNat = 0 := by
    rw [hreset.freq]
    rfl
  obtain ⟨t, ht, hframe⟩ := runAll_sym xs hreset.fault hreset.phase.1 (s := u) fun x => by
    rw [hzero, Nat.zero_add]
    exact hfits x
  have hfault : t.fault = 0 := by rw [hframe]; exact hreset.fault
  have hphase : t.phase = .count := by rw [hframe]; exact hreset.phase.1
  refine ⟨t, (runAll_cons_next hclr).trans ht, hinv.runAll ht, hfault, hphase, fun x => ?_⟩
  rw [(runAll_sym_counts xs u t hreset.phase.1 ht hfault).2, hzero, Nat.zero_add]

/-- A whole run over an input that fits builds the tree and the code table, with a code for each of its symbols
(R104, R244). -/
theorem runAll_count_build (s : State) {xs : List Sym} (hfits : ∀ x, xs.count x ≤ 2 ^ 32 - 1) :
    ∃ t, runAll (Instr.clr :: (xs.map Instr.sym ++ [.forest, .tree, .derive])) s = .next t ∧ Inv t ∧ t.fault = 0 ∧
      t.phase = .ready ∧ t.cur = t.root ∧ ∀ x ∈ xs, t.clenAt x ≠ 0 := by
  obtain ⟨u, hu, hinv, hf, hp, hcounts⟩ := runAll_clr_sym s hfits
  obtain ⟨-, t, -, -, -, -, ht, hbuilt⟩ := hinv.build hf hp
  rw [← List.cons_append, runAll_append_next hu]
  refine ⟨_, ht, hbuilt.inv, hbuilt.fault, hbuilt.phase, hbuilt.cur, fun x hx => hbuilt.entry fun hzero => ?_⟩
  have hpos := List.count_pos_iff.2 hx
  rw [← hcounts, hzero] at hpos
  exact absurd hpos (by decide)

/-- Decoding an encoded sequence from ROOT, bit by bit, emits the sequence and ends at ROOT (R244, R215). -/
theorem Inv.runAll_dec_encode {s : State} (hinv : Inv s) (hf : s.fault = 0) (hp : s.phase = .ready)
    (hcur : s.cur = s.root) {xs : List Sym} (hxs : ∀ x ∈ xs, s.clenAt x ≠ 0) :
    ∃ t, Machine.runAll (decCommands (s.encodeBits xs)) s = .next t ∧ t.fault = 0 ∧
      symbolsOf (eventsSince s t) = xs ∧ t.cur = t.root := by
  obtain ⟨htree, hcodes⟩ := hinv.readyOk hp
  cases xs with
  | nil => exact ⟨s, rfl, hf, by simp [eventsSince, symbolsOf], hcur⟩
  | cons x xs =>
    obtain ⟨i, hi, -⟩ := hcodes.entry htree.arena (hxs x List.mem_cons_self)
    have hroot : s.root ≠ Config.nil := fun e => by simp [htree.root_nil_iff.1 e] at hi
    obtain ⟨t, hrun, hsyms, -, ht⟩ :=
      hinv.runAll_dec_walk hf (Phase.treeFinal_iff.2 (Or.inr hp)) hroot (s.encodeBits (x :: xs))
    have hwalk := htree.walk_codes hcodes (x :: xs) hxs []
    simp only [List.append_nil, State.decodeBits] at hwalk
    rw [hcur, hwalk] at hsyms ht
    exact ⟨t, hrun, by rw [ht]; exact hf, hsyms, by rw [ht]⟩

/-- Settles O53: the tables of the run hold codes for its symbols, encoding leaves them alone, and the walk of the
emitted bits gives the symbols back. -/
theorem roundTrip : Obligations.RoundTrip := by
  intro s xs hfits
  obtain ⟨t, ht, hinv, hf, hp, hcur, hxs⟩ := runAll_count_build s hfits
  have henc := runAll_enc xs hf hp hxs
  have hbits : bitsOf (eventsSince t (t.emit (t.encEvents xs))) = t.encodeBits xs := by
    rw [eventsSince_emit, bitsOf_encEvents]
  obtain ⟨v, hv, hvf, hsyms, hvcur⟩ :=
    (hinv.emit (t.encEvents xs)).runAll_dec_encode hf hp hcur (xs := xs) hxs
  exact ⟨t, _, v, ht, hf, henc, hf, hcur, hbits, by rw [hbits]; exact hv, hvf, hsyms, hvcur⟩

end Sys2Proof.Machine
end

section
/-! PROOFS. Sums over a code table (spec/46_properties.md R251, R252): Kraft's equality, and the length of the encoded
input. -/

namespace Sys2Proof.Machine

/-- With one symbol a sum over the symbols that vanishes on the absent ones is its value at that symbol. -/
theorem ArenaOk.sum_single {s : State} (h : ArenaOk s) (hone : s.ndist = 1) (g : Sym → Nat)
    (hg : ∀ x, ¬ s.isPresent x → g x = 0) : ∑ x : Sym, g x = g (s.nd 0).sym := by
  have hcount : s.ndist.toNat = 1 := congrArg BitVec.toNat hone
  rw [← h.sum_leaves g hg, hcount, Finset.sum_range_one]

/-- The one symbol has a code of one bit (R182). -/
theorem Inv.clenAt_single {s : State} (hinv : Inv s) (hp : s.phase = .ready) (hone : s.ndist = 1) :
    (s.clenAt (s.nd 0).sym).toNat = 1 := by
  have hcount : s.ndist.toNat = 1 := congrArg BitVec.toNat hone
  obtain ⟨-, -, -, -, hpresent⟩ := (hinv.readyOk hp).1.arena.leaves 0 (by omega)
  exact ((codeLengthBounds s hinv hp _).1 hpresent).2.2.2 hcount

/-! ## Kraft's equality -/

/-- What a symbol adds to the Kraft sum, times 2^255 (R251). -/
def State.kraftTerm (s : State) (x : Sym) : Nat := if s.clenAt x = 0 then 0 else 2 ^ (255 - (s.clenAt x).toNat)

theorem CodesOk.kraftTerm_absent {s : State} (h : CodesOk s) {x : Sym} (hx : ¬ s.isPresent x) : s.kraftTerm x = 0 :=
  if_pos (h.absent x hx).1

/-- What the two children of an internal node add is what a leaf in its place would add. -/
theorem two_pow_children {d : Nat} (hd : d + 1 ≤ 255) : 2 ^ (255 - (d + 1)) + 2 ^ (255 - (d + 1)) = 2 ^ (255 - d) := by
  have hsucc : 255 - d = 255 - (d + 1) + 1 := by omega
  rw [hsucc, Nat.pow_succ]
  omega

/-- The Kraft sum over the leaves of a finished tree is that of its root, at depth 0. -/
theorem TreeOk.kraft_leaves {s : State} (h : TreeOk s) (hdist : s.ndist ≠ 0) :
    ∑ i ∈ Finset.range s.ndist.toNat, 2 ^ (255 - s.depth i) = 2 ^ 255 := by
  have hchildren := h.sum_children hdist fun i => 2 ^ (255 - s.depth i)
  have hinner : ∀ k ∈ Finset.Ico s.ndist.toNat s.nnodes.toNat,
      2 ^ (255 - s.depth (s.nd k).left.toNat) + 2 ^ (255 - s.depth (s.nd k).right.toNat) = 2 ^ (255 - s.depth k) := by
    intro k hk
    obtain ⟨hd, hk⟩ := Finset.mem_Ico.1 hk
    obtain ⟨hleft, hright⟩ := h.depth_child hdist hd hk
    obtain ⟨-, -, hlt, -⟩ := h.arena.internals k hd hk
    have hbound := h.depth_le (Nat.lt_trans hlt hk)
    rw [hleft] at hbound
    rw [hleft, hright, two_pow_children hbound]
  rw [Finset.sum_congr rfl hinner, h.depth_root hdist, h.arena.sum_split, Nat.add_comm] at hchildren
  exact (Nat.add_right_cancel hchildren).symm

/-- Settles O57: the sum over the symbols is one over the leaves, by their depths; the one symbol's code has one bit. -/
theorem kraftEquality : Obligations.KraftEquality := by
  intro s hinv hp
  obtain ⟨htree, hcodes⟩ := hinv.readyOk hp
  refine ⟨fun htwo => ?_, fun hone => ?_⟩
  · obtain ⟨hdist, hleaf⟩ := htree.root_internal htwo
    calc ∑ x : Sym, s.kraftTerm x
        = ∑ i ∈ Finset.range s.ndist.toNat, s.kraftTerm (s.nd i).sym :=
          (htree.arena.sum_leaves s.kraftTerm fun x hx => hcodes.kraftTerm_absent hx).symm
      _ = ∑ i ∈ Finset.range s.ndist.toNat, 2 ^ (255 - s.depth i) := by
          refine Finset.sum_congr rfl fun i hi => ?_
          have hi := Finset.mem_range.1 hi
          rw [State.kraftTerm, if_neg (hcodes.leaf_entry hi).2.1, htree.clen_depth hcodes hleaf hi]
      _ = 2 ^ 255 := htree.kraft_leaves hdist
  · have hlen := hinv.clenAt_single hp hone
    have hne : s.clenAt (s.nd 0).sym ≠ 0 := fun e => by simp [e] at hlen
    calc ∑ x : Sym, s.kraftTerm x
        = s.kraftTerm (s.nd 0).sym := htree.arena.sum_single hone _ fun x hx => hcodes.kraftTerm_absent hx
      _ = 2 ^ 254 := by rw [State.kraftTerm, if_neg hne, hlen]

/-! ## The encoded length -/

/-- Each leaf's count once for every edge above it is each internal node's count once: an internal node counts the
leaves below it (R252). -/
theorem TreeOk.sum_cnt_depth {s : State} (h : TreeOk s) (hdist : s.ndist ≠ 0) :
    ∑ i ∈ Finset.range s.ndist.toNat, (s.nd i).cnt.toNat * s.depth i =
      ∑ k ∈ Finset.Ico s.ndist.toNat s.nnodes.toNat, (s.nd k).cnt.toNat := by
  have hchildren := h.sum_children hdist fun i => (s.nd i).cnt.toNat * s.depth i
  have hinner : ∀ k ∈ Finset.Ico s.ndist.toNat s.nnodes.toNat,
      (s.nd (s.nd k).left.toNat).cnt.toNat * s.depth (s.nd k).left.toNat +
        (s.nd (s.nd k).right.toNat).cnt.toNat * s.depth (s.nd k).right.toNat =
      (s.nd k).cnt.toNat * s.depth k + (s.nd k).cnt.toNat := by
    intro k hk
    obtain ⟨hd, hk⟩ := Finset.mem_Ico.1 hk
    obtain ⟨hleft, hright⟩ := h.depth_child hdist hd hk
    obtain ⟨-, -, -, -, -, -, -, hcnt⟩ := h.arena.internals k hd hk
    rw [hleft, hright, hcnt]
    ring
  rw [Finset.sum_congr rfl hinner, Finset.sum_add_distrib, h.depth_root hdist, h.arena.sum_split] at hchildren
  omega

/-- Settles O58: the sum over the symbols is one over the leaves, each count as often as the leaf is deep; the one
symbol's code has one bit. -/
theorem encodedLength : Obligations.EncodedLength := by
  intro s hinv hp
  obtain ⟨htree, hcodes⟩ := hinv.readyOk hp
  have habsent : ∀ x, ¬ s.isPresent x → (s.freqAt x).toNat * (s.clenAt x).toNat = 0 := by
    intro x hx
    rw [not_not.1 hx]
    exact Nat.zero_mul _
  refine ⟨fun htwo => ?_, fun hone => ?_⟩
  · obtain ⟨hdist, hleaf⟩ := htree.root_internal htwo
    rw [← htree.sum_cnt_depth hdist, ← htree.arena.sum_leaves _ habsent]
    refine Finset.sum_congr rfl fun i hi => ?_
    have hi := Finset.mem_range.1 hi
    rw [htree.arena.leaf_cnt hi, htree.clen_depth hcodes hleaf hi]
  · rw [htree.arena.sum_single hone _ habsent, hinv.clenAt_single hp hone, Nat.mul_one]

end Sys2Proof.Machine
end

section
/-! PROOFS. Runs determined by their counts, and the empty input (spec/46_properties.md R245, R246): MERGE commands before
TREE leave the same tree, and a P_COUNT state that satisfies the invariant is its FREQ. -/

namespace Sys2Proof.Machine

/-! ## Equal counts -/

/-- The merge loop ends with the step that finalises (R154). -/
theorem mergeLoop_of_final {s : State} (h : s.mstep.phase = .tree) (n : Nat) : mergeLoop (n + 1) s = s.mstep :=
  if_pos h

/-- The merge loop goes on after a step that does not finalise (R154). -/
theorem mergeLoop_of_not_final {s : State} (h : s.mstep.phase ≠ .tree) (n : Nat) :
    mergeLoop (n + 1) s = mergeLoop n s.mstep :=
  if_neg h

theorem State.ported_ported (s : State) (q q' : List HostInput) (tr tr' : List Event) :
    (s.ported q tr).ported q' tr' = s.ported q' tr' := rfl

/-- A response does not show in what the merge loop makes of the tables. -/
theorem mergeLoop_emit (n : Nat) (s : State) (es : List Event) (q : List HostInput) (tr : List Event) :
    (mergeLoop n (s.emit es)).ported q tr = (mergeLoop n s).ported q tr := by
  have hloop : mergeLoop n (s.emit es) = (mergeLoop n s).ported s.inputs (s.trace ++ es) :=
    mergeLoop_ported s s.inputs (s.trace ++ es) n
  rw [hloop, State.ported_ported]

/-- A step of the merge loop beyond PQLEN changes nothing (R158). -/
theorem mergeLoop_fuel_succ (n : Nat) : ∀ {s : State}, s.pqlen.toNat ≤ n → 0 < n →
    mergeLoop (n + 1) s = mergeLoop n s := by
  induction n with
  | zero => exact fun _ h0 => absurd h0 (Nat.lt_irrefl 0)
  | succ n ih =>
    intro s hn _
    by_cases hfinal : s.mstep.phase = .tree
    · rw [mergeLoop_of_final hfinal, mergeLoop_of_final hfinal]
    · rw [mergeLoop_of_not_final hfinal, mergeLoop_of_not_final hfinal]
      rcases s.mstep_phase with ⟨-, hphase, -⟩ | ⟨hthree, -, hlen⟩
      · exact absurd hphase hfinal
      · exact ih (by omega) (by omega)

/-- A merge step that does not finalise is the first step of the merge loop (R154). -/
theorem mergeLoop_mstep {s : State} (hp : s.phase = .forest) (hthree : 3 ≤ s.pqlen.toNat) :
    mergeLoop Config.nodeMax s.mstep = mergeLoop Config.nodeMax s := by
  rcases s.mstep_phase with ⟨hfew, -⟩ | ⟨-, hphase, hlen⟩
  · omega
  · have hmax := s.pqlen.isLt
    have hloop : mergeLoop (510 + 1) s = mergeLoop 510 s.mstep := by
      rw [mergeLoop, if_neg (by rw [hphase, hp]; decide)]
    exact (mergeLoop_fuel_succ 510 (by omega) (by decide)).trans hloop.symm

/-- MERGE commands that do not finalise, then TREE, leave the tables that TREE alone leaves (R154). -/
theorem runAll_merges_tree (m : Nat) : ∀ {s : State}, s.fault = 0 → s.phase = .forest →
    m + 1 < s.pqlen.toNat ∨ m = 0 →
    ∃ tr, runAll (List.replicate m .merge ++ [.tree]) s = .next ((mergeLoop Config.nodeMax s).ported s.inputs tr) := by
  induction m with
  | zero =>
    intro s hf hp _
    have hframe := mergeLoop_frame Config.nodeMax s
    refine ⟨s.trace ++ [.rsp 0x00 0], (runAll_one (exec_tree hf hp)).trans ?_⟩
    rw [← hframe.inputs, ← hframe.trace]
    rfl
  | succ m ih =>
    intro s hf hp hm
    have hthree : 3 ≤ s.pqlen.toNat := by omega
    obtain ⟨hfew, -⟩ | ⟨-, hphase, hlen⟩ := s.mstep_phase
    · omega
    · obtain ⟨tr, htr⟩ := ih (s := s.mstep.emit [.rsp 0x00 0]) (s.mstep_frame.fault.trans hf) (hphase.trans hp)
        (Or.inl (by rw [State.emit_pqlen]; omega))
      rw [mergeLoop_emit, mergeLoop_mstep hp hthree, State.emit_inputs, s.mstep_frame.inputs] at htr
      exact ⟨tr, (runAll_cons_next (exec_merge hf hp)).trans htr⟩

/-- What FOREST, TREE and DERIVE make of a state in P_COUNT (R104). -/
def State.buildTables (s : State) : State := (mergeLoop Config.nodeMax s.loadForest).deriveCodes

/-- The tables built depend on neither the inputs nor the trace. -/
theorem buildTables_ported (s : State) (q : List HostInput) (tr : List Event) :
    (s.ported q tr).buildTables = s.buildTables.ported q tr := by
  rw [State.buildTables, loadForest_ported, mergeLoop_ported, deriveCodes_ported]
  rfl

/-- DERIVE after a run that leaves a finished tree (R181). -/
theorem runAll_then_derive {is : List Instr} {s u : State} {q : List HostInput} {tr : List Event}
    (h : runAll is s = .next (u.ported q tr)) (hf : u.fault = 0) (hp : u.phase = .tree) :
    runAll (is ++ [.derive]) s = .next (u.deriveCodes.ported q (tr ++ [.rsp 0x00 0])) := by
  have hderive := exec_derive (s := u.ported q tr) hf hp
  rw [deriveCodes_ported] at hderive
  rw [runAll_append_next h]
  exact runAll_one hderive

/-- FOREST, MERGE commands that do not finalise, TREE and DERIVE leave the tables of FOREST, TREE and DERIVE (R154,
R246). -/
theorem runAll_build {s : State} (hf : s.fault = 0) (hp : s.phase = .count) {m : Nat}
    (hm : m + 1 < s.presentSyms.length ∨ m = 0) :
    ∃ tr, runAll (Instr.forest :: (List.replicate m .merge ++ [.tree, .derive])) s =
      .next (s.buildTables.ported s.inputs tr) := by
  have hframe := s.loadForest_frame
  have hlen : s.loadForest.pqlen.toNat = s.presentSyms.length := by
    rw [s.presentSyms_length, s.loadForest_counts.2.2]
  rw [← hlen] at hm
  obtain ⟨tr, htr⟩ := runAll_merges_tree m (s := s.loadForest.emit [.rsp 0x00 0]) (hframe.fault.trans hf) rfl hm
  rw [mergeLoop_emit, State.emit_inputs, hframe.inputs] at htr
  have hfault : (mergeLoop Config.nodeMax s.loadForest).fault = 0 :=
    (mergeLoop_frame _ _).fault.trans (hframe.fault.trans hf)
  have hphase : (mergeLoop Config.nodeMax s.loadForest).phase = .tree :=
    mergeLoop_phase (pqlen_le_nodeMax _) (by decide)
  refine ⟨tr ++ [.rsp 0x00 0], ?_⟩
  rw [runAll_cons_next (exec_forest hf hp), List.append_cons, State.buildTables]
  exact runAll_then_derive htr hfault hphase

/-- A P_COUNT state that satisfies the invariant and is not halted is determined by FREQ, but for the inputs and the
trace (R32, R40). -/
theorem Inv.count_eq {s : State} (h : Inv s) (hf : s.fault = 0) (hp : s.phase = .count) :
    s = { State.reset with freq := s.freq, inputs := s.inputs, trace := s.trace } := by
  obtain ⟨⟨hnode, hinq, hnnodes, hndist, hpqlen, hroot, hcur⟩, ⟨hclen, hcbits⟩⟩ := h.countOk hp
  have hinfo := h.fault.info hf
  calc s = ⟨s.freq, s.node, s.nnodes, s.ndist, s.inq, s.pqlen, s.root, s.cur, s.clen, s.cbits, s.fault, s.finfo,
          s.phase, s.inputs, s.trace⟩ := rfl
    _ = { State.reset with freq := s.freq, inputs := s.inputs, trace := s.trace } := by
      rw [hnode, hinq, hnnodes, hndist, hpqlen, hroot, hcur, hclen, hcbits, hf, hinfo, hp]
      rfl

/-- Settles O55: two such states with equal FREQ differ in the inputs and the trace alone, and the MERGE commands do not
show in the tables. -/
theorem runsAreDeterminedByFreq : Obligations.RunsAreDeterminedByFreq := by
  intro s u m hs hu hsf huf hsp hup hfreq hm
  have hsu : u = s.ported u.inputs u.trace :=
    calc u = { State.reset with freq := u.freq, inputs := u.inputs, trace := u.trace } := hu.count_eq huf hup
      _ = State.ported { State.reset with freq := s.freq, inputs := s.inputs, trace := s.trace } u.inputs u.trace := by
        rw [← hfreq]
        rfl
      _ = s.ported u.inputs u.trace := by rw [← hs.count_eq hsf hsp]
  have hsyms : u.presentSyms = s.presentSyms := by rw [hsu]; rfl
  obtain ⟨tr, hrun⟩ := runAll_build hsf hsp (m := 0) (Or.inr rfl)
  obtain ⟨tr', hrun'⟩ := runAll_build huf hup (m := m) (by rw [hsyms]; exact hm)
  have htables : u.buildTables = s.buildTables.ported u.inputs u.trace := by rw [← buildTables_ported, ← hsu]
  rw [htables] at hrun'
  generalize s.buildTables = t at hrun hrun'
  exact ⟨_, _, hrun, hrun', rfl, rfl, rfl, rfl, rfl, rfl⟩

/-! ## The empty input -/

/-- No symbol is present in the reset state (R40). -/
theorem presentSyms_reset : State.reset.presentSyms = [] :=
  List.eq_nil_iff_forall_not_mem.2 fun x hx => State.mem_presentSyms.1 hx (State.atReset_reset.freq x)

/-- Without a symbol the tree is absent and no symbol has a code (R155, R183). -/
theorem Built.absent {s t : State} (h : Built s t) (hnone : s.presentSyms = []) :
    t.ndist = 0 ∧ t.nnodes = 0 ∧ t.root = Config.nil ∧ ∀ x, t.clenAt x = 0 := by
  obtain ⟨htree, hcodes⟩ := h.inv.readyOk h.phase
  have hdist : t.ndist = 0 := BitVec.toNat_inj.1 (by rw [htree.ndist_eq h.freq, hnone]; rfl)
  refine ⟨hdist, (htree.absent hdist).1, (htree.absent hdist).2, fun x => (hcodes.absent x fun hx => ?_).1⟩
  rw [State.isPresent, freqAt_congr h.freq] at hx
  have hmem := State.mem_presentSyms.2 hx
  rw [hnone] at hmem
  exact absurd hmem List.not_mem_nil

/-- ENCEND, then DECEND, in P_READY: the two end-of-stream beats, and CUR at ROOT (R196, R211). -/
theorem runAll_encend_decend {s : State} (hf : s.fault = 0) (hp : s.phase = .ready) :
    runAll [.encend, .decend] s =
      .next (State.emit { s with cur := s.root } [.biteos, .rsp 0x00 0, .symeos, .rsp 0x00 0]) := by
  have henc := (encendEndsTheStream s hf).1 hp
  have hdec := (decendReturnsToTheRoot (s.answered [.biteos] 0) hf).1 (Or.inr hp)
  rw [runAll_cons_next henc, runAll_one hdec]
  simp [State.answered, State.emit]

/-- Settles O54: the pipeline on no symbol leaves no tree and no code, and the two ends of stream follow. -/
theorem emptyInput : Obligations.EmptyInput := by
  obtain ⟨-, t, -, -, -, -, hrun, hbuilt⟩ := (Inv.cleared State.reset).build rfl rfl
  obtain ⟨hdist, hnodes, hroot, hcodes⟩ := hbuilt.absent presentSyms_reset
  refine ⟨_, (runAll_append_next hrun).trans (runAll_encend_decend hbuilt.fault hbuilt.phase), hbuilt.fault,
    fun x => ?_, hdist, hnodes, hroot, hcodes, ?_⟩
  · exact (freqAt_congr hbuilt.freq x).trans (State.atReset_reset.freq x)
  · rw [State.emit_trace]
    exact congrArg (· ++ _) hbuilt.trace

end Sys2Proof.Machine
end

section
/-! PROOFS. Exceptions (spec/60_exceptions.md): the fault entry on an illegal word, the halted check, the phase check, and
what the status of a response says of the step that emitted it. -/

namespace Sys2Proof.Machine

/-! ## Illegal words and the halted check -/

/-- A word that decodes to no command is taken by the fault entry, whatever the phase and the fault record (R261). -/
theorem step_illegal {s : State} {w : CmdWord} {rest : List HostInput} (hin : s.inputs = .command w :: rest)
    (hno : ∀ i, decode w ≠ .ok i) :
    step s = .next (State.raise { s with inputs := rest } .illegal ((w >>> 32).setWidth 32)) := by
  rw [step_command hin, takeWord_illegal hno, CmdWord.upper_eq]

/-- Settles O4: the fault entry of an illegal word, as a first fault and as a later one. -/
theorem stepRaisesIllegal : Obligations.StepRaisesIllegal := by
  refine fun s w rest hin hno => ⟨fun hf => ?_, fun hf => ?_⟩
  · rw [step_illegal hin hno, State.raise_first (s := { s with inputs := rest }) hf]
    rfl
  · rw [step_illegal hin hno, State.raise_later (s := { s with inputs := rest }) hf]
    rfl

/-- The last column of table R280: every command but NOP, CLR and RD is refused while halted. -/
theorem performedWhileHalted_eq_false_iff (i : Instr) :
    performedWhileHalted i = false ↔ i ≠ .nop ∧ i ≠ .clr ∧ ∀ a, i ≠ .rd a := by
  cases i <;> simp [performedWhileHalted]

/-- Settles O12: the refusal, the three commands that are performed in every state, and the illegal word. -/
theorem haltedRefuses : Obligations.HaltedRefuses :=
  ⟨State.halted_iff, fun s hf =>
    ⟨fun i hnop hclr hrd => exec_refused hf ((performedWhileHalted_eq_false_iff i).2 ⟨hnop, hclr, hrd⟩),
      nopDoesNothing s, exec_clr s, fun a => (rdReadsOneWord s a).1,
      fun w rest hin hno => (stepRaisesIllegal s w rest hin hno).2 hf⟩⟩

/-! ## The phase check -/

/-- Settles O13: each command by its row of table R280. -/
theorem phaseViolation : Obligations.PhaseViolation := fun _ hf =>
  ⟨fun hp =>
      ⟨fun x => exec_seq hf ((legal_table (.sym x) _).2 hp), fun x d => exec_seq hf ((legal_table (.ldf x d) _).2 hp),
        exec_seq hf ((legal_table .forest _).2 hp)⟩,
    fun hp => ⟨exec_seq hf ((legal_table .merge _).2 hp), exec_seq hf ((legal_table .tree _).2 hp)⟩,
    fun hp => exec_seq hf ((legal_table .derive _).2 hp),
    fun hp => ⟨fun x => exec_seq hf ((legal_table (.enc x) _).2 hp), exec_seq hf ((legal_table .encend _).2 hp)⟩,
    fun htree hready =>
      ⟨fun b => exec_seq hf ((legal_table (.dec b) _).2 ⟨htree, hready⟩),
        exec_seq hf ((legal_table .decend _).2 ⟨htree, hready⟩)⟩⟩

/-! ## The status of a response -/

/-- E_HALTED is the code of no cause that a fault entry may name (R260). -/
theorem Cause.code_ne_halted (c : Cause) : c.code ≠ 0x07 := by cases c <;> decide

/-- E_SEQ is raised by the phase check alone, never by a command's own rule (R262). -/
theorem own_raise_code_ne_seq {i : Instr} {s : State} {c : Cause} {v : TblWord} (h : ownReply i s = .raise c v) :
    c.code ≠ 0x02 := by
  obtain ⟨-, -, rfl, -⟩ | ⟨-, -, rfl, -⟩ | ⟨-, -, rfl, -⟩ | ⟨-, -, rfl, -⟩ := own_raise h <;> decide

/-- The response of a fault entry carries the code and the info word of its own fault (R265). -/
theorem raise_response {s : State} {c : Cause} {v d : TblWord} {st : BitVec 8}
    (hlast : (s.raise c v).trace.getLast? = some (.rsp st d)) : c.code = st ∧ v = d := by
  rw [State.raise_trace] at hlast
  cases getLast_append_one hlast
  exact ⟨rfl, rfl⟩

/-- What a command comes to (R272), told by the status and the data of its response. -/
inductive AnsweredBy (i : Instr) (s : State) : BitVec 8 → TblWord → State → Prop
  | refused : s.fault ≠ 0 → performedWhileHalted i = false → AnsweredBy i s 0x07 0 s.refuseHalted
  | outOfPhase : (s.fault = 0 ∨ performedWhileHalted i = true) → legalIn i s.phase = false →
      AnsweredBy i s 0x02 (opInfo i) (s.raise .seq (opInfo i))
  | ownFault {c d} : passes i s → ownReply i s = .raise c d → AnsweredBy i s c.code d (s.raise c d)
  | done {d t} : passes i s → AnsweredBy i s 0x00 d t

theorem exec_answeredBy {i : Instr} {s t : State} {st : BitVec 8} {d : TblWord} (h : exec i s = .next t)
    (hlast : t.trace.getLast? = some (.rsp st d)) : AnsweredBy i s st d t := by
  rcases exec_cases h with ⟨hf, hi, rfl⟩ | ⟨hf, hl, rfl⟩ | ⟨hp, c, v, hr, rfl⟩ | ⟨hp, s', beats, v, hr, rfl⟩
  · cases getLast_append_one hlast
    exact .refused hf hi
  · obtain ⟨rfl, rfl⟩ := raise_response hlast
    exact .outOfPhase hf hl
  · obtain ⟨rfl, rfl⟩ := raise_response hlast
    exact .ownFault hp hr
  · rw [done_trace hr] at hlast
    cases getLast_append_one hlast
    exact .done hp

/-- A command that the halted check lets through is one that it does not refuse (R268). -/
theorem not_refused_iff {i : Instr} {s : State} :
    ¬ (s.fault ≠ 0 ∧ performedWhileHalted i = false) ↔ s.fault = 0 ∨ performedWhileHalted i = true := by
  rw [not_and_or, not_ne_iff, Bool.not_eq_false]

/-- E_SEQ is the answer exactly of the commands that the halted check lets through and the phase check does not
(R262, R272). -/
theorem AnsweredBy.status_seq_iff {i : Instr} {s t : State} {st : BitVec 8} {d : TblWord} (h : AnsweredBy i s st d t) :
    st = 0x02 ↔ (s.fault = 0 ∨ performedWhileHalted i = true) ∧ legalIn i s.phase = false := by
  cases h with
  | refused hf hi => exact iff_of_false (by decide) fun h => not_refused_iff.2 h.1 ⟨hf, hi⟩
  | outOfPhase hf hl => exact iff_of_true rfl ⟨hf, hl⟩
  | ownFault hp hr => exact iff_of_false (own_raise_code_ne_seq hr) (by simp [hp.2])
  | done hp => exact iff_of_false (by decide) (by simp [hp.2])

/-- E_HALTED is the answer exactly of the commands that the halted check refuses (R268). -/
theorem AnsweredBy.status_halted_iff {i : Instr} {s t : State} {st : BitVec 8} {d : TblWord}
    (h : AnsweredBy i s st d t) : st = 0x07 ↔ s.fault ≠ 0 ∧ performedWhileHalted i = false := by
  cases h with
  | refused hf hi => exact iff_of_true rfl ⟨hf, hi⟩
  | outOfPhase hf hl => exact iff_of_false (by decide) (not_refused_iff.2 hf)
  | ownFault hp hr => exact iff_of_false (Cause.code_ne_halted _) (not_refused_iff.2 hp.1)
  | done hp => exact iff_of_false (by decide) (not_refused_iff.2 hp.1)

/-! ## The phases -/

/-- PHASE moves only by a command that completes, and as that command's own rule moves it (R41, R280). -/
theorem exec_phase_moves {i : Instr} {s t : State} (h : exec i s = .next t) (hne : t.phase ≠ s.phase) :
    (i = .forest ∧ s.phase = .count ∧ t.phase = .forest) ∨
    ((i = .merge ∨ i = .tree) ∧ s.phase = .forest ∧ t.phase = .tree) ∨
    (i = .derive ∧ s.phase = .tree ∧ t.phase = .ready) ∨
    (i = .clr ∧ t.phase = .count) := by
  rcases exec_next h with ⟨-, -, rfl⟩ | ⟨c, info, rfl, -⟩ | ⟨⟨-, hlegal⟩, s', beats, d, hr, rfl⟩
  · exact absurd rfl hne
  · exact absurd (s.raise_phase c info) hne
  · rcases (exec_tableWrites h).phase.resolve_left hne with rfl | ⟨hi, ht⟩ | rfl | rfl
    · cases hr
      exact Or.inl ⟨rfl, eq_of_beq hlegal, rfl⟩
    · have hforest : s.phase = .forest := by obtain rfl | rfl := hi <;> exact eq_of_beq hlegal
      exact Or.inr (Or.inl ⟨hi, hforest, ht⟩)
    · cases hr
      exact Or.inr (Or.inr (Or.inl ⟨rfl, eq_of_beq hlegal, rfl⟩))
    · cases hr
      exact Or.inr (Or.inr (Or.inr ⟨rfl, rfl⟩))

/-- Settles O14: the two statuses by the two checks, each check by its columns of table R280. -/
theorem legalityByPhase : Obligations.LegalityByPhase := by
  refine ⟨fun i s t st d hf h hlast => ?_, fun i s t st d h hlast => ?_, fun i s t => exec_phase_moves⟩
  · exact (exec_answeredBy h hlast).status_seq_iff.trans
      ((and_iff_right (Or.inl hf)).trans (legal_table i s.phase))
  · exact (exec_answeredBy h hlast).status_halted_iff.trans
      (and_congr_right' (performedWhileHalted_eq_false_iff i))

/-! ## The fault entry -/

/-- A word that is answered with a fault is refused, or taken by the fault entry with the fault of its response. -/
theorem takeWord_faults {w : CmdWord} {s t : State} {st : BitVec 8} {d : TblWord} (h : takeWord w s = .next t)
    (hlast : t.trace.getLast? = some (.rsp st d)) (hst : st ≠ 0x00) :
    (st = 0x07 ∧ t = s.refuseHalted) ∨ ∃ c : Cause, st = c.code ∧ t = s.raise c d := by
  cases hw : decode w with
  | error e =>
    rw [takeWord_illegal (illegal_of_decode_error hw)] at h
    cases h
    obtain ⟨rfl, rfl⟩ := raise_response hlast
    exact Or.inr ⟨.illegal, rfl, rfl⟩
  | ok i =>
    rw [takeWord_ok hw] at h
    cases exec_answeredBy h hlast with
    | refused => exact Or.inl ⟨rfl, rfl⟩
    | outOfPhase => exact Or.inr ⟨.seq, rfl, rfl⟩
    | ownFault => exact Or.inr ⟨_, rfl, rfl⟩
    | done => exact absurd rfl hst

/-- After a fault entry the HCE is halted (R265, R268). -/
theorem raise_halted (s : State) (c : Cause) (v : TblWord) : (s.raise c v).halted = true := by
  rw [State.halted_iff]
  by_cases hf : s.fault = 0
  · rw [State.raise_first hf]
    exact c.code_ne_zero
  · rw [State.raise_later hf]
    exact hf

/-- Settles O15: a refusal answers 0x07 and no fault entry does; the fault entry by whether a fault is latched. -/
theorem faultEntryIsPrecise : Obligations.FaultEntryIsPrecise := by
  intro s t w rest st d hin h hlast hst
  rw [step_command hin] at h
  obtain ⟨rfl, rfl⟩ | ⟨c, rfl, rfl⟩ := takeWord_faults h hlast hst
  · exact ⟨fun _ => rfl, fun hne => absurd rfl hne⟩
  · exact ⟨fun hhalted => absurd hhalted c.code_ne_halted,
      fun _ => ⟨fun hf => State.raise_first (s := { s with inputs := rest }) hf c d,
        fun hf => State.raise_later (s := { s with inputs := rest }) hf c d, raise_halted _ c d⟩⟩

end Sys2Proof.Machine
end

section
/-! PROOFS. Idling and reset (spec/60_exceptions.md R284, 70_reset_and_hazards.md R300 to R302): nothing presented, reset
between two commands, reset in the middle of one. -/

namespace Sys2Proof.Machine

/-- Settles O5: nothing to fetch, and the reset input. -/
theorem stepIdlesOrResets : Obligations.StepIdlesOrResets :=
  ⟨fun s hin => by simp only [step, fetchInput, hin], fun _ _ hin => step_reset hin⟩

/-- The beats of a word are its events but for the last one, which is the response (R9, R100). -/
theorem takeWord_beatsSince {w : CmdWord} {s t : State} (h : takeWord w s = .next t) :
    beatsSince s t = (eventsSince s t).dropLast := by
  obtain ⟨u, beats, st, d, hu, -, htrace, hbeats⟩ := takeWord_answers w s
  cases h.symm.trans hu
  have hevents : eventsSince s t = beats ++ [.rsp st d] := by rw [eventsSince, htrace, List.drop_left]
  calc beatsSince s t = (eventsSince s t).filter Event.isBeat := rfl
    _ = beats.filter Event.isBeat := by rw [hevents, List.filter_append]; exact List.append_nil _
    _ = beats := List.filter_eq_self.2 hbeats
    _ = (eventsSince s t).dropLast := by rw [hevents, List.dropLast_concat]

/-- Reset in the middle of a word leaves the reset state and the first beats of the whole word (R300). -/
theorem takeCut_eq {w : CmdWord} {s t : State} (h : takeWord w s = .next t) (n : Nat) :
    takeCut w n s =
      .next (State.reset.ported s.inputs (s.trace ++ (eventsSince s t).dropLast.take n)) := by
  rw [← takeWord_beatsSince h, takeCut, h]
  rfl

/-- Settles O6: the word alone steps by `takeWord`, the word cut short by `takeCut`. -/
theorem resetCutsCommand : Obligations.ResetCutsCommand := by
  intro s w n rest t hin h
  rw [step_command rfl] at h
  simp only [step, fetchInput, hin, takeInput]
  exact takeCut_eq h n

end Sys2Proof.Machine
end
